-- ==== Sys2Proof/Word.lean ====
section
/-! DEFINITION. Bytes and words of the wire form (spec/00_scope.md R8, R10). -/
namespace Sys2Proof

/-- One byte of a BitValue (R9). -/
abbrev Byte := BitVec 8

/-- One word of the host port and of a chunk sequence (R10). -/
abbrev Word := BitVec 32

end Sys2Proof
end

