-- ==== Sys2Proof/Config.lean ====
section
/-! DEFINITION. The parameters of the hardware (spec/00_scope.md R6). A parameter the spec leaves OPEN is a constant
without a body: nothing can be proved of it beyond the constraint the spec states. The SDES tables, which the spec
supplies, stand in Machine/Sdes.lean. -/
namespace Sys2Proof

/-- The constants of one cipher variant with half width `h` and key width `k` (R6, R171, R172): its round count, subkey
width, key schedule, round function and the bit permutation around the rounds with its inverse. The record is the
configuration R174 asks for, so that a statement can be made for every choice of the constants. -/
structure CipherParams (h k : Nat) where
  /-- `SUBKEY_BITS(v)` -/
  subkeyBits : Nat
  /-- `ROUNDS(v)` -/
  rounds : Nat
  /-- `KS(v)`: the subkey of round `i` -/
  keySchedule : BitVec k → Nat → BitVec subkeyBits
  /-- `F(v)` -/
  roundF : BitVec h → BitVec subkeyBits → BitVec h
  /-- `IPERM(v)` -/
  iperm : BitVec (h + h) → BitVec (h + h)
  /-- the inverse of `IPERM(v)` -/
  ipermInv : BitVec (h + h) → BitVec (h + h)

/-- `IPERM(v)` is a bijection with the inverse the record names: the one constraint R6 states on it. -/
def CipherParams.Bijective {h k : Nat} (p : CipherParams h k) : Prop :=
  (∀ x, p.ipermInv (p.iperm x) = x) ∧ ∀ z, p.iperm (p.ipermInv z) = z

/-- The constants of the three variants (R2: a closed, fixed set). -/
structure Suite where
  sdes : CipherParams 4 10
  lucifer : CipherParams 32 128
  sp96 : CipherParams 24 96

/-- Every variant's `IPERM` is a bijection (R6). -/
def Suite.Bijective (S : Suite) : Prop :=
  S.sdes.Bijective ∧ S.lucifer.Bijective ∧ S.sp96.Bijective

namespace Config

/-- The unconstrained choice behind `DATA_CAP_WORDS`. -/
opaque dataCapChoice : Nat

/-- `DATA_CAP_WORDS` (R6, OPEN): any value with `1 ≤ DATA_CAP_WORDS` and `32·DATA_CAP_WORDS + 64 < 2^32`; the reduction
keeps exactly the values 1 to 134217725, which are those the constraint admits. -/
def dataCapWords : Nat := dataCapChoice % 134217725 + 1

/-- `OUT_CAP_WORDS = DATA_CAP_WORDS + 2` (R6, D19). -/
def outCapWords : Nat := dataCapWords + 2

/-- `KEY_CAP_WORDS` (R6, D19). -/
def keyCapWords : Nat := 4

/-- `IV_CAP_WORDS` (R6, D19). -/
def ivCapWords : Nat := 4

/-- `ROUNDS(Lucifer) - 1` (R180, OPEN). -/
opaque luciferExtraRounds : Nat
/-- `SUBKEY_BITS(Lucifer)` (R180, OPEN). -/
opaque luciferSubkeyBits : Nat
/-- `KS(Lucifer)` (R180, OPEN). -/
opaque luciferKeySchedule : BitVec 128 → Nat → BitVec luciferSubkeyBits
/-- `F(Lucifer)` (R180, OPEN). -/
opaque luciferRoundF : BitVec 32 → BitVec luciferSubkeyBits → BitVec 32
/-- `IPERM(Lucifer)` (R180, D9: the identity by default, any bijection allowed): some bijection. -/
opaque luciferIperm : Equiv.Perm (BitVec 64)

/-- `ROUNDS(SimpleSP96) - 1` (R183, OPEN). -/
opaque sp96ExtraRounds : Nat
/-- `SUBKEY_BITS(SimpleSP96)` (R183, OPEN). -/
opaque sp96SubkeyBits : Nat
/-- `KS(SimpleSP96)` (R183, OPEN). -/
opaque sp96KeySchedule : BitVec 96 → Nat → BitVec sp96SubkeyBits
/-- `F(SimpleSP96)` (R183, OPEN). -/
opaque sp96RoundF : BitVec 24 → BitVec sp96SubkeyBits → BitVec 24
/-- `IPERM(SimpleSP96)` (R183, D9: the identity by default, any bijection allowed): some bijection. -/
opaque sp96Iperm : Equiv.Perm (BitVec 48)

end Config
end Sys2Proof
end

