-- ==== Sys2Proof/Syntax.lean ====
section
/-! DEFINITION. The selectors of a request and the instructions: one constructor per row of spec/opcode_table.json
(spec/30_encoding.md R90 to R95). -/
namespace Sys2Proof

/-- The cipher variants (R2, R91). -/
inductive Cipher where
  | sdes | lucifer | sp96
deriving DecidableEq, Repr

/-- The modes of operation (R91). -/
inductive Mode where
  | ecb | cbc | ctr
deriving DecidableEq, Repr

/-- The padding schemes (R91). -/
inductive Scheme where
  | zero | x923 | pkcs7 | rfc1321
deriving DecidableEq, Repr

/-- `DO_ENC` (R90, R91). Also the direction port of the cipher unit (R170: `inv = 0` is `enc`). -/
inductive Direction where
  | dec | enc
deriving DecidableEq, Repr

/-- A legal control word, its fields read (R90, R92). -/
structure Control where
  cipher : Cipher
  mode : Mode
  padding : Scheme
  dir : Direction
deriving DecidableEq, Repr

/-- The operations of FEISTEL-CORE. The arguments of a constructor are the fields its table row leaves free; the block
operations `ENCBLK` carry the direction too, because R93 selects them by `DO_ENC = 1` or by `MODE = CTR`. -/
inductive Instr where
  /-- `START` (R266) -/
  | start
  /-- `CLEAR` (R267) -/
  | clear
  /-- `RUN.ENC` (R237) -/
  | runEnc (c : Cipher) (m : Mode) (p : Scheme)
  /-- `RUN.DEC` (R238) -/
  | runDec (c : Cipher) (m : Mode) (p : Scheme)
  /-- `BB.DECODE` (R121) -/
  | bbDecode (c : Cipher) (m : Mode) (p : Scheme) (d : Direction)
  /-- `BB.ENCODE` (R120) -/
  | bbEncode (c : Cipher) (m : Mode) (p : Scheme) (d : Direction)
  /-- `PAD.ZERO` (R141) -/
  | padZero (c : Cipher) (m : Mode)
  /-- `PAD.X923` (R143) -/
  | padX923 (c : Cipher) (m : Mode)
  /-- `PAD.PKCS7` (R145) -/
  | padPkcs7 (c : Cipher) (m : Mode)
  /-- `PAD.RFC1321` (R147) -/
  | padRfc1321 (c : Cipher) (m : Mode)
  /-- `UNPAD.ZERO` (R142) -/
  | unpadZero (c : Cipher) (m : Mode)
  /-- `UNPAD.X923` (R144) -/
  | unpadX923 (c : Cipher) (m : Mode)
  /-- `UNPAD.PKCS7` (R146) -/
  | unpadPkcs7 (c : Cipher) (m : Mode)
  /-- `UNPAD.RFC1321` (R148) -/
  | unpadRfc1321 (c : Cipher) (m : Mode)
  /-- `ECB.ENC` (R202) -/
  | ecbEnc (c : Cipher) (p : Scheme)
  /-- `CBC.ENC` (R203) -/
  | cbcEnc (c : Cipher) (p : Scheme)
  /-- `CTR.ENC` (R207) -/
  | ctrEnc (c : Cipher) (p : Scheme)
  /-- `ECB.DEC` (R205) -/
  | ecbDec (c : Cipher) (p : Scheme)
  /-- `CBC.DEC` (R204) -/
  | cbcDec (c : Cipher) (p : Scheme)
  /-- `CTR.DEC` (R209) -/
  | ctrDec (c : Cipher) (p : Scheme)
  /-- `ENCBLK.SDES` (R178) -/
  | encblkSdes (d : Direction) (m : Mode) (p : Scheme)
  /-- `ENCBLK.LUCIFER` (R181) -/
  | encblkLucifer (d : Direction) (m : Mode) (p : Scheme)
  /-- `ENCBLK.SP96` (R184) -/
  | encblkSp96 (d : Direction) (m : Mode) (p : Scheme)
  /-- `DECBLK.SDES` (R179) -/
  | decblkSdes (m : Mode) (p : Scheme)
  /-- `DECBLK.LUCIFER` (R182) -/
  | decblkLucifer (m : Mode) (p : Scheme)
  /-- `DECBLK.SP96` (R185) -/
  | decblkSp96 (m : Mode) (p : Scheme)
deriving DecidableEq, Repr

end Sys2Proof
end

