-- ==== Sys2Proof/WellFormed.lean ====
section
/-! DEFINITION. Which terms of Instr a control word can name (spec/30_encoding.md R93). Every field is already one of the
codes R91 lists, so only the selection of the block operations leaves something to check. -/
namespace Sys2Proof

/-- `encrypt_block` is selected by `DO_ENC = 1` or `MODE = CTR` (R93). -/
def selectsEncrypt (d : Direction) (m : Mode) : Bool :=
  d == .enc || m == .ctr

/-- The check on an instruction: a block operation stands for a control word that selects it (R93). -/
def Instr.wellFormed : Instr → Bool
  | .start | .clear => true
  | .runEnc _ _ _ | .runDec _ _ _ => true
  | .bbDecode _ _ _ _ | .bbEncode _ _ _ _ => true
  | .padZero _ _ | .padX923 _ _ | .padPkcs7 _ _ | .padRfc1321 _ _ => true
  | .unpadZero _ _ | .unpadX923 _ _ | .unpadPkcs7 _ _ | .unpadRfc1321 _ _ => true
  | .ecbEnc _ _ | .cbcEnc _ _ | .ctrEnc _ _ => true
  | .ecbDec _ _ | .cbcDec _ _ | .ctrDec _ _ => true
  | .encblkSdes d m _ | .encblkLucifer d m _ | .encblkSp96 d m _ => selectsEncrypt d m
  | .decblkSdes m _ | .decblkLucifer m _ | .decblkSp96 m _ => !selectsEncrypt .dec m

end Sys2Proof
end

