-- ==== Sys2Proof/Decode.lean ====
section
/-! DEFINITION. The decoder and, after it, the encoder (spec/30_encoding.md R90 to R95). A legal control word names one
operation of EACH unit (R93), so what a word means depends on who reads it: the decoder takes the reader with the word. -/
namespace Sys2Proof

/-- Who reads an instruction word: the command port (format CMD), or one of the units the sequencer drives from `CTRLL`
(format CTRL; the table of R93, one row group each). -/
inductive Reader where
  | command | pipeline | bbDecoder | bbEncoder | padding | modes | cipher
deriving DecidableEq, Repr

/-- Why a word is no instruction. -/
inductive DecodeError where
  /-- fewer than the four bytes of a word -/
  | truncated
  /-- a command code other than 1 and 2 (R95) -/
  | reservedCommand
  /-- `CTRL[31:7] ≠ 0` (R92) -/
  | reservedBits
  /-- `CIPHER = 3` (R92) -/
  | reservedCipher
  /-- `MODE = 3` (R92) -/
  | reservedMode
deriving DecidableEq, Repr

/-- `CIPHER` codes (R91). -/
def decodeCipher (f : BitVec 2) : Option Cipher :=
  match f.toNat with
  | 0 => some .sdes
  | 1 => some .lucifer
  | 2 => some .sp96
  | _ => none

/-- `MODE` codes (R91). -/
def decodeMode (f : BitVec 2) : Option Mode :=
  match f.toNat with
  | 0 => some .ecb
  | 1 => some .cbc
  | 2 => some .ctr
  | _ => none

/-- `PADDING` codes (R91). -/
def decodeScheme (f : BitVec 2) : Scheme :=
  match f.toNat with
  | 0 => .zero
  | 1 => .x923
  | 2 => .pkcs7
  | _ => .rfc1321

/-- `DO_ENC` (R91). -/
def decodeDirection (f : BitVec 1) : Direction :=
  if f = 1#1 then .enc else .dec

/-- The fields of a control word, or why it is reserved (R90, R92). -/
def decodeControl (w : Word) : Except DecodeError Control :=
  if w.extractLsb' 7 25 = 0#25 then
    match decodeCipher (w.extractLsb' 0 2), decodeMode (w.extractLsb' 2 2) with
    | some c, some m => .ok ⟨c, m, decodeScheme (w.extractLsb' 4 2), decodeDirection (w.extractLsb' 6 1)⟩
    | none, _ => .error .reservedCipher
    | some _, none => .error .reservedMode
  else .error .reservedBits

/-- `RUN.ENC` or `RUN.DEC` (R93). -/
def selectRun (k : Control) : Instr :=
  match k.dir with
  | .enc => .runEnc k.cipher k.mode k.padding
  | .dec => .runDec k.cipher k.mode k.padding

/-- `BB.DECODE` (R93). -/
def selectDecode (k : Control) : Instr :=
  .bbDecode k.cipher k.mode k.padding k.dir

/-- `BB.ENCODE` (R93). -/
def selectEncode (k : Control) : Instr :=
  .bbEncode k.cipher k.mode k.padding k.dir

/-- `PAD.*` when encrypting, `UNPAD.*` when decrypting (R93). -/
def selectPadding (k : Control) : Instr :=
  match k.dir, k.padding with
  | .enc, .zero => .padZero k.cipher k.mode
  | .enc, .x923 => .padX923 k.cipher k.mode
  | .enc, .pkcs7 => .padPkcs7 k.cipher k.mode
  | .enc, .rfc1321 => .padRfc1321 k.cipher k.mode
  | .dec, .zero => .unpadZero k.cipher k.mode
  | .dec, .x923 => .unpadX923 k.cipher k.mode
  | .dec, .pkcs7 => .unpadPkcs7 k.cipher k.mode
  | .dec, .rfc1321 => .unpadRfc1321 k.cipher k.mode

/-- The mode operation (R93). -/
def selectMode (k : Control) : Instr :=
  match k.dir, k.mode with
  | .enc, .ecb => .ecbEnc k.cipher k.padding
  | .enc, .cbc => .cbcEnc k.cipher k.padding
  | .enc, .ctr => .ctrEnc k.cipher k.padding
  | .dec, .ecb => .ecbDec k.cipher k.padding
  | .dec, .cbc => .cbcDec k.cipher k.padding
  | .dec, .ctr => .ctrDec k.cipher k.padding

/-- The block operation: `encrypt_block` when encrypting or in CTR, `decrypt_block` otherwise (R93, R209). -/
def selectCipher (k : Control) : Instr :=
  if selectsEncrypt k.dir k.mode then
    match k.cipher with
    | .sdes => .encblkSdes k.dir k.mode k.padding
    | .lucifer => .encblkLucifer k.dir k.mode k.padding
    | .sp96 => .encblkSp96 k.dir k.mode k.padding
  else
    match k.cipher with
    | .sdes => .decblkSdes k.mode k.padding
    | .lucifer => .decblkLucifer k.mode k.padding
    | .sp96 => .decblkSp96 k.mode k.padding

/-- A command word (R95): 1 is START, 2 is CLEAR, every other value is no command. -/
def decodeCommand (w : Word) : Except DecodeError Instr :=
  if w = 1#32 then .ok .start
  else if w = 2#32 then .ok .clear
  else .error .reservedCommand

/-- The instruction a reader finds in a word. -/
def decodeWord (r : Reader) (w : Word) : Except DecodeError Instr :=
  match r with
  | .command => decodeCommand w
  | .pipeline => (decodeControl w).map selectRun
  | .bbDecoder => (decodeControl w).map selectDecode
  | .bbEncoder => (decodeControl w).map selectEncode
  | .padding => (decodeControl w).map selectPadding
  | .modes => (decodeControl w).map selectMode
  | .cipher => (decodeControl w).map selectCipher

/-- The word whose byte `j` is `w[8j+7 : 8j]` (R10, R65 a). -/
def wordOfBytes (b0 b1 b2 b3 : Byte) : Word :=
  b3 ++ b2 ++ b1 ++ b0

/-- The four bytes of a word, lowest address first (R10, R65 a). -/
def bytesOfWord (w : Word) : List Byte :=
  [w.extractLsb' 0 8, w.extractLsb' 8 8, w.extractLsb' 16 8, w.extractLsb' 24 8]

/-- The instruction at the head of a byte sequence, with the bytes after it. -/
def decodeBytes (r : Reader) : List Byte → Except DecodeError (Instr × List Byte)
  | b0 :: b1 :: b2 :: b3 :: rest => (decodeWord r (wordOfBytes b0 b1 b2 b3)).map fun i => (i, rest)
  | _ => .error .truncated

/-- The reader meant by a word that comes with no reader: the two words that fill the whole of a CMD row are commands,
every other word is a control word read by the Pipeline, whose two operations are the top-level ones (R237, R238). -/
def tableReader (w : Word) : Reader :=
  if w = 1#32 ∨ w = 2#32 then .command else .pipeline

/-- The word of an instruction given as a number of `nbits` bits, every higher bit zero. -/
def tableWord (nbits w : Nat) : Word :=
  BitVec.ofNat 32 (w % 2 ^ nbits)

/-- The instruction the decoder reads from an instruction whose bits are `w`. -/
def decodeTableWord (nbits w : Nat) : Option Instr :=
  match decodeBytes (tableReader (tableWord nbits w)) (bytesOfWord (tableWord nbits w)) with
  | .ok (i, _) => some i
  | .error _ => none

/-- `CIPHER` codes (R91). -/
def encodeCipher : Cipher → BitVec 2
  | .sdes => 0#2
  | .lucifer => 1#2
  | .sp96 => 2#2

/-- `MODE` codes (R91). -/
def encodeMode : Mode → BitVec 2
  | .ecb => 0#2
  | .cbc => 1#2
  | .ctr => 2#2

/-- `PADDING` codes (R91). -/
def encodeScheme : Scheme → BitVec 2
  | .zero => 0#2
  | .x923 => 1#2
  | .pkcs7 => 2#2
  | .rfc1321 => 3#2

/-- `DO_ENC` (R91). -/
def encodeDirection : Direction → BitVec 1
  | .dec => 0#1
  | .enc => 1#1

/-- The control word with the given fields (R90). -/
def encodeControl (k : Control) : Word :=
  0#25 ++ encodeDirection k.dir ++ encodeScheme k.padding ++ encodeMode k.mode ++ encodeCipher k.cipher

/-- The reader and the word of an instruction. -/
def encode : Instr → Reader × Word
  | .start => (.command, 1#32)
  | .clear => (.command, 2#32)
  | .runEnc c m p => (.pipeline, encodeControl ⟨c, m, p, .enc⟩)
  | .runDec c m p => (.pipeline, encodeControl ⟨c, m, p, .dec⟩)
  | .bbDecode c m p d => (.bbDecoder, encodeControl ⟨c, m, p, d⟩)
  | .bbEncode c m p d => (.bbEncoder, encodeControl ⟨c, m, p, d⟩)
  | .padZero c m => (.padding, encodeControl ⟨c, m, .zero, .enc⟩)
  | .padX923 c m => (.padding, encodeControl ⟨c, m, .x923, .enc⟩)
  | .padPkcs7 c m => (.padding, encodeControl ⟨c, m, .pkcs7, .enc⟩)
  | .padRfc1321 c m => (.padding, encodeControl ⟨c, m, .rfc1321, .enc⟩)
  | .unpadZero c m => (.padding, encodeControl ⟨c, m, .zero, .dec⟩)
  | .unpadX923 c m => (.padding, encodeControl ⟨c, m, .x923, .dec⟩)
  | .unpadPkcs7 c m => (.padding, encodeControl ⟨c, m, .pkcs7, .dec⟩)
  | .unpadRfc1321 c m => (.padding, encodeControl ⟨c, m, .rfc1321, .dec⟩)
  | .ecbEnc c p => (.modes, encodeControl ⟨c, .ecb, p, .enc⟩)
  | .cbcEnc c p => (.modes, encodeControl ⟨c, .cbc, p, .enc⟩)
  | .ctrEnc c p => (.modes, encodeControl ⟨c, .ctr, p, .enc⟩)
  | .ecbDec c p => (.modes, encodeControl ⟨c, .ecb, p, .dec⟩)
  | .cbcDec c p => (.modes, encodeControl ⟨c, .cbc, p, .dec⟩)
  | .ctrDec c p => (.modes, encodeControl ⟨c, .ctr, p, .dec⟩)
  | .encblkSdes d m p => (.cipher, encodeControl ⟨.sdes, m, p, d⟩)
  | .encblkLucifer d m p => (.cipher, encodeControl ⟨.lucifer, m, p, d⟩)
  | .encblkSp96 d m p => (.cipher, encodeControl ⟨.sp96, m, p, d⟩)
  | .decblkSdes m p => (.cipher, encodeControl ⟨.sdes, m, p, .dec⟩)
  | .decblkLucifer m p => (.cipher, encodeControl ⟨.lucifer, m, p, .dec⟩)
  | .decblkSp96 m p => (.cipher, encodeControl ⟨.sp96, m, p, .dec⟩)

/-- The bytes of an instruction's word (R65). -/
def encodeBytes (i : Instr) : List Byte :=
  bytesOfWord (encode i).2

end Sys2Proof
end

