-- ==== Sys2Proof/Machine/State.lean ====
section
/-! DEFINITION. The state of FEISTEL-CORE (spec/10_state.md) and its reset value (R50). -/
namespace Sys2Proof.Machine

/-- `SEQ.PHASE` (R40). -/
inductive Phase where
  | idle | validate | pad | mode | unpad | encode | done | error
deriving DecidableEq, Repr

/-- `SEQ = (PHASE, BLK)`, the program counter (R40). -/
structure Seq where
  phase : Phase
  blk : BitVec 32
deriving DecidableEq, Repr

/-- `SUBKEY[0 .. ROUNDS(v) - 1]` of the variant last scheduled, each of its `SUBKEY_BITS(v)` bits (R33); `zero` while
none has been written, when every `SUBKEY[i]` is 0. -/
inductive Subkeys where
  | zero
  | sdes (ks : List (BitVec 8))
  | lucifer (ks : List (BitVec Config.luciferSubkeyBits))
  | sp96 (ks : List (BitVec Config.sp96SubkeyBits))
deriving DecidableEq, Repr

/-- The working registers of R33. -/
structure Work where
  /-- `CTRLL`: `CTRL` latched at START -/
  ctrll : Word
  /-- `KEYV` -/
  keyV : BitVec 128
  /-- `KEYN` -/
  keyN : BitVec 32
  /-- `IVV` -/
  ivV : BitVec 128
  /-- `IVN` -/
  ivN : BitVec 32
  /-- `IBUF`: the integer of the BitValue fed to the mode (log entry 7) -/
  ibuf : Nat
  /-- `IBUFN` -/
  ibufN : BitVec 32
  /-- `OBUF`: the integer of the BitValue the mode produces (log entry 7) -/
  obuf : Nat
  /-- `OBUFN` -/
  obufN : BitVec 32
  /-- `NBLK` -/
  nblk : BitVec 32
  /-- `CHAIN`, the low `B` bits used -/
  chain : BitVec 64
  /-- `CTRV`, the low `w` bits used -/
  ctrv : BitVec 64
  /-- `CTRW` -/
  ctrw : BitVec 7
  /-- `L`, the low `h` bits used -/
  l : BitVec 32
  /-- `R`, the low `h` bits used -/
  r : BitVec 32
  /-- `SUBKEY[i]` -/
  subkey : Subkeys
  /-- the model's own: the block at the cipher unit's ports, operand before and result after the unit runs, the low `B`
  bits used (log entry 4) -/
  blockPort : BitVec 64
deriving DecidableEq, Repr

/-- All working registers zero (R34, R50). -/
def Work.zero : Work :=
  { ctrll := 0#32, keyV := 0#128, keyN := 0#32, ivV := 0#128, ivN := 0#32, ibuf := 0, ibufN := 0#32, obuf := 0
    obufN := 0#32, nblk := 0#32, chain := 0#64, ctrv := 0#64, ctrw := 0#7, l := 0#32, r := 0#32, subkey := .zero
    blockPort := 0#64 }

/-- What comes to the core from outside, in the order it takes effect (R20, R260, R310): the accesses of the host, named by
their byte offset from `BASE` and their width in bytes, RESET, and the scheduling of the sequencer between them. -/
inductive Event where
  /-- `MemRead(BASE + off, bytes)` -/
  | read (off : BitVec 32) (bytes : Nat)
  /-- `MemWrite(BASE + off, bytes, v)` -/
  | write (off : BitVec 32) (bytes : Nat) (v : Word)
  /-- `RESET` (R310) -/
  | reset
  /-- the sequencer takes one step (R246) -/
  | sequencerStep
  /-- the sequencer runs the accepted request as one step (R245, R326) -/
  | runRequest
deriving DecidableEq, Repr

/-- The machine. `STATUS`, `OUT_WORDS`, the word counts, `CAP` and the `OUT` window are views of these fields
(Machine/Ops.lean, `portRead`). -/
structure State where
  /-- `CTRL` (R21) -/
  ctrl : Word
  /-- `ERR.CODE` (R24) -/
  errCode : BitVec 8
  /-- `KEY_SIZE` (R25) -/
  keySize : BitVec 32
  /-- `IV_SIZE` (R25) -/
  ivSize : BitVec 32
  /-- `DATA_SIZE` (R25) -/
  dataSize : BitVec 32
  /-- `OUT_SIZE` (R26) -/
  outSize : BitVec 32
  /-- `KEYQ` (R31) -/
  keyq : List Word
  /-- `IVQ` (R31) -/
  ivq : List Word
  /-- `DATAQ` (R31) -/
  dataq : List Word
  /-- `OUTQ` (R32) -/
  outq : List Word
  /-- the working registers (R33) -/
  work : Work
  /-- `SEQ` (R40) -/
  seq : Seq
  /-- the model's own: what is still to come from outside (log entry 1) -/
  inbox : List Event
  /-- the model's own: the words the port has returned, oldest first (R62, log entry 1) -/
  replies : List Word
deriving DecidableEq, Repr

/-- The machine right after reset (R50, R310, R311): one state, nothing unspecified. -/
def State.reset : State :=
  { ctrl := 0#32, errCode := 0#8, keySize := 0#32, ivSize := 0#32, dataSize := 0#32, outSize := 0#32, keyq := [], ivq := []
    dataq := [], outq := [], work := Work.zero, seq := ⟨.idle, 0#32⟩, inbox := [], replies := [] }

/-- Faults: there are none. No access faults (R63, R67), and the typed errors of R280 are taken as the state R284 gives. -/
inductive Fault where
deriving DecidableEq, Repr

/-- Refusals: where the spec says that a model gives a situation no behaviour. -/
inductive Refusal where
  /-- raised by exec's arm of an instruction that has no meaning yet; none in this model; safe -/
  | notModelled (mnemonic : String)
  /-- raised by `step` on a host access at an offset that is no multiple of 4 (R66: a model must refuse it); safe -/
  | misalignedAccess
  /-- raised by `step` on a host access whose width is not 4 bytes (R66: a model must refuse it); safe -/
  | notWordAccess
  /-- raised by `PAD.ZERO`, `PAD.X923` and `PAD.PKCS7` at the unit's own boundary on an operand that is not a whole number
  of bytes (R140, U18: a model must refuse it; no request reaches it, R235); safe -/
  | padOperandNotBytes
deriving DecidableEq, Repr

end Sys2Proof.Machine
end

