-- ==== Sys2Proof/Machine/Flags.lean ====
section
/-! DEFINITION. The status flags, all there are (spec/10_state.md R23, R24, R45), and the error codes
(spec/60_exceptions.md R280). -/
namespace Sys2Proof.Machine

/-- The typed errors (R280). -/
inductive ErrKind where
  | malformedInput | invalidKeyOrBlockSize | unsupportedConfiguration | paddingError
  /-- at the boundary of the mode unit only (R281) -/
  | invalidIVSize
  /-- reserved, never raised (D32) -/
  | unsupportedImageFormat
deriving DecidableEq, Repr

/-- `ERR.CODE` of an error (R280). -/
def ErrKind.code : ErrKind → BitVec 8
  | .malformedInput => 1#8
  | .invalidKeyOrBlockSize => 2#8
  | .unsupportedConfiguration => 3#8
  | .paddingError => 4#8
  | .invalidIVSize => 5#8
  | .unsupportedImageFormat => 6#8

/-- `STATUS.STATE` as a function of `SEQ.PHASE` (R23). -/
def statusCode : Phase → BitVec 2
  | .idle => 0#2
  | .validate | .pad | .mode | .unpad | .encode => 1#2
  | .done => 2#2
  | .error => 3#2

/-- `STATUS.STATE = BUSY` (R23). -/
def Phase.busy (p : Phase) : Bool := statusCode p == 1#2

/-- `ERR` as the host reads it: `CODE` in `STATE = ERROR`, 0 otherwise (R24, R261). -/
def errRegister (s : State) : Word :=
  if s.seq.phase = .error then s.errCode.setWidth 32 else 0#32

end Sys2Proof.Machine
end

