-- ==== Sys2Proof/Machine/BitValue.lean ====
section
/-! DEFINITION. BitValues and their wire form (spec/00_scope.md R8 to R10, spec/40_bitbuffer.md R120, R121). -/
namespace Sys2Proof.Machine

/-- `⌈a / b⌉` for `b > 0` (R8). -/
def cdiv (a b : Nat) : Nat := (a + (b - 1)) / b

/-- The bytes that `n` bits take: `cdiv(n, 8)` (R9). -/
def byteCount (n : Nat) : Nat := cdiv n 8

/-- The words that `n` bits take: `cdiv(cdiv(n, 8), 4)` (R120, R121). -/
def wordCount (n : Nat) : Nat := cdiv (byteCount n) 4

/-- A BitValue `(n, x)`: a bit length and the little-endian integer of its bytes (R9). -/
structure BitValue where
  /-- `bit_length` -/
  len : Nat
  /-- the integer `x` -/
  val : Nat
deriving DecidableEq, Repr

/-- The invariant of a BitValue: no bit at or above `bit_length` is set (R9). -/
abbrev BitValue.Valid (v : BitValue) : Prop := v.val < 2 ^ v.len

/-- `0'h0`. -/
def BitValue.empty : BitValue := ⟨0, 0⟩

/-- `bytes[0 .. cdiv(n, 8) - 1]`: bit `i` is bit `i mod 8` of `bytes[i div 8]` (R9, R65 b). -/
def BitValue.bytes (v : BitValue) : List Byte :=
  (List.range (byteCount v.len)).map fun i => BitVec.ofNat 8 (v.val >>> (8 * i))

/-- `Σ bytes[k]·256^k` (R9). -/
def bytesToNat (bs : List Byte) : Nat :=
  bs.foldr (fun b acc => b.toNat + 256 * acc) 0

/-- The BitValue of a whole number of bytes (R140: `n' = 8·len(bytes')`). -/
def BitValue.ofBytes (bs : List Byte) : BitValue :=
  ⟨8 * bs.length, bytesToNat bs⟩

/-- `Σ ws[k]·2^(32k)` (R121). -/
def wordsToNat (ws : List Word) : Nat :=
  ws.foldr (fun w acc => w.toNat + 2 ^ 32 * acc) 0

/-- `encode(v)`: `ws[k] = x[32k+31 : 32k]` (R120). DESIGN CHOICE (log entry 21): bits of an invalid BitValue at or above its
length, which no run has, stand in the last word as they are. -/
def encodeWords (v : BitValue) : List Word :=
  (List.range (wordCount v.len)).map fun k => BitVec.ofNat 32 (v.val >>> (32 * k))

/-- `decode(ws, n)`, or nothing where it raises `MalformedInput` (R121). -/
def decodeWords (ws : List Word) (n : Nat) : Option BitValue :=
  if ws.length < wordCount n then none
  else some ⟨n, wordsToNat (ws.take (wordCount n)) % 2 ^ n⟩

end Sys2Proof.Machine
end

