-- ==== Sys2Proof/Machine/Variant.lean ====
section
/-! DEFINITION. The sizes of the cipher variants (spec/00_scope.md R2). -/
namespace Sys2Proof.Machine

/-- `h(v)`, the half width in bits (R2). -/
def halfBits : Cipher → Nat
  | .sdes => 4
  | .lucifer => 32
  | .sp96 => 24

/-- `B(v)`, the block size in bits (R2). -/
def blockBits : Cipher → Nat
  | .sdes => 8
  | .lucifer => 64
  | .sp96 => 48

/-- `K(v)`, the key size in bits (R2). -/
def keyBits : Cipher → Nat
  | .sdes => 10
  | .lucifer => 128
  | .sp96 => 96

/-- `bs = B/8`, the block size in bytes (R2). -/
def blockBytes (c : Cipher) : Nat := blockBits c / 8

end Sys2Proof.Machine
end

