-- ==== Sys2Proof/Machine/Operands.lean ====
section
/-! DEFINITION. The operand records of a request and the values the units read and write (spec/30_encoding.md R96,
spec/44_pipeline.md R230, R232, spec/43_modes.md R200). -/
namespace Sys2Proof.Machine

/-- The operand records of a request, `{ size, bytes : WireChunks }` each (R96, R230). -/
structure Request where
  keySize : BitVec 32
  keyq : List Word
  ivSize : BitVec 32
  ivq : List Word
  dataSize : BitVec 32
  dataq : List Word
deriving DecidableEq, Repr

/-- The operands a request decodes to (R232). -/
structure Operands where
  key : BitValue
  iv : BitValue
  data : BitValue
deriving DecidableEq, Repr

/-- The request that the registers and queues hold (R230). -/
def State.request (s : State) : Request :=
  ⟨s.keySize, s.keyq, s.ivSize, s.ivq, s.dataSize, s.dataq⟩

/-- `decode(queue, size)` (R96, R121). -/
def decodeRecord (q : List Word) (size : BitVec 32) : Except ErrKind BitValue :=
  match decodeWords q size.toNat with
  | some v => .ok v
  | none => .error .malformedInput

/-- The IV of a request: in ECB the empty BitValue, its record not looked at (R232, D18). -/
def decodeIv (m : Mode) (q : Request) : Except ErrKind BitValue :=
  match m with
  | .ecb => .ok .empty
  | .cbc | .ctr => decodeRecord q.ivq q.ivSize

/-- Operand decode, in the order key, IV, data (R232). -/
def decodeOperands (m : Mode) (q : Request) : Except ErrKind Operands :=
  match decodeRecord q.keyq q.keySize with
  | .error e => .error e
  | .ok key =>
    match decodeIv m q with
    | .error e => .error e
    | .ok iv =>
      match decodeRecord q.dataq q.dataSize with
      | .error e => .error e
      | .ok data => .ok ⟨key, iv, data⟩

/-- The operands into `KEYV/KEYN`, `IVV/IVN`, `IBUF/IBUFN` (R232). -/
def Work.loadOperands (w : Work) (o : Operands) : Work :=
  { w with
    keyV := BitVec.ofNat 128 o.key.val
    keyN := BitVec.ofNat 32 o.key.len
    ivV := BitVec.ofNat 128 o.iv.val
    ivN := BitVec.ofNat 32 o.iv.len
    ibuf := o.data.val
    ibufN := BitVec.ofNat 32 o.data.len }

/-- The BitValue in `IBUF/IBUFN` (R33). -/
def Work.input (w : Work) : BitValue := ⟨w.ibufN.toNat, w.ibuf⟩

/-- The BitValue in `OBUF/OBUFN` (R33). -/
def Work.output (w : Work) : BitValue := ⟨w.obufN.toNat, w.obuf⟩

/-- `IBUF <- v`. DESIGN CHOICE (log entry 19): `IBUFN` keeps the low 32 bits of a length of `2^32` or more, which no request has
(R12 f). -/
def Work.setInput (w : Work) (v : BitValue) : Work :=
  { w with ibuf := v.val, ibufN := BitVec.ofNat 32 v.len }

/-- `OBUF <- v`; a length of `2^32` or more as in `IBUFN` (log entry 19). -/
def Work.setOutput (w : Work) (v : BitValue) : Work :=
  { w with obuf := v.val, obufN := BitVec.ofNat 32 v.len }

/-- Block `i` of an integer: `x[(i+1)·B - 1 : i·B]` (R200). -/
def blockAt (B x i : Nat) : BitVec B := BitVec.ofNat B (x >>> (i * B))

/-- `x` with block `i` replaced by `y` (R200). -/
def putBlock (B x i : Nat) (y : BitVec B) : Nat :=
  x % 2 ^ (i * B) + 2 ^ (i * B) * (y.toNat + 2 ^ B * (x >>> ((i + 1) * B)))

/-- The blocks `X[0 .. m-1]` of a BitValue, `m = n div B` (R200). -/
def sliceBlocks (B : Nat) (v : BitValue) : List (BitVec B) :=
  (List.range (v.len / B)).map fun i => blockAt B v.val i

/-- `Σ Y[i]·2^(i·B)` (R200). -/
def blocksToNat {B : Nat} (ys : List (BitVec B)) : Nat :=
  ys.foldr (fun y acc => y.toNat + 2 ^ B * acc) 0

/-- The BitValue of a block sequence: `(m·B, Σ Y[i]·2^(i·B))` (R200). -/
def joinBlocks {B : Nat} (ys : List (BitVec B)) : BitValue :=
  ⟨ys.length * B, blocksToNat ys⟩

/-- The block the sequencer is at: `X[SEQ.BLK]` of `IBUF` (R200). -/
def State.inputBlock (c : Cipher) (s : State) : BitVec (blockBits c) :=
  blockAt (blockBits c) s.work.ibuf s.seq.blk.toNat

/-- `Y[SEQ.BLK] <- y` in `OBUF`, whose length is that of the `NBLK` blocks (R200), its low
32 bits kept (log entry 19). -/
def State.storeBlock (c : Cipher) (y : BitVec (blockBits c)) (s : State) : State :=
  { s with work := { s.work with
      obuf := putBlock (blockBits c) s.work.obuf s.seq.blk.toNat y
      obufN := BitVec.ofNat 32 (s.work.nblk.toNat * blockBits c) } }

end Sys2Proof.Machine
end

