-- ==== Sys2Proof/Machine/Ops.lean ====
section
/-! DEFINITION. The operations the instructions share: error entry and the return from it (spec/60_exceptions.md R284, R286),
completion (spec/44_pipeline.md R240), the acceptance of START (spec/45_host_port.md R266), and the register space
(spec/20_memory.md R61 to R63, spec/10_state.md R21 to R30). -/
namespace Sys2Proof.Machine

/-- Error entry, the meaning of `raise E` (R284): the code is recorded, the response is discarded, the working registers are
zeroed and the sequencer is at `(ERROR, 0)`; the request registers and queues keep their values. -/
def raise (e : ErrKind) (s : State) : State :=
  { s with errCode := e.code, outq := [], outSize := 0#32, work := Work.zero, seq := ⟨.error, 0#32⟩ }

/-- Every piece of the hardware's state takes its reset value (R267, R310); the events still to come and the words already
returned are not the hardware's. This is also the only way back from an error (R286). -/
def clearAll (s : State) : State :=
  { State.reset with inbox := s.inbox, replies := s.replies }

/-- The response of the request (R120, R240): `OUTQ <- encode(out)`, `OUT_SIZE <- out.bit_length`. -/
def publish (out : BitValue) (s : State) : State :=
  { s with outq := encodeWords out, outSize := BitVec.ofNat 32 out.len }

/-- The entry to DONE (R240, R34, R245): `ERR` 0, working registers zeroed, `SEQ <- (DONE, 0)`. -/
def complete (s : State) : State :=
  { s with errCode := 0#8, work := Work.zero, seq := ⟨.done, 0#32⟩ }

/-- The acceptance of START (R266): `CTRLL <- CTRL`, `SEQ <- (VALIDATE, 0)`. -/
def acceptStart (s : State) : State :=
  { s with work := { s.work with ctrll := s.ctrl }, seq := ⟨.validate, 0#32⟩ }

/-- A unit operation's outcome in the machine: its next state, or error entry. -/
def settle (s : State) (r : Except ErrKind State) : Host.Outcome State Fault Refusal :=
  match r with
  | .ok t => .next t
  | .error e => .next (raise e s)

/-- A push: the word is appended while there is room, and dropped otherwise (R27, R263). -/
def pushWord (cap : Nat) (q : List Word) (v : Word) : List Word :=
  if q.length < cap then q ++ [v] else q

/-- The registers of the address map (R61). -/
inductive Reg where
  | ctrl | cmd | status | err | keySize | ivSize | dataSize | outSize | keyIn | ivIn | dataIn | outWords | keyWc | ivWc
  | dataWc | cap
  | out (k : Nat)
  | unmapped
deriving DecidableEq, Repr

/-- The register at a byte offset that is a multiple of 4 (R61, R67). -/
def regAt (off : BitVec 32) : Reg :=
  match off.toNat with
  | 0x000 => .ctrl
  | 0x004 => .cmd
  | 0x008 => .status
  | 0x00C => .err
  | 0x010 => .keySize
  | 0x014 => .ivSize
  | 0x018 => .dataSize
  | 0x01C => .outSize
  | 0x020 => .keyIn
  | 0x024 => .ivIn
  | 0x028 => .dataIn
  | 0x02C => .outWords
  | 0x030 => .keyWc
  | 0x034 => .ivWc
  | 0x038 => .dataWc
  | 0x03C => .cap
  | n => if 0x1000 ≤ n ∧ (n - 0x1000) / 4 < Config.outCapWords then .out ((n - 0x1000) / 4) else .unmapped

/-- `OUT_WORDS` (R26): `cdiv(cdiv(OUT_SIZE, 8), 4)` in DONE. -/
def outWords (s : State) : Nat :=
  if s.seq.phase = .done then wordCount s.outSize.toNat else 0

/-- `OUT[k]` (R30): word `k` of the response in DONE, 0 otherwise. -/
def outWindow (s : State) (k : Nat) : Word :=
  if s.seq.phase = .done ∧ k < outWords s then s.outq.getD k 0#32 else 0#32

/-- The value of a register as the host reads it (R21 to R30, R62, R261); a write-only register and an unmapped offset read 0. -/
def readReg (s : State) : Reg → Word
  | .ctrl => s.ctrl
  | .cmd => 0#32
  | .status => (statusCode s.seq.phase).setWidth 32
  | .err => errRegister s
  | .keySize => s.keySize
  | .ivSize => s.ivSize
  | .dataSize => s.dataSize
  | .outSize => if s.seq.phase = .done then s.outSize else 0#32
  | .keyIn => 0#32
  | .ivIn => 0#32
  | .dataIn => 0#32
  | .outWords => BitVec.ofNat 32 (outWords s)
  | .keyWc => BitVec.ofNat 32 s.keyq.length
  | .ivWc => BitVec.ofNat 32 s.ivq.length
  | .dataWc => BitVec.ofNat 32 s.dataq.length
  | .cap => BitVec.ofNat 32 Config.dataCapWords
  | .out k => outWindow s k
  | .unmapped => 0#32

/-- `MemRead(BASE + off, 4)` of an aligned offset (R62). -/
def portRead (s : State) (off : BitVec 32) : Word :=
  readReg s (regAt off)

/-- A write to a register other than CMD while `STATE = IDLE` (R63, R262, R263); read-only registers and unmapped offsets
ignore it. -/
def writeReg (s : State) (v : Word) : Reg → State
  | .ctrl => { s with ctrl := v }
  | .keySize => { s with keySize := v }
  | .ivSize => { s with ivSize := v }
  | .dataSize => { s with dataSize := v }
  | .keyIn => { s with keyq := pushWord Config.keyCapWords s.keyq v }
  | .ivIn => { s with ivq := pushWord Config.ivCapWords s.ivq v }
  | .dataIn => { s with dataq := pushWord Config.dataCapWords s.dataq v }
  | .cmd | .status | .err | .outSize | .outWords | .keyWc | .ivWc | .dataWc | .cap | .out _ | .unmapped => s

/-- `MemWrite(BASE + off, 4, v)` of an aligned offset other than CMD's: ignored outside IDLE (R63, R262). -/
def portWrite (s : State) (off : BitVec 32) (v : Word) : State :=
  if s.seq.phase = .idle then writeReg s v (regAt off) else s

end Sys2Proof.Machine
end

