-- ==== Sys2Proof/Machine/Commands.lean ====
section
/-! DEFINITION. The two commands (spec/45_host_port.md R266, R267). -/
namespace Sys2Proof.Machine

/-- `START` (R266): accepted in IDLE, no effect elsewhere. -/
def execStart (s : State) : Host.Outcome State Fault Refusal :=
  .next (if s.seq.phase = .idle then acceptStart s else s)

/-- `CLEAR` (R267): every piece of state takes its reset value, but in BUSY no effect. -/
def execClear (s : State) : Host.Outcome State Fault Refusal :=
  .next (if s.seq.phase.busy then s else clearAll s)

end Sys2Proof.Machine
end

