-- ==== Sys2Proof/Machine/BitBuffer.lean ====
section
/-! DEFINITION. The BitBuffer unit in the machine (spec/40_bitbuffer.md R120, R121; its functions stand in
Machine/BitValue.lean). -/
namespace Sys2Proof.Machine

/-- The decode of the request's operands into the working registers (R232), or `MalformedInput` (R121). -/
def decodeRequest (m : Mode) (s : State) : Except ErrKind State :=
  (decodeOperands m s.request).map fun o => { s with work := s.work.loadOperands o }

/-- `BB.DECODE` (R121, R232). -/
def execBbDecode (_c : Cipher) (m : Mode) (_p : Scheme) (_d : Direction) (s : State) : Host.Outcome State Fault Refusal :=
  settle s (decodeRequest m s)

/-- `BB.ENCODE` (R120, R240): applied to the output BitValue `(OBUFN, OBUF)`; where that is no valid BitValue, see log entry 21. -/
def execBbEncode (_c : Cipher) (_m : Mode) (_p : Scheme) (_d : Direction) (s : State) : Host.Outcome State Fault Refusal :=
  .next (publish s.work.output s)

end Sys2Proof.Machine
end

