-- ==== Sys2Proof/Machine/Sdes.lean ====
section
/-! DEFINITION. The constants of SDES (spec/42_feistel.md R174 to R177): the default the spec supplies from general knowledge
(PRESUMED, log entry 9), in one record that a statement may replace. -/
namespace Sys2Proof.Machine

/-- `perm(u, n, T)`: position `q` of the `m`-bit result is position `t_q` of `u`, positions numbered 1 from the most
significant bit (R174). -/
def permBits {n : Nat} (m : Nat) (u : BitVec n) (T : List Nat) : BitVec m :=
  BitVec.ofNat m (T.foldl (fun acc t => 2 * acc + (u.getLsbD (n - t)).toNat) 0)

/-- `IP` (R175). -/
def tableIP : List Nat := [2, 6, 3, 1, 4, 8, 5, 7]
/-- `IP⁻¹` (R175). -/
def tableIPInv : List Nat := [4, 1, 3, 5, 7, 2, 8, 6]
/-- `P10` (R176). -/
def tableP10 : List Nat := [3, 5, 2, 7, 4, 10, 1, 9, 8, 6]
/-- `P8` (R176). -/
def tableP8 : List Nat := [6, 3, 7, 4, 8, 5, 10, 9]
/-- `EP` (R177). -/
def tableEP : List Nat := [4, 1, 2, 3, 2, 3, 4, 1]
/-- `P4` (R177). -/
def tableP4 : List Nat := [2, 4, 3, 1]
/-- `S0` (R177). -/
def tableS0 : List (List Nat) := [[1, 0, 3, 2], [3, 2, 1, 0], [0, 2, 1, 3], [3, 1, 3, 2]]
/-- `S1` (R177). -/
def tableS1 : List (List Nat) := [[0, 1, 2, 3], [2, 0, 1, 3], [3, 0, 1, 0], [2, 1, 0, 3]]

/-- `rol5(u, c)` (R176). -/
def rol5 (u : BitVec 5) (c : Nat) : BitVec 5 := u.rotateLeft c

/-- `KS(SDES)(key, i)` (R176): round 0 rotates both halves by 1, round 1 by 2 more. -/
def sdesKeySchedule (key : BitVec 10) (i : Nat) : BitVec 8 :=
  let t : BitVec 10 := permBits 10 key tableP10
  let a1 := rol5 (t.extractLsb' 5 5) 1
  let b1 := rol5 (t.extractLsb' 0 5) 1
  match i with
  | 0 => permBits 8 (a1 ++ b1) tableP8
  | _ => permBits 8 (rol5 a1 2 ++ rol5 b1 2) tableP8

/-- `sbox(S, u)`: row from positions 1 and 4, column from positions 2 and 3 (R177). -/
def sbox (S : List (List Nat)) (u : BitVec 4) : BitVec 2 :=
  BitVec.ofNat 2
    ((S.getD (2 * (u.getLsbD 3).toNat + (u.getLsbD 0).toNat) []).getD
      (2 * (u.getLsbD 2).toNat + (u.getLsbD 1).toNat) 0)

/-- `F(SDES)` (R177). -/
def sdesRoundF (r : BitVec 4) (k : BitVec 8) : BitVec 4 :=
  let t : BitVec 8 := permBits 8 r tableEP ^^^ k
  permBits 4 (sbox tableS0 (t.extractLsb' 4 4) ++ sbox tableS1 (t.extractLsb' 0 4)) tableP4

/-- The SDES record (R6: 2 rounds, subkeys of 8 bits). -/
def sdesParams : CipherParams 4 10 :=
  { subkeyBits := 8
    rounds := 2
    keySchedule := sdesKeySchedule
    roundF := sdesRoundF
    iperm := fun x => permBits 8 x tableIP
    ipermInv := fun z => permBits 8 z tableIPInv }

end Sys2Proof.Machine
end

