-- ==== Sys2Proof/Machine/Feistel.lean ====
section
/-! DEFINITION. The FeistelCipher unit (spec/42_feistel.md): the skeleton R171, the two directions R172, the constants of the
three variants (R175 to R177, R180, R183), the unit in the machine (R170) and the six block operations. -/
namespace Sys2Proof.Machine

/-- The constants of Lucifer, OPEN but for their types and `ROUNDS ≥ 1` (R180). -/
def luciferParams : CipherParams 32 128 :=
  { subkeyBits := Config.luciferSubkeyBits
    rounds := Config.luciferExtraRounds + 1
    keySchedule := Config.luciferKeySchedule
    roundF := Config.luciferRoundF
    iperm := fun x => Config.luciferIperm x
    ipermInv := fun z => Config.luciferIperm.symm z }

/-- The constants of SimpleSP96, OPEN but for their types and `ROUNDS ≥ 1` (R183). -/
def sp96Params : CipherParams 24 96 :=
  { subkeyBits := Config.sp96SubkeyBits
    rounds := Config.sp96ExtraRounds + 1
    keySchedule := Config.sp96KeySchedule
    roundF := Config.sp96RoundF
    iperm := fun x => Config.sp96Iperm x
    ipermInv := fun z => Config.sp96Iperm.symm z }

/-- The constants of this machine (R186: chosen once for the whole model). -/
def suite : Suite := ⟨sdesParams, luciferParams, sp96Params⟩

/-- `SUBKEY[0 .. r-1]` (R172). -/
def subkeys {h k : Nat} (p : CipherParams h k) (key : BitVec k) : List (BitVec p.subkeyBits) :=
  (List.range p.rounds).map (p.keySchedule key)

/-- The subkeys in the order a direction uses them (R172). -/
def subkeysFor {h k : Nat} (p : CipherParams h k) (d : Direction) (key : BitVec k) : List (BitVec p.subkeyBits) :=
  match d with
  | .enc => subkeys p key
  | .dec => (subkeys p key).reverse

/-- The rounds `(L, R) <- (R, L ⊕ F(R, sub[i]))` (R171). -/
def feistelRounds {h s : Nat} (F : BitVec h → BitVec s → BitVec h) (subs : List (BitVec s)) (lr : BitVec h × BitVec h) :
    BitVec h × BitVec h :=
  subs.foldl (fun q k => (q.2, q.1 ^^^ F q.2 k)) lr

/-- The halves after the last round, `L` the high half of `P(x)` at the start (R171). -/
def feistelHalves {h k : Nat} (p : CipherParams h k) (subs : List (BitVec p.subkeyBits)) (x : BitVec (h + h)) :
    BitVec h × BitVec h :=
  feistelRounds p.roundF subs ((p.iperm x).extractLsb' h h, (p.iperm x).extractLsb' 0 h)

/-- `feistel(v, sub, x)`: the swap of the last round is undone by the output `R ++ L` (R171, D8). -/
def feistel {h k : Nat} (p : CipherParams h k) (subs : List (BitVec p.subkeyBits)) (x : BitVec (h + h)) : BitVec (h + h) :=
  p.ipermInv ((feistelHalves p subs x).2 ++ (feistelHalves p subs x).1)

/-- One block through one variant: `encrypt_block` or `decrypt_block` (R172). -/
def variantBlock {h k : Nat} (p : CipherParams h k) (d : Direction) (key : BitVec k) (x : BitVec (h + h)) : BitVec (h + h) :=
  feistel p (subkeysFor p d key) x

/-- `encrypt_block(v, key, x)` or `decrypt_block(v, key, x)` (R170, R172, R187). -/
def cipherBlock (S : Suite) (c : Cipher) (d : Direction) (key : BitVec (keyBits c)) (x : BitVec (blockBits c)) :
    BitVec (blockBits c) :=
  match c with
  | .sdes => variantBlock (h := 4) S.sdes d key x
  | .lucifer => variantBlock (h := 32) S.lucifer d key x
  | .sp96 => variantBlock (h := 24) S.sp96 d key x

/-- The subkeys of this machine's variant, as `SUBKEY[]` holds them (R33, R172). -/
def scheduleKey (c : Cipher) (key : BitVec (keyBits c)) : Subkeys :=
  match c with
  | .sdes => .sdes (subkeys sdesParams key)
  | .lucifer => .lucifer (subkeys luciferParams key)
  | .sp96 => .sp96 (subkeys sp96Params key)

/-- `L` and `R` after the last round, each in the low `h` bits of its register (R33, R171). -/
def halvesAfter (c : Cipher) (d : Direction) (key : BitVec (keyBits c)) (x : BitVec (blockBits c)) : BitVec 32 × BitVec 32 :=
  match c with
  | .sdes =>
    let q := feistelHalves (h := 4) sdesParams (subkeysFor sdesParams d key) x
    (q.1.setWidth 32, q.2.setWidth 32)
  | .lucifer => feistelHalves (h := 32) luciferParams (subkeysFor luciferParams d key) x
  | .sp96 =>
    let q := feistelHalves (h := 24) sp96Params (subkeysFor sp96Params d key) x
    (q.1.setWidth 32, q.2.setWidth 32)

/-- The key at the unit's port: the low `K(v)` bits of `KEYV` (R170). -/
def Work.key (c : Cipher) (w : Work) : BitVec (keyBits c) := w.keyV.setWidth (keyBits c)

/-- The block at the unit's port (R170, log entry 4). -/
def Work.block (c : Cipher) (w : Work) : BitVec (blockBits c) := w.blockPort.setWidth (blockBits c)

/-- A block put on the unit's port (R170, log entry 4). -/
def State.putOnPort (c : Cipher) (x : BitVec (blockBits c)) (s : State) : State :=
  { s with work := { s.work with blockPort := x.setWidth 64 } }

/-- The registers the unit writes for one block (R33, R171, R172): `SUBKEY[]`, `L`, `R` and the result at its port. -/
def Work.runCipher (c : Cipher) (d : Direction) (w : Work) : Work :=
  { w with
    subkey := scheduleKey c (w.key c)
    l := (halvesAfter c d (w.key c) (w.block c)).1
    r := (halvesAfter c d (w.key c) (w.block c)).2
    blockPort := (cipherBlock suite c d (w.key c) (w.block c)).setWidth 64 }

/-- The cipher unit on the block at its port; a key that is not `K(v)` bits wide is `InvalidKeyOrBlockSize` at the unit's
boundary (R170, R281 a). A block is `B(v)` bits wide by the port's type. -/
def cipherUnit (c : Cipher) (d : Direction) (s : State) : Except ErrKind State :=
  if s.work.keyN.toNat = keyBits c then .ok { s with work := s.work.runCipher c d }
  else .error .invalidKeyOrBlockSize

/-- `ENCBLK.SDES` (R178). -/
def execEncblkSdes (_d : Direction) (_m : Mode) (_p : Scheme) (s : State) : Host.Outcome State Fault Refusal :=
  settle s (cipherUnit .sdes .enc s)

/-- `ENCBLK.LUCIFER` (R181). -/
def execEncblkLucifer (_d : Direction) (_m : Mode) (_p : Scheme) (s : State) : Host.Outcome State Fault Refusal :=
  settle s (cipherUnit .lucifer .enc s)

/-- `ENCBLK.SP96` (R184). -/
def execEncblkSp96 (_d : Direction) (_m : Mode) (_p : Scheme) (s : State) : Host.Outcome State Fault Refusal :=
  settle s (cipherUnit .sp96 .enc s)

/-- `DECBLK.SDES` (R179). -/
def execDecblkSdes (_m : Mode) (_p : Scheme) (s : State) : Host.Outcome State Fault Refusal :=
  settle s (cipherUnit .sdes .dec s)

/-- `DECBLK.LUCIFER` (R182). -/
def execDecblkLucifer (_m : Mode) (_p : Scheme) (s : State) : Host.Outcome State Fault Refusal :=
  settle s (cipherUnit .lucifer .dec s)

/-- `DECBLK.SP96` (R185). -/
def execDecblkSp96 (_m : Mode) (_p : Scheme) (s : State) : Host.Outcome State Fault Refusal :=
  settle s (cipherUnit .sp96 .dec s)

end Sys2Proof.Machine
end

