-- ==== Sys2Proof/Machine/Modes.lean ====
section
/-! DEFINITION. The mode controller (spec/43_modes.md): the modes as functions on block sequences, for any block function, and
the six operations on the block the sequencer is at (R200, R246). -/
namespace Sys2Proof.Machine

/-- `ECB`: `Y[i] = E(X[i])` (R202), or `D` for `E` (R205). -/
def ecbBlocks {B : Nat} (E : BitVec B → BitVec B) (xs : List (BitVec B)) : List (BitVec B) :=
  xs.map E

/-- `CBC.ENC` from the chaining value `c` (R203). -/
def cbcEncBlocks {B : Nat} (E : BitVec B → BitVec B) : BitVec B → List (BitVec B) → List (BitVec B)
  | _, [] => []
  | c, x :: xs => E (x ^^^ c) :: cbcEncBlocks E (E (x ^^^ c)) xs

/-- `CBC.DEC` from the chaining value `c` (R204). -/
def cbcDecBlocks {B : Nat} (D : BitVec B → BitVec B) : BitVec B → List (BitVec B) → List (BitVec B)
  | _, [] => []
  | c, x :: xs => (D x ^^^ c) :: cbcDecBlocks D x xs

/-- `CTR` in either direction, from the counter value `c` of width `w` (R206, R207, R209): the counter is zero-extended
into the block and wraps at `2^w`. -/
def ctrBlocks {B w : Nat} (E : BitVec B → BitVec B) : BitVec w → List (BitVec B) → List (BitVec B)
  | _, [] => []
  | c, x :: xs => (x ^^^ E (c.setWidth B)) :: ctrBlocks E (c + 1#w) xs

/-- The IV widths a mode accepts (R201, R203, R206, R234). -/
def ivWidthOk (m : Mode) (c : Cipher) (n : Nat) : Bool :=
  match m with
  | .ecb => true
  | .cbc => n == blockBits c
  | .ctr => decide (1 ≤ n) && decide (n ≤ blockBits c)

/-- `<mode>.<direction>(v, key, iv, data)` on a BitValue of whole blocks (R201), for every choice `S` of the cipher
constants. -/
def modeValue (S : Suite) (m : Mode) (d : Direction) (c : Cipher) (key iv data : BitValue) : BitValue :=
  let k := BitVec.ofNat (keyBits c) key.val
  let E := cipherBlock S c .enc k
  let D := cipherBlock S c .dec k
  let xs := sliceBlocks (blockBits c) data
  match m, d with
  | .ecb, .enc => joinBlocks (ecbBlocks E xs)
  | .ecb, .dec => joinBlocks (ecbBlocks D xs)
  | .cbc, .enc => joinBlocks (cbcEncBlocks E (BitVec.ofNat _ iv.val) xs)
  | .cbc, .dec => joinBlocks (cbcDecBlocks D (BitVec.ofNat _ iv.val) xs)
  | .ctr, _ => joinBlocks (ctrBlocks E (BitVec.ofNat iv.len iv.val) xs)

/-- The cipher unit on a block the mode controller hands it (R170, R200). -/
def throughCipher (c : Cipher) (d : Direction) (x : BitVec (blockBits c)) (s : State) : Except ErrKind State :=
  cipherUnit c d (s.putOnPort c x)

/-- `CHAIN`, its low `B` bits (R33). -/
def Work.chainBlock (c : Cipher) (w : Work) : BitVec (blockBits c) := w.chain.setWidth (blockBits c)

/-- `CHAIN <- y` (R203, R204). -/
def State.setChain (c : Cipher) (y : BitVec (blockBits c)) (s : State) : State :=
  { s with work := { s.work with chain := y.setWidth 64 } }

/-- The counter value: the low `w = CTRW` bits of `CTRV` (R206). DESIGN CHOICE (log entry 20): `CTRW` alone is its width, also where
it is 0, above `B` or not `IVN`, which no run has. -/
def Work.counter (w : Work) : Nat := w.ctrv.toNat % 2 ^ w.ctrw.toNat

/-- `zext_B(CTRV)` (R206); a counter wider than `B` bits is cut to its low `B` bits (DESIGN CHOICE, log entry 20). -/
def Work.counterBlock (c : Cipher) (w : Work) : BitVec (blockBits c) := BitVec.ofNat (blockBits c) w.counter

/-- `CTRV <- CTRV +_w 1` (R206). -/
def State.stepCounter (s : State) : State :=
  { s with work := { s.work with ctrv := BitVec.ofNat 64 ((s.work.counter + 1) % 2 ^ s.work.ctrw.toNat) } }

/-- The mode unit's own check of the IV width at its boundary (R203, R207, R281 b). DESIGN CHOICE (log entry 17): it comes before
the cipher unit's check of the key width, where both would fail. -/
def withIv (m : Mode) (c : Cipher) (s : State) (k : Except ErrKind State) : Except ErrKind State :=
  if ivWidthOk m c s.work.ivN.toNat then k else .error .invalidIVSize

/-- One block of ECB, in the direction `d` (R202, R205). DESIGN CHOICE (log entry 18), here and in the steps of CBC and CTR: the
block is processed whether or not `SEQ.BLK` is below `NBLK`. -/
def ecbStep (c : Cipher) (d : Direction) (s : State) : Except ErrKind State :=
  (throughCipher c d (s.inputBlock c) s).map fun t => t.storeBlock c (t.work.block c)

/-- One block of CBC encryption (R203): `Y[i] = E(X[i] ⊕ CHAIN); CHAIN = Y[i]`. -/
def cbcEncStep (c : Cipher) (s : State) : Except ErrKind State :=
  withIv .cbc c s <|
    (throughCipher c .enc (s.inputBlock c ^^^ s.work.chainBlock c) s).map fun t =>
      (t.storeBlock c (t.work.block c)).setChain c (t.work.block c)

/-- One block of CBC decryption (R204): `Y[i] = D(X[i]) ⊕ CHAIN; CHAIN = X[i]`. -/
def cbcDecStep (c : Cipher) (s : State) : Except ErrKind State :=
  withIv .cbc c s <|
    (throughCipher c .dec (s.inputBlock c) s).map fun t =>
      (t.storeBlock c (t.work.block c ^^^ s.work.chainBlock c)).setChain c (s.inputBlock c)

/-- One block of CTR, with `encrypt_block` whatever the request's direction (R207, R209). DESIGN CHOICE (log entry 20): the width
checked is `IVN`, the width counted with is `CTRW`; in every run the two are equal. -/
def ctrStep (c : Cipher) (s : State) : Except ErrKind State :=
  withIv .ctr c s <|
    (throughCipher c .enc (s.work.counterBlock c) s).map fun t =>
      (t.storeBlock c (s.inputBlock c ^^^ t.work.block c)).stepCounter

/-- `ECB.ENC` (R202) on block `SEQ.BLK`. -/
def execEcbEnc (c : Cipher) (_p : Scheme) (s : State) : Host.Outcome State Fault Refusal :=
  settle s (ecbStep c .enc s)

/-- `ECB.DEC` (R205) on block `SEQ.BLK`. -/
def execEcbDec (c : Cipher) (_p : Scheme) (s : State) : Host.Outcome State Fault Refusal :=
  settle s (ecbStep c .dec s)

/-- `CBC.ENC` (R203) on block `SEQ.BLK`. -/
def execCbcEnc (c : Cipher) (_p : Scheme) (s : State) : Host.Outcome State Fault Refusal :=
  settle s (cbcEncStep c s)

/-- `CBC.DEC` (R204) on block `SEQ.BLK`. -/
def execCbcDec (c : Cipher) (_p : Scheme) (s : State) : Host.Outcome State Fault Refusal :=
  settle s (cbcDecStep c s)

/-- `CTR.ENC` (R207) on block `SEQ.BLK`. -/
def execCtrEnc (c : Cipher) (_p : Scheme) (s : State) : Host.Outcome State Fault Refusal :=
  settle s (ctrStep c s)

/-- `CTR.DEC` (R209) on block `SEQ.BLK`: the same operation, never `decrypt_block`. -/
def execCtrDec (c : Cipher) (_p : Scheme) (s : State) : Host.Outcome State Fault Refusal :=
  settle s (ctrStep c s)

end Sys2Proof.Machine
end

