-- ==== Sys2Proof/Machine/Padding.lean ====
section
/-! DEFINITION. The padding engine (spec/41_padding.md): the eight functions, and the eight operations on `IBUF` and `OBUF`. -/
namespace Sys2Proof.Machine

/-- `pad_zero(bytes, bs)` (R141). -/
def padZero (bs : Nat) (bytes : List Byte) : List Byte :=
  bytes ++ List.replicate ((bs - bytes.length % bs) % bs) 0#8

/-- `unpad_zero(bytes, bs)` (R142): every trailing zero byte is stripped. -/
def unpadZero (bytes : List Byte) : List Byte :=
  (bytes.reverse.dropWhile (· == 0#8)).reverse

/-- The pad length `k = bs - (len mod bs)`, from 1 to `bs` (R143, R145). -/
def padLength (bs len : Nat) : Nat := bs - len % bs

/-- `pad_x923(bytes, bs)` (R143). -/
def padX923 (bs : Nat) (bytes : List Byte) : List Byte :=
  bytes ++ List.replicate (padLength bs bytes.length - 1) 0#8 ++ [BitVec.ofNat 8 (padLength bs bytes.length)]

/-- `pad_pkcs7(bytes, bs)` (R145). -/
def padPkcs7 (bs : Nat) (bytes : List Byte) : List Byte :=
  bytes ++ List.replicate (padLength bs bytes.length) (BitVec.ofNat 8 (padLength bs bytes.length))

/-- The last byte, `bytes[len - 1]`, as a number (R144, R146). -/
def lastByte (bytes : List Byte) : Nat := (bytes.getLastD 0#8).toNat

/-- The checks R144 and R146 share: not empty, whole blocks, and a pad length from 1 to `bs`. -/
def padLengthOk (bs : Nat) (bytes : List Byte) : Bool :=
  bytes.length != 0 && bytes.length % bs == 0 && lastByte bytes != 0 && decide (lastByte bytes ≤ bs)

/-- `unpad_x923(bytes, bs)`, or nothing where it raises `PaddingError` (R144). -/
def unpadX923 (bs : Nat) (bytes : List Byte) : Option (List Byte) :=
  if padLengthOk bs bytes && ((bytes.drop (bytes.length - lastByte bytes)).dropLast).all (· == 0#8) then
    some (bytes.take (bytes.length - lastByte bytes))
  else none

/-- `unpad_pkcs7(bytes, bs)`, or nothing where it raises `PaddingError` (R146). -/
def unpadPkcs7 (bs : Nat) (bytes : List Byte) : Option (List Byte) :=
  if padLengthOk bs bytes && (bytes.drop (bytes.length - lastByte bytes)).all (·.toNat == lastByte bytes) then
    some (bytes.take (bytes.length - lastByte bytes))
  else none

/-- `pad_rfc1321((n, x), B)`: bit `n` set, zeros up to the next multiple of `B` strictly above `n` (R147). -/
def padRfc1321 (B : Nat) (v : BitValue) : BitValue :=
  ⟨(v.len / B + 1) * B, v.val + 2 ^ v.len⟩

/-- The highest set bit of `x` among the `k` bits from bit `lo` (R148: the scan from `n - 1` down to `n - B`). -/
def scanMarker (x lo : Nat) : Nat → Option Nat
  | 0 => none
  | k + 1 => if x.testBit (lo + k) then some (lo + k) else scanMarker x lo k

/-- `unpad_rfc1321((n, x), B)`, or nothing where it raises `PaddingError` (R148). -/
def unpadRfc1321 (B : Nat) (v : BitValue) : Option BitValue :=
  if v.len = 0 ∨ v.len % B ≠ 0 then none
  else (scanMarker v.val (v.len - B) B).map fun i => ⟨i, v.val % 2 ^ i⟩

/-- `PAD.<p>` on a BitValue (R140, R237): the byte-granular schemes on its bytes, RFC_1321 on its bits. -/
def padValue (p : Scheme) (c : Cipher) (v : BitValue) : BitValue :=
  match p with
  | .zero => .ofBytes (padZero (blockBytes c) v.bytes)
  | .x923 => .ofBytes (padX923 (blockBytes c) v.bytes)
  | .pkcs7 => .ofBytes (padPkcs7 (blockBytes c) v.bytes)
  | .rfc1321 => padRfc1321 (blockBits c) v

/-- `UNPAD.<p>` on a BitValue (R140, R238), or nothing where it raises `PaddingError`. -/
def unpadValue (p : Scheme) (c : Cipher) (v : BitValue) : Option BitValue :=
  match p with
  | .zero => some (.ofBytes (unpadZero v.bytes))
  | .x923 => (unpadX923 (blockBytes c) v.bytes).map .ofBytes
  | .pkcs7 => (unpadPkcs7 (blockBytes c) v.bytes).map .ofBytes
  | .rfc1321 => unpadRfc1321 (blockBits c) v

/-- A `pad` operation in the machine: `IBUF <- padded` (R246). -/
def padInput (p : Scheme) (c : Cipher) (s : State) : State :=
  { s with work := s.work.setInput (padValue p c s.work.input) }

/-- A byte-granular `pad` operation: an operand that is not a whole number of bytes has no defined result at the unit's own
boundary and is refused (R140, U18). -/
def padBytesInput (p : Scheme) (c : Cipher) (s : State) : Host.Outcome State Fault Refusal :=
  if s.work.ibufN.toNat % 8 = 0 then .next (padInput p c s) else .refused .padOperandNotBytes

/-- An `unpad` operation in the machine: `OBUF <- unpadded`, or `PaddingError` (R246). -/
def unpadOutput (p : Scheme) (c : Cipher) (s : State) : Except ErrKind State :=
  match unpadValue p c s.work.output with
  | some v => .ok { s with work := s.work.setOutput v }
  | none => .error .paddingError

/-- `PAD.ZERO` (R141). -/
def execPadZero (c : Cipher) (_m : Mode) (s : State) : Host.Outcome State Fault Refusal :=
  padBytesInput .zero c s

/-- `PAD.X923` (R143). -/
def execPadX923 (c : Cipher) (_m : Mode) (s : State) : Host.Outcome State Fault Refusal :=
  padBytesInput .x923 c s

/-- `PAD.PKCS7` (R145). -/
def execPadPkcs7 (c : Cipher) (_m : Mode) (s : State) : Host.Outcome State Fault Refusal :=
  padBytesInput .pkcs7 c s

/-- `PAD.RFC1321` (R147). -/
def execPadRfc1321 (c : Cipher) (_m : Mode) (s : State) : Host.Outcome State Fault Refusal :=
  .next (padInput .rfc1321 c s)

/-- `UNPAD.ZERO` (R142): never an error. -/
def execUnpadZero (c : Cipher) (_m : Mode) (s : State) : Host.Outcome State Fault Refusal :=
  settle s (unpadOutput .zero c s)

/-- `UNPAD.X923` (R144). -/
def execUnpadX923 (c : Cipher) (_m : Mode) (s : State) : Host.Outcome State Fault Refusal :=
  settle s (unpadOutput .x923 c s)

/-- `UNPAD.PKCS7` (R146). -/
def execUnpadPkcs7 (c : Cipher) (_m : Mode) (s : State) : Host.Outcome State Fault Refusal :=
  settle s (unpadOutput .pkcs7 c s)

/-- `UNPAD.RFC1321` (R148). -/
def execUnpadRfc1321 (c : Cipher) (_m : Mode) (s : State) : Host.Outcome State Fault Refusal :=
  settle s (unpadOutput .rfc1321 c s)

end Sys2Proof.Machine
end

