-- ==== Sys2Proof/Machine/Pipeline.lean ====
section
/-! DEFINITION. The Pipeline (spec/44_pipeline.md): validation R231 to R236, the request as one function R245, and the two
top-level operations R237, R238. -/
namespace Sys2Proof.Machine

/-- Whether a scheme works on bytes (R140). -/
def byteGranular : Scheme → Bool
  | .zero | .x923 | .pkcs7 => true
  | .rfc1321 => false

/-- The data width a direction accepts: whole bytes for a byte-granular scheme when encrypting (R235), whole blocks when
decrypting (R236). -/
def dataWidthError (k : Control) (n : Nat) : Option ErrKind :=
  match k.dir with
  | .enc => if byteGranular k.padding && n % 8 != 0 then some .unsupportedConfiguration else none
  | .dec => if n % blockBits k.cipher != 0 then some .invalidKeyOrBlockSize else none

/-- The width checks on the decoded lengths in their order: key (R233), IV (R234), data (R235, R236); the first that
fails. -/
def widthError (k : Control) (keyN ivN dataN : Nat) : Option ErrKind :=
  if keyN ≠ keyBits k.cipher then some .invalidKeyOrBlockSize
  else if ivWidthOk k.mode k.cipher ivN = false then some .unsupportedConfiguration
  else dataWidthError k dataN

/-- Phase VALIDATE after a legal control word (R232 to R236). -/
def validate (k : Control) (q : Request) : Except ErrKind Operands :=
  match decodeOperands k.mode q with
  | .error e => .error e
  | .ok o =>
    match widthError k o.key.len o.iv.len o.data.len with
    | some e => .error e
    | none => .ok o

/-- The transform of validated operands: pad and then the mode (R237), or the mode and then unpad (R238). -/
def transform (S : Suite) (k : Control) (o : Operands) : Except ErrKind BitValue :=
  match k.dir with
  | .enc => .ok (modeValue S k.mode .enc k.cipher o.key o.iv (padValue k.padding k.cipher o.data))
  | .dec =>
    match unpadValue k.padding k.cipher (modeValue S k.mode .dec k.cipher o.key o.iv o.data) with
    | some v => .ok v
    | none => .error .paddingError

/-- A request under a legal control word (R237, R238). -/
def runLegal (S : Suite) (k : Control) (q : Request) : Except ErrKind BitValue :=
  match validate k q with
  | .error e => .error e
  | .ok o => transform S k o

/-- `run(params, c, key, iv, data)` (R245), the control word checked first (R231). -/
def run (S : Suite) (c : Word) (q : Request) : Except ErrKind BitValue :=
  match decodeControl c with
  | .error _ => .error .unsupportedConfiguration
  | .ok k => runLegal S k q

/-- The final state of a request (R245). -/
def finishRequest (s : State) (r : Except ErrKind BitValue) : State :=
  match r with
  | .ok out => complete (publish out s)
  | .error e => raise e s

/-- `RUN.ENC` (R237): the whole request, to DONE or ERROR. -/
def execRunEnc (c : Cipher) (m : Mode) (p : Scheme) (s : State) : Host.Outcome State Fault Refusal :=
  .next (finishRequest s (runLegal suite ⟨c, m, p, .enc⟩ s.request))

/-- `RUN.DEC` (R238): the whole request, to DONE or ERROR. -/
def execRunDec (c : Cipher) (m : Mode) (p : Scheme) (s : State) : Host.Outcome State Fault Refusal :=
  .next (finishRequest s (runLegal suite ⟨c, m, p, .dec⟩ s.request))

end Sys2Proof.Machine
end

