-- ==== Sys2Proof/Machine/Dispatch.lean ====
section
/-! DEFINITION. The meaning of every instruction, one arm each. -/
namespace Sys2Proof.Machine

def exec (i : Instr) (s : State) : Host.Outcome State Fault Refusal :=
  match i with
  | .start => Sys2Proof.Machine.execStart s
  | .clear => Sys2Proof.Machine.execClear s
  | .runEnc c m p => Sys2Proof.Machine.execRunEnc c m p s
  | .runDec c m p => Sys2Proof.Machine.execRunDec c m p s
  | .bbDecode c m p d => Sys2Proof.Machine.execBbDecode c m p d s
  | .bbEncode c m p d => Sys2Proof.Machine.execBbEncode c m p d s
  | .padZero c m => Sys2Proof.Machine.execPadZero c m s
  | .padX923 c m => Sys2Proof.Machine.execPadX923 c m s
  | .padPkcs7 c m => Sys2Proof.Machine.execPadPkcs7 c m s
  | .padRfc1321 c m => Sys2Proof.Machine.execPadRfc1321 c m s
  | .unpadZero c m => Sys2Proof.Machine.execUnpadZero c m s
  | .unpadX923 c m => Sys2Proof.Machine.execUnpadX923 c m s
  | .unpadPkcs7 c m => Sys2Proof.Machine.execUnpadPkcs7 c m s
  | .unpadRfc1321 c m => Sys2Proof.Machine.execUnpadRfc1321 c m s
  | .ecbEnc c p => Sys2Proof.Machine.execEcbEnc c p s
  | .cbcEnc c p => Sys2Proof.Machine.execCbcEnc c p s
  | .ctrEnc c p => Sys2Proof.Machine.execCtrEnc c p s
  | .ecbDec c p => Sys2Proof.Machine.execEcbDec c p s
  | .cbcDec c p => Sys2Proof.Machine.execCbcDec c p s
  | .ctrDec c p => Sys2Proof.Machine.execCtrDec c p s
  | .encblkSdes d m p => Sys2Proof.Machine.execEncblkSdes d m p s
  | .encblkLucifer d m p => Sys2Proof.Machine.execEncblkLucifer d m p s
  | .encblkSp96 d m p => Sys2Proof.Machine.execEncblkSp96 d m p s
  | .decblkSdes m p => Sys2Proof.Machine.execDecblkSdes m p s
  | .decblkLucifer m p => Sys2Proof.Machine.execDecblkLucifer m p s
  | .decblkSp96 m p => Sys2Proof.Machine.execDecblkSp96 m p s

end Sys2Proof.Machine
end

