-- ==== Sys2Proof/Machine/Sequencer.lean ====
section
/-! DEFINITION. The sequencer (spec/44_pipeline.md R246, spec/10_state.md R40, R41): which instruction a step fetches, and where
`SEQ` goes around it. -/
namespace Sys2Proof.Machine

/-- The reader of `CTRLL` in each working phase (R93, R246); no phase but these has a step. DESIGN CHOICE (log entry 22): the phases
PAD and UNPAD share the padding reader, so that in a phase against `DO_ENC`, which no run has, `DO_ENC` selects. -/
def phaseReader : Phase → Option Reader
  | .validate => some .bbDecoder
  | .pad => some .padding
  | .mode => some .modes
  | .unpad => some .padding
  | .encode => some .bbEncoder
  | .idle | .done | .error => none

/-- `CTRV`, `CTRW` or `CHAIN` at the entry of phase MODE (R203, R204, R206, R246). -/
def Work.initMode (k : Control) (w : Work) : Work :=
  match k.mode with
  | .ecb => w
  | .cbc => { w with chain := w.ivV.setWidth 64 }
  | .ctr => { w with ctrv := w.ivV.setWidth 64, ctrw := w.ivN.setWidth 7 }

/-- The phase after the last block (R246). -/
def afterMode : Direction → Phase
  | .enc => .encode
  | .dec => .unpad

/-- The entry of phase MODE, skipped with `OBUF` empty where there is no block (R33, R41, R246). -/
def enterMode (k : Control) (s : State) : State :=
  let n := BitVec.ofNat 32 (s.work.ibufN.toNat / blockBits k.cipher)
  let w := { s.work with nblk := n, obuf := 0, obufN := 0#32 }
  if n = 0#32 then { s with work := w, seq := ⟨afterMode k.dir, 0#32⟩ }
  else { s with
    work := { w.initMode k with subkey := scheduleKey k.cipher (s.work.key k.cipher) }
    seq := ⟨.mode, 0#32⟩ }

/-- The end of phase VALIDATE: the width checks (R233 to R236), then PAD or MODE (R246). -/
def leaveValidate (k : Control) (s : State) : State :=
  match widthError k s.work.keyN.toNat s.work.ivN.toNat s.work.ibufN.toNat with
  | some e => raise e s
  | none =>
    match k.dir with
    | .enc => { s with seq := ⟨.pad, 0#32⟩ }
    | .dec => enterMode k s

/-- The end of a step of phase MODE: the next block, or the phase after the last (R246). DESIGN CHOICE (log entry 22): a block above
the last, which no run has, ends the phase too. -/
def leaveBlock (k : Control) (s : State) : State :=
  if s.seq.blk.toNat + 1 < s.work.nblk.toNat then { s with seq := ⟨.mode, s.seq.blk + 1#32⟩ }
  else { s with seq := ⟨afterMode k.dir, 0#32⟩ }

/-- Where `SEQ` goes after the unit operation of a phase (R246); an error already stands at `(ERROR, 0)` (R284).
DESIGN CHOICE (log entry 22): in PAD and UNPAD it goes by the phase, whatever `DO_ENC` is. -/
def advance (k : Control) (s : State) : State :=
  match s.seq.phase with
  | .validate => leaveValidate k s
  | .pad => enterMode k s
  | .mode => leaveBlock k s
  | .unpad => { s with seq := ⟨.encode, 0#32⟩ }
  | .encode => complete s
  | .idle | .done | .error => s

/-- `advance` on the outcome of an instruction. -/
def advanceOutcome (k : Control) (o : Host.Outcome State Fault Refusal) : Host.Outcome State Fault Refusal :=
  match o with
  | .next t => .next (advance k t)
  | .fault f => .fault f
  | .refused r => .refused r

/-- The instruction a reader finds in `CTRLL` (R72, R93). -/
def fetch (r : Reader) (s : State) : Except DecodeError Instr :=
  decodeWord r s.work.ctrll

/-- One step of the sequencer (R246): the unit operation that the phase reads in `CTRLL`, then `SEQ` moves; a reserved
control word is `UnsupportedConfiguration` (R231). Outside BUSY the sequencer has no step (R299). -/
def sequencerStep (s : State) : Host.Outcome State Fault Refusal :=
  match phaseReader s.seq.phase with
  | none => .next s
  | some r =>
    match fetch r s, decodeControl s.work.ctrll with
    | .ok i, .ok k => advanceOutcome k (exec i s)
    | _, _ => .next (raise .unsupportedConfiguration s)

/-- The accepted request as one step (R245, R326): `RUN.ENC` or `RUN.DEC` where the request is about to be validated;
elsewhere one step of the sequencer. -/
def requestStep (s : State) : Host.Outcome State Fault Refusal :=
  if s.seq.phase = .validate then
    match fetch .pipeline s with
    | .ok i => exec i s
    | .error _ => .next (raise .unsupportedConfiguration s)
  else sequencerStep s

/-- A word written to `CMD` (R63, R95): the command it is, and no effect where it is none (R268). -/
def commandWrite (v : Word) (s : State) : Host.Outcome State Fault Refusal :=
  match decodeWord .command v with
  | .ok i => exec i s
  | .error _ => .next s

/-- Whether an access is one the port carries: 4 bytes at a multiple of 4 (R64, R66). -/
def accessRefusal (off : BitVec 32) (bytes : Nat) : Option Refusal :=
  if bytes ≠ 4 then some .notWordAccess
  else if off.toNat % 4 ≠ 0 then some .misalignedAccess
  else none

/-- A host read: the port returns a word and the core does not change (R62). -/
def hostRead (off : BitVec 32) (bytes : Nat) (s : State) : Host.Outcome State Fault Refusal :=
  match accessRefusal off bytes with
  | some r => .refused r
  | none => .next { s with replies := s.replies ++ [portRead s off] }

/-- A host write (R63): a command at CMD, a register elsewhere. -/
def hostWrite (off : BitVec 32) (bytes : Nat) (v : Word) (s : State) : Host.Outcome State Fault Refusal :=
  match accessRefusal off bytes with
  | some r => .refused r
  | none => if regAt off = .cmd then commandWrite v s else .next (portWrite s off v)

/-- One event from outside (R20, R260, R310). -/
def handle (e : Event) (s : State) : Host.Outcome State Fault Refusal :=
  match e with
  | .read off bytes => hostRead off bytes s
  | .write off bytes v => hostWrite off bytes v s
  | .reset => .next (clearAll s)
  | .sequencerStep => sequencerStep s
  | .runRequest => requestStep s

/-- One step of the machine: the next event takes effect; with none to come the sequencer goes on (R326). -/
def machineStep (s : State) : Host.Outcome State Fault Refusal :=
  match s.inbox with
  | [] => sequencerStep s
  | e :: rest => handle e { s with inbox := rest }

/-- A word placed where the next step fetches it: a command as the next write to `CMD`; a control word in `CTRLL`, the
request about to be validated and the sequencer scheduled for the whole of it. -/
def placeWord (w : Word) (s : State) : State :=
  match tableReader w with
  | .command => { s with inbox := .write 4#32 4 w :: s.inbox }
  | _ => { s with work := { s.work with ctrll := w }, seq := ⟨.validate, 0#32⟩, inbox := .runRequest :: s.inbox }

end Sys2Proof.Machine
end

