-- ==== Sys2Proof/Machine/Step.lean ====
section
/-! DEFINITION. The step of the machine, and the placing of one instruction. -/
namespace Sys2Proof.Machine

/-- One step (Machine/Sequencer.lean). -/
def step (s : State) : Host.Outcome State Fault Refusal := machineStep s

/-- `s` with the instruction whose bits are `w` placed where `step` fetches its next instruction. -/
def State.withFetchWord (s : State) (nbits w : Nat) : State := placeWord (tableWord nbits w) s

end Sys2Proof.Machine
end

