-- ==== Sys2Proof/Safety.lean ====
section
/-! DEFINITION. The terms the claims use: the invariant of the machine, the accesses the port carries, and the length of a
request in sequencer steps. -/
namespace Sys2Proof.Machine

/-- The queues hold at most their capacities (R28, R31). -/
structure State.QueuesFit (s : State) : Prop where
  key : s.keyq.length ≤ Config.keyCapWords
  iv : s.ivq.length ≤ Config.ivCapWords
  data : s.dataq.length ≤ Config.dataCapWords

/-- What `SEQ.PHASE` says of the rest of the state outside a request's own registers. -/
structure State.PhaseOk (s : State) : Prop where
  /-- the working registers are zero outside BUSY (R34) -/
  work : s.seq.phase.busy = false → s.work = Work.zero
  /-- `BLK` is 0 outside phase MODE (R40) -/
  blkZero : s.seq.phase ≠ .mode → s.seq.blk = 0#32
  /-- `0 ≤ BLK < NBLK` in phase MODE (R40) -/
  blkRange : s.seq.phase = .mode → s.seq.blk.toNat < s.work.nblk.toNat
  /-- there is no response outside DONE (R26, R32, R284) -/
  noResponse : s.seq.phase ≠ .done → s.outq = [] ∧ s.outSize = 0#32
  /-- in DONE the response is as long as its size says and fits the output buffer (R26, R32, R248) -/
  response : s.seq.phase = .done → s.outq.length = wordCount s.outSize.toNat ∧ s.outq.length ≤ Config.outCapWords
  /-- `ERR.CODE` is 0 outside ERROR (R24) -/
  noError : s.seq.phase ≠ .error → s.errCode = 0#8
  /-- in ERROR `ERR.CODE` is one of 1 to 4 (R280, R282) -/
  error : s.seq.phase = .error → 1 ≤ s.errCode.toNat ∧ s.errCode.toNat ≤ 4

/-- The longest BitValue of a request in bits: the data queue full and one block of padding (R32). -/
def maxBits : Nat := 32 * Config.dataCapWords + 64

/-- What holds of the registers in each phase after VALIDATE, under the control word `k` (R235 to R238, R246). -/
def State.StageOk (k : Control) (s : State) : Prop :=
  match s.seq.phase with
  | .pad =>
    k.dir = .enc ∧ s.work.input.Valid ∧ (byteGranular k.padding = true → s.work.ibufN.toNat % 8 = 0) ∧
      s.work.ibufN.toNat ≤ 32 * Config.dataCapWords
  | .mode =>
    s.work.input.Valid ∧ s.work.ibufN.toNat % blockBits k.cipher = 0 ∧ s.work.ibufN.toNat ≤ maxBits ∧
      s.work.nblk.toNat = s.work.ibufN.toNat / blockBits k.cipher ∧
      s.work.obuf < 2 ^ (s.seq.blk.toNat * blockBits k.cipher)
  | .unpad =>
    k.dir = .dec ∧ s.work.output.Valid ∧ s.work.obufN.toNat % blockBits k.cipher = 0 ∧ s.work.obufN.toNat ≤ maxBits
  | .encode => s.work.output.Valid ∧ s.work.obufN.toNat ≤ maxBits
  | .idle | .validate | .done | .error => True

/-- After VALIDATE the latched control word is legal, the key and the IV have the widths it needs (R231, R233, R234), and the
registers of the phase are as they should be. -/
def State.RequestOk (s : State) : Prop :=
  s.seq.phase = .pad ∨ s.seq.phase = .mode ∨ s.seq.phase = .unpad ∨ s.seq.phase = .encode →
    ∃ k, decodeControl s.work.ctrll = .ok k ∧ s.work.keyN.toNat = keyBits k.cipher ∧
      ivWidthOk k.mode k.cipher s.work.ivN.toNat = true ∧ s.StageOk k

/-- The invariant of the machine. -/
structure State.Inv (s : State) : Prop where
  queues : s.QueuesFit
  phase : s.PhaseOk
  request : s.RequestOk

/-- An event the port carries: an access of 4 bytes at a multiple of 4 (R64, R66), RESET, or the sequencer's turn. -/
def Event.Carried : Event → Prop
  | .read off bytes => bytes = 4 ∧ off.toNat % 4 = 0
  | .write off bytes _ => bytes = 4 ∧ off.toNat % 4 = 0
  | .reset | .sequencerStep | .runRequest => True

/-- A host access (R260). -/
def Event.isAccess : Event → Bool
  | .read _ _ | .write _ _ _ => true
  | .reset | .sequencerStep | .runRequest => false

/-- `NBLK` of a validated request: the blocks of the padded data when encrypting, of the data when decrypting (R33, R246). -/
def requestBlocks (k : Control) (o : Operands) : Nat :=
  match k.dir with
  | .enc => (padValue k.padding k.cipher o.data).len / blockBits k.cipher
  | .dec => o.data.len / blockBits k.cipher

end Sys2Proof.Machine
end

