-- ==== Sys2Proof/Certificates/Slice0/Obligations.lean ====
section
/-! DEFINITION. The statements for the provers. Each docstring names the rules of spec/ it formalises. -/

open Sys2Proof Sys2Proof.Machine

/-! ### Encoding -/

/-- Decoding the bytes of a well-formed instruction, whatever follows them, gives the instruction back (R90 to R95). -/
def Obligations.DecodeBytesOfEncode : Prop :=
  ∀ (i : Instr) (rest : List Byte), i.wellFormed = true →
    decodeBytes (encode i).1 (encodeBytes i ++ rest) = .ok (i, rest)

/-- Each word has one meaning for each reader: what a reader decodes is well formed and encodes to that reader and word. -/
def Obligations.EncodeOfDecodeWord : Prop :=
  ∀ (r : Reader) (w : Word) (i : Instr), decodeWord r w = .ok i → i.wellFormed = true ∧ encode i = (r, w)

/-- R92: the legal control words are those with `c[31:7] = 0`, `c[1:0] ≠ 3` and `c[3:2] ≠ 3`, and there are 72. -/
def Obligations.LegalControlWords : Prop :=
  (∀ w : Word, (∃ k, decodeControl w = .ok k) ↔
    w.extractLsb' 7 25 = 0#25 ∧ w.extractLsb' 0 2 ≠ 3#2 ∧ w.extractLsb' 2 2 ≠ 3#2) ∧
  (((List.range 128).map (BitVec.ofNat 32)).filter fun w => (decodeControl w).toOption.isSome).length = 72

/-- A few words written out from the tables of R94 and R95 decode to the operations R93 names. (The
reader comes with the word, log entry 5.) -/
def Obligations.SampleWordsDecode : Prop :=
  decodeWord .command 0x00000001#32 = .ok .start ∧
  decodeWord .command 0x00000002#32 = .ok .clear ∧
  decodeWord .pipeline 0x00000060#32 = .ok (.runEnc .sdes .ecb .pkcs7) ∧
  decodeWord .pipeline 0x0000003A#32 = .ok (.runDec .sp96 .ctr .rfc1321) ∧
  decodeWord .bbDecoder 0x00000055#32 = .ok (.bbDecode .lucifer .cbc .x923 .enc) ∧
  decodeWord .padding 0x00000076#32 = .ok (.padRfc1321 .sp96 .cbc) ∧
  decodeWord .modes 0x00000009#32 = .ok (.ctrDec .lucifer .zero) ∧
  decodeWord .cipher 0x00000009#32 = .ok (.encblkLucifer .dec .ctr .zero) ∧
  decodeWord .cipher 0x00000026#32 = .ok (.decblkSp96 .cbc .pkcs7)

/-! ### BitBuffer -/

/-- R122: `encode` and `decode` are mutual inverses on valid BitValues, and `encode(decode(ws, n)) = ws` exactly on the
canonical word sequences. -/
def Obligations.BitBufferRoundTrip : Prop :=
  (∀ v : BitValue, v.Valid → decodeWords (encodeWords v) v.len = some v) ∧
  (∀ (ws : List Word) (n : Nat), wordCount n ≤ ws.length →
    ((∃ v, decodeWords ws n = some v ∧ encodeWords v = ws) ↔
      ws.length = wordCount n ∧ ∀ b, n ≤ b → (ws.getD (b / 32) 0#32).getLsbD (b % 32) = false))

/-- R121: `decode` fails exactly when there are too few words; otherwise bit `i < n` of the result is bit `i mod 32` of word
`i div 32`, every later bit is zero, and the length is `n`. -/
def Obligations.DecodeWordsBits : Prop :=
  ∀ (ws : List Word) (n : Nat),
    (decodeWords ws n = none ↔ ws.length < cdiv (cdiv n 8) 4) ∧
    ∀ v, decodeWords ws n = some v →
      v.len = n ∧
      (∀ i, i < n → v.val.testBit i = (ws.getD (i / 32) 0#32).getLsbD (i % 32)) ∧
      ∀ i, n ≤ i → v.val.testBit i = false

/-- R120: `encode` gives `cdiv(cdiv(n, 8), 4)` words, and word `k` is the sum of its up to four bytes, `bytes[4k+j]` shifted
left by `8·j`, absent bytes counting as zero. -/
def Obligations.EncodeWordsFromBytes : Prop :=
  ∀ v : BitValue, v.Valid →
    (encodeWords v).length = cdiv (cdiv v.len 8) 4 ∧
    ∀ k, k < (encodeWords v).length →
      ((encodeWords v).getD k 0#32).toNat =
        (v.bytes.getD (4 * k) 0#8).toNat + 2 ^ 8 * (v.bytes.getD (4 * k + 1) 0#8).toNat +
          2 ^ 16 * (v.bytes.getD (4 * k + 2) 0#8).toNat + 2 ^ 24 * (v.bytes.getD (4 * k + 3) 0#8).toNat

/-- R232, R121: with enough words in the queues `BB.DECODE` loads `KEYV/KEYN`, `IVV/IVN` (zero in ECB, the IV record not looked
at) and `IBUF/IBUFN`, and changes nothing else; with too few words for the key, for the IV outside ECB, or for the data, it
raises `MalformedInput`. (With a
queue beyond its capacity, which no run reaches, `KEYV` and `IVV` keep the low 128 bits of a longer operand: the model's
reading, log entry 7.) -/
def Obligations.BbDecodeLoadsOrRaises : Prop :=
  ∀ (c : Cipher) (m : Mode) (p : Scheme) (d : Direction) (s : State),
    (wordCount s.keySize.toNat ≤ s.keyq.length →
      (m ≠ .ecb → wordCount s.ivSize.toNat ≤ s.ivq.length) →
      wordCount s.dataSize.toNat ≤ s.dataq.length →
      exec (.bbDecode c m p d) s = .next { s with work := { s.work with
        keyV := BitVec.ofNat 128 (wordsToNat (s.keyq.take (wordCount s.keySize.toNat)) % 2 ^ s.keySize.toNat)
        keyN := s.keySize
        ivV := if m = .ecb then 0#128 else
          BitVec.ofNat 128 (wordsToNat (s.ivq.take (wordCount s.ivSize.toNat)) % 2 ^ s.ivSize.toNat)
        ivN := if m = .ecb then 0#32 else s.ivSize
        ibuf := wordsToNat (s.dataq.take (wordCount s.dataSize.toNat)) % 2 ^ s.dataSize.toNat
        ibufN := s.dataSize } }) ∧
    (s.keyq.length < wordCount s.keySize.toNat ∨ (m ≠ .ecb ∧ s.ivq.length < wordCount s.ivSize.toNat) ∨
        s.dataq.length < wordCount s.dataSize.toNat →
      exec (.bbDecode c m p d) s = .next (raise .malformedInput s))

/-- R240, R120: `BB.ENCODE` writes `OUTQ <- encode(out)` and `OUT_SIZE <- out.bit_length` for the BitValue in `OBUF/OBUFN`, and
changes nothing else. (That the rest of R240, the zeroing and the move to DONE, is the sequencer's and not
this instruction's is the model's reading, log entry 15.)
(Stray bits of `OBUF` at or above `OBUFN` stand in the last word: the model's choice, log entry 21.) -/
def Obligations.BbEncodePublishes : Prop :=
  ∀ (c : Cipher) (m : Mode) (p : Scheme) (d : Direction) (s : State),
    exec (.bbEncode c m p d) s =
      .next { s with outq := encodeWords ⟨s.work.obufN.toNat, s.work.obuf⟩, outSize := s.work.obufN }

/-! ### Padding -/

/-- R141: `PAD.ZERO` appends `(bs - len mod bs) mod bs` zero bytes to `IBUF` and changes nothing else.
(`IBUFN` keeps the low 32 bits of a length that reaches `2^32`, and stray bits of `IBUF` at or above `IBUFN` are dropped: the
model's choices, log entries 19 and 21.) -/
def Obligations.PadZeroAppends : Prop :=
  ∀ (c : Cipher) (m : Mode) (s : State), s.work.ibufN.toNat % 8 = 0 →
    ∃ k bs, k = (blockBits c / 8 - s.work.input.bytes.length % (blockBits c / 8)) % (blockBits c / 8) ∧
      bs = s.work.input.bytes ++ List.replicate k 0#8 ∧
      exec (.padZero c m) s = .next { s with work := { s.work with
        ibuf := bytesToNat bs, ibufN := BitVec.ofNat 32 (8 * bs.length) } }

/-- R143: `PAD.X923` appends `k - 1` zero bytes and the byte `k`, `k = bs - len mod bs` between 1 and `bs`, and changes nothing
else.
(`IBUFN` keeps the low 32 bits of a length that reaches `2^32`, and stray bits of `IBUF` at or above `IBUFN` are dropped: the
model's choices, log entries 19 and 21.) -/
def Obligations.PadX923Appends : Prop :=
  ∀ (c : Cipher) (m : Mode) (s : State), s.work.ibufN.toNat % 8 = 0 →
    ∃ k bs, k = blockBits c / 8 - s.work.input.bytes.length % (blockBits c / 8) ∧ 1 ≤ k ∧ k ≤ blockBits c / 8 ∧
      bs = s.work.input.bytes ++ List.replicate (k - 1) 0#8 ++ [BitVec.ofNat 8 k] ∧
      exec (.padX923 c m) s = .next { s with work := { s.work with
        ibuf := bytesToNat bs, ibufN := BitVec.ofNat 32 (8 * bs.length) } }

/-- R145: `PAD.PKCS7` appends `k` bytes each equal to `k`, `k = bs - len mod bs` between 1 and `bs`, and changes nothing else.
(`IBUFN` keeps the low 32 bits of a length that reaches `2^32`, and stray bits of `IBUF` at or above `IBUFN` are dropped: the
model's choices, log entries 19 and 21.) -/
def Obligations.PadPkcs7Appends : Prop :=
  ∀ (c : Cipher) (m : Mode) (s : State), s.work.ibufN.toNat % 8 = 0 →
    ∃ k bs, k = blockBits c / 8 - s.work.input.bytes.length % (blockBits c / 8) ∧ 1 ≤ k ∧ k ≤ blockBits c / 8 ∧
      bs = s.work.input.bytes ++ List.replicate k (BitVec.ofNat 8 k) ∧
      exec (.padPkcs7 c m) s = .next { s with work := { s.work with
        ibuf := bytesToNat bs, ibufN := BitVec.ofNat 32 (8 * bs.length) } }

/-- R147: `PAD.RFC1321` sets bit `n` and extends the length to the next multiple of `B` strictly above `n`, at most `B` bits
further, and changes nothing else.
(`IBUFN` keeps the low 32 bits of a length that reaches `2^32`, and `2^n` is added to `IBUF` also where that has stray bits: the
model's choices, log entries 19 and 21.) -/
def Obligations.PadRfc1321SetsMarker : Prop :=
  ∀ (c : Cipher) (m : Mode) (s : State),
    ∃ n', n' % blockBits c = 0 ∧ s.work.ibufN.toNat < n' ∧ n' ≤ s.work.ibufN.toNat + blockBits c ∧
      exec (.padRfc1321 c m) s = .next { s with work := { s.work with
        ibuf := s.work.ibuf + 2 ^ s.work.ibufN.toNat, ibufN := BitVec.ofNat 32 n' } }

/-- R140: a byte-granular `PAD` refuses an operand that is not a whole number of bytes. -/
def Obligations.PadRefusesPartialBytes : Prop :=
  ∀ (c : Cipher) (m : Mode) (s : State), s.work.ibufN.toNat % 8 ≠ 0 →
    exec (.padZero c m) s = .refused .padOperandNotBytes ∧ exec (.padX923 c m) s = .refused .padOperandNotBytes ∧
      exec (.padPkcs7 c m) s = .refused .padOperandNotBytes

/-- R142: `UNPAD.ZERO` strips every trailing zero byte of `OBUF`, is never an error, and changes nothing else. (Where
`OBUFN` is not a multiple of 8 the bytes are the `cdiv(n, 8)` bytes of the BitValue: the model's reading, log entry 11.)
(Stray bits at or above `OBUFN`, log entry 21.) -/
def Obligations.UnpadZeroStrips : Prop :=
  ∀ (c : Cipher) (m : Mode) (s : State),
    ∃ (r : List Byte) (j : Nat), s.work.output.bytes = r ++ List.replicate j 0#8 ∧ r.getLast? ≠ some 0#8 ∧
      exec (.unpadZero c m) s = .next { s with work := { s.work with
        obuf := bytesToNat r, obufN := BitVec.ofNat 32 (8 * r.length) } }

/-- R144: where the bytes of `OBUF` are whole blocks ending in `k - 1` zero bytes and the byte `k`, `1 ≤ k ≤ bs`, `UNPAD.X923`
removes those `k` bytes and changes nothing else; otherwise it raises `PaddingError`. (Where `OBUFN` is not a multiple
of 8 the bytes are the `cdiv(n, 8)` bytes of the BitValue: the model's reading, log entry 11.)
(Stray bits at or above `OBUFN`, log entry 21.) -/
def Obligations.UnpadX923RemovesOrRaises : Prop :=
  ∀ (c : Cipher) (m : Mode) (s : State),
    (∀ (r : List Byte) (k : Nat), 1 ≤ k → k ≤ blockBits c / 8 → s.work.output.bytes.length % (blockBits c / 8) = 0 →
      s.work.output.bytes = r ++ List.replicate (k - 1) 0#8 ++ [BitVec.ofNat 8 k] →
      exec (.unpadX923 c m) s = .next { s with work := { s.work with
        obuf := bytesToNat r, obufN := BitVec.ofNat 32 (8 * r.length) } }) ∧
    ((¬ ∃ (r : List Byte) (k : Nat), 1 ≤ k ∧ k ≤ blockBits c / 8 ∧ s.work.output.bytes.length % (blockBits c / 8) = 0 ∧
        s.work.output.bytes = r ++ List.replicate (k - 1) 0#8 ++ [BitVec.ofNat 8 k]) →
      exec (.unpadX923 c m) s = .next (raise .paddingError s))

/-- R146: where the bytes of `OBUF` are whole blocks ending in `k` bytes equal to `k`, `1 ≤ k ≤ bs`, `UNPAD.PKCS7` removes those
`k` bytes and changes nothing else; otherwise it raises `PaddingError`. (Where `OBUFN` is not a multiple
of 8 the bytes are the `cdiv(n, 8)` bytes of the BitValue: the model's reading, log entry 11.)
(Stray bits at or above `OBUFN`, log entry 21.) -/
def Obligations.UnpadPkcs7RemovesOrRaises : Prop :=
  ∀ (c : Cipher) (m : Mode) (s : State),
    (∀ (r : List Byte) (k : Nat), 1 ≤ k → k ≤ blockBits c / 8 → s.work.output.bytes.length % (blockBits c / 8) = 0 →
      s.work.output.bytes = r ++ List.replicate k (BitVec.ofNat 8 k) →
      exec (.unpadPkcs7 c m) s = .next { s with work := { s.work with
        obuf := bytesToNat r, obufN := BitVec.ofNat 32 (8 * r.length) } }) ∧
    ((¬ ∃ (r : List Byte) (k : Nat), 1 ≤ k ∧ k ≤ blockBits c / 8 ∧ s.work.output.bytes.length % (blockBits c / 8) = 0 ∧
        s.work.output.bytes = r ++ List.replicate k (BitVec.ofNat 8 k)) →
      exec (.unpadPkcs7 c m) s = .next (raise .paddingError s))

/-- R148: with `n > 0` bits in whole blocks and `i` the highest set bit of the last block, `UNPAD.RFC1321` leaves the `i` bits
below it and changes nothing else; with no bits, no whole blocks or a zero last block it raises `PaddingError`. -/
def Obligations.UnpadRfc1321FindsMarker : Prop :=
  ∀ (c : Cipher) (m : Mode) (s : State),
    (∀ i, 0 < s.work.obufN.toNat → s.work.obufN.toNat % blockBits c = 0 → s.work.obufN.toNat - blockBits c ≤ i →
      i < s.work.obufN.toNat → s.work.obuf.testBit i = true →
      (∀ j, i < j → j < s.work.obufN.toNat → s.work.obuf.testBit j = false) →
      exec (.unpadRfc1321 c m) s = .next { s with work := { s.work with
        obuf := s.work.obuf % 2 ^ i, obufN := BitVec.ofNat 32 i } }) ∧
    (s.work.obufN.toNat = 0 ∨ s.work.obufN.toNat % blockBits c ≠ 0 ∨
        (∀ j, s.work.obufN.toNat - blockBits c ≤ j → j < s.work.obufN.toNat → s.work.obuf.testBit j = false) →
      exec (.unpadRfc1321 c m) s = .next (raise .paddingError s))

/-- R149: for ANSI_X923 and PKCS7 `unpad(pad(b)) = b` on every byte sequence, for RFC_1321 on every BitValue; every padded length
is a multiple of the block size, and grows by at most one block (Zero by less, the others by at least one byte or bit). -/
def Obligations.PaddingReversible : Prop :=
  (∀ (bs : Nat) (b : List Byte), 1 ≤ bs → bs ≤ 255 →
    unpadX923 bs (padX923 bs b) = some b ∧ unpadPkcs7 bs (padPkcs7 bs b) = some b ∧
    (padZero bs b).length % bs = 0 ∧ b.length ≤ (padZero bs b).length ∧ (padZero bs b).length ≤ b.length + (bs - 1) ∧
    (padX923 bs b).length % bs = 0 ∧ b.length + 1 ≤ (padX923 bs b).length ∧ (padX923 bs b).length ≤ b.length + bs ∧
    (padPkcs7 bs b).length % bs = 0 ∧ b.length + 1 ≤ (padPkcs7 bs b).length ∧ (padPkcs7 bs b).length ≤ b.length + bs) ∧
  (∀ (B : Nat) (v : BitValue), 1 ≤ B → v.Valid →
    unpadRfc1321 B (padRfc1321 B v) = some v ∧ (padRfc1321 B v).Valid ∧
    (padRfc1321 B v).len % B = 0 ∧ v.len + 1 ≤ (padRfc1321 B v).len ∧ (padRfc1321 B v).len ≤ v.len + B)

/-- R152: `unpad_zero(pad_zero(b)) = b` holds exactly when `b` is empty or does not end in a zero byte. -/
def Obligations.ZeroPaddingLoss : Prop :=
  ∀ (bs : Nat) (b : List Byte), 1 ≤ bs → (unpadZero (padZero bs b) = b ↔ b.getLast? ≠ some 0#8)

/-! ### Block cipher -/

/-- R173: for every bijection `IPERM` and any key schedule and round function, `decrypt_block` and `encrypt_block` invert each
other on every block under every key. -/
def Obligations.CipherInverse : Prop :=
  ∀ S : Suite, S.Bijective → ∀ (c : Cipher) (key : BitVec (keyBits c)) (x : BitVec (blockBits c)),
    cipherBlock S c .dec key (cipherBlock S c .enc key x) = x ∧ cipherBlock S c .enc key (cipherBlock S c .dec key x) = x

/-- The constants of this machine meet the one constraint R6 puts on them: every `IPERM` is a bijection, every round count is
at least 1, and SDES has 2 rounds and subkeys of 8 bits. (Rests on the model's choice of the constants, log entry 9.) -/
def Obligations.MachineConstantsAdmissible : Prop :=
  suite.Bijective ∧ suite.sdes.rounds = 2 ∧ suite.sdes.subkeyBits = 8 ∧ 1 ≤ suite.lucifer.rounds ∧ 1 ≤ suite.sp96.rounds

/-- R178: `ENCBLK.SDES`, unfolded: with `(L0, R0)` the halves of `IP(x)` and `R1 = L0 ⊕ F(R0, K1)`, the result is
`IP⁻¹((R0 ⊕ F(R1, K2)) ++ R1)`; the unit writes the subkeys, the halves and the result, and nothing else changes. (The block
port, log entry 4, and what the unit leaves in `L`, `R` and `SUBKEY`, log entry 12, are the model's choices; the tables are
PRESUMED, log entry 9.) -/
def Obligations.EncblkSdesUnfolded : Prop :=
  ∀ (d : Direction) (m : Mode) (p : Scheme) (s : State), s.work.keyN = 10#32 →
    ∃ (key : BitVec 10) (y : BitVec 8) (l0 r0 r1 r2 : BitVec 4) (k1 k2 : BitVec 8),
      key = s.work.keyV.setWidth 10 ∧ y = permBits 8 (s.work.blockPort.setWidth 8) tableIP ∧
      l0 = y.extractLsb' 4 4 ∧ r0 = y.extractLsb' 0 4 ∧ k1 = sdesKeySchedule key 0 ∧ k2 = sdesKeySchedule key 1 ∧
      r1 = l0 ^^^ sdesRoundF r0 k1 ∧ r2 = r0 ^^^ sdesRoundF r1 k2 ∧
      exec (.encblkSdes d m p) s = .next { s with work := { s.work with
        subkey := .sdes [k1, k2], l := r1.setWidth 32, r := r2.setWidth 32
        blockPort := (permBits 8 (r2 ++ r1) tableIPInv).setWidth 64 } }

/-- R179: `DECBLK.SDES` is the same with the subkeys in reverse order. (Log entries 4, 9 and 12, as for `ENCBLK.SDES`.) -/
def Obligations.DecblkSdesUnfolded : Prop :=
  ∀ (m : Mode) (p : Scheme) (s : State), s.work.keyN = 10#32 →
    ∃ (key : BitVec 10) (y : BitVec 8) (l0 r0 r1 r2 : BitVec 4) (k1 k2 : BitVec 8),
      key = s.work.keyV.setWidth 10 ∧ y = permBits 8 (s.work.blockPort.setWidth 8) tableIP ∧
      l0 = y.extractLsb' 4 4 ∧ r0 = y.extractLsb' 0 4 ∧ k1 = sdesKeySchedule key 0 ∧ k2 = sdesKeySchedule key 1 ∧
      r1 = l0 ^^^ sdesRoundF r0 k2 ∧ r2 = r0 ^^^ sdesRoundF r1 k1 ∧
      exec (.decblkSdes m p) s = .next { s with work := { s.work with
        subkey := .sdes [k1, k2], l := r1.setWidth 32, r := r2.setWidth 32
        blockPort := (permBits 8 (r2 ++ r1) tableIPInv).setWidth 64 } }

/-- R181, R182, R184, R185: the four block operations of Lucifer and SimpleSP96 run the skeleton R171 on the block at the port
with the subkeys `KS(key, 0 .. r-1)`, in that order to encrypt and in reverse to decrypt; the unit writes the subkeys, the
halves and the result, and nothing else changes. (Log entries 4, 9
and 12: the port, the open constants, what the unit leaves in its registers.) -/
def Obligations.OpenVariantBlocks : Prop :=
  ∀ (d : Direction) (m : Mode) (p : Scheme) (s : State),
    (s.work.keyN = 128#32 → ∃ (subs : List (BitVec luciferParams.subkeyBits)) (l r l' r' : BitVec 32),
      subs = (List.range luciferParams.rounds).map (luciferParams.keySchedule (s.work.keyV.setWidth 128)) ∧
      exec (.encblkLucifer d m p) s = .next { s with work := { s.work with
        subkey := .lucifer subs, l := l, r := r, blockPort := feistel (h := 32) luciferParams subs s.work.blockPort } } ∧
      exec (.decblkLucifer m p) s = .next { s with work := { s.work with
        subkey := .lucifer subs, l := l', r := r'
        blockPort := feistel (h := 32) luciferParams subs.reverse s.work.blockPort } }) ∧
    (s.work.keyN = 96#32 → ∃ (subs : List (BitVec sp96Params.subkeyBits)) (l r l' r' : BitVec 32),
      subs = (List.range sp96Params.rounds).map (sp96Params.keySchedule (s.work.keyV.setWidth 96)) ∧
      exec (.encblkSp96 d m p) s = .next { s with work := { s.work with
        subkey := .sp96 subs, l := l, r := r
        blockPort := (feistel (h := 24) sp96Params subs (s.work.blockPort.setWidth 48)).setWidth 64 } } ∧
      exec (.decblkSp96 m p) s = .next { s with work := { s.work with
        subkey := .sp96 subs, l := l', r := r'
        blockPort := (feistel (h := 24) sp96Params subs.reverse (s.work.blockPort.setWidth 48)).setWidth 64 } })

/-! ### Modes -/

/-- R202, R205, R200, R246: with a key of `K(v)` bits, `ECB.ENC` and `ECB.DEC` at block `i = SEQ.BLK` store `E(X[i])`, or
`D(X[i])`, as block `i` of `OBUF`; every other block of `OBUF` and every register but `OBUF`, `OBUFN` and the cipher unit's own
stays as it was. (One block a step is the model's
reading, log entry 3, and so is a block at or above `NBLK`, log entry 18, and the
low 32 bits of `NBLK·B` in `OBUFN`, log entry 19.) -/
def Obligations.EcbBlockStep : Prop :=
  ∀ (c : Cipher) (p : Scheme) (d : Direction) (i : Instr) (s : State),
    (d = .enc ∧ i = .ecbEnc c p ∨ d = .dec ∧ i = .ecbDec c p) → s.work.keyN.toNat = keyBits c →
    ∃ t, exec i s = .next t ∧
      blockAt (blockBits c) t.work.obuf s.seq.blk.toNat =
        cipherBlock suite c d (s.work.keyV.setWidth (keyBits c)) (blockAt (blockBits c) s.work.ibuf s.seq.blk.toNat) ∧
      (∀ j, j ≠ s.seq.blk.toNat → blockAt (blockBits c) t.work.obuf j = blockAt (blockBits c) s.work.obuf j) ∧
      t.work.obufN = BitVec.ofNat 32 (s.work.nblk.toNat * blockBits c) ∧
      t = { s with work := { s.work with
        obuf := t.work.obuf, obufN := t.work.obufN, subkey := t.work.subkey, l := t.work.l, r := t.work.r
        blockPort := t.work.blockPort } }

/-- R203, R204, R200, R246: with a key of `K(v)` bits and an IV of `B` bits, `CBC.ENC` stores `Y = E(X[i] ⊕ CHAIN)` and sets
`CHAIN` to `Y`; `CBC.DEC` stores `D(X[i]) ⊕ CHAIN` and sets `CHAIN` to `X[i]`; every other block of `OBUF` and every other
register but `OBUFN` and the cipher unit's own stays as it was. (Log entries 3, 18 and 19, as for ECB.) -/
def Obligations.CbcBlockStep : Prop :=
  ∀ (c : Cipher) (p : Scheme) (s : State),
    s.work.keyN.toNat = keyBits c → s.work.ivN.toNat = blockBits c →
    ∀ (X ch : BitVec (blockBits c)) (key : BitVec (keyBits c)),
      X = blockAt (blockBits c) s.work.ibuf s.seq.blk.toNat → ch = s.work.chain.setWidth (blockBits c) →
      key = s.work.keyV.setWidth (keyBits c) →
    ∀ (i : Instr) (Y next : BitVec (blockBits c)),
      (i = .cbcEnc c p ∧ Y = cipherBlock suite c .enc key (X ^^^ ch) ∧ next = Y ∨
        i = .cbcDec c p ∧ Y = cipherBlock suite c .dec key X ^^^ ch ∧ next = X) →
    ∃ t, exec i s = .next t ∧
      blockAt (blockBits c) t.work.obuf s.seq.blk.toNat = Y ∧
      (∀ j, j ≠ s.seq.blk.toNat → blockAt (blockBits c) t.work.obuf j = blockAt (blockBits c) s.work.obuf j) ∧
      t.work.obufN = BitVec.ofNat 32 (s.work.nblk.toNat * blockBits c) ∧
      t = { s with work := { s.work with
        obuf := t.work.obuf, obufN := t.work.obufN, subkey := t.work.subkey, l := t.work.l, r := t.work.r
        blockPort := t.work.blockPort, chain := next.setWidth 64 } }

/-- R206, R207, R209, R200, R246: with a key of `K(v)` bits and an IV width from 1 to `B`, `CTR.ENC` and `CTR.DEC` alike store
`X[i] ⊕ E(zext_B(CTRV))`, never `D`, and increment the counter modulo `2^w`; every other block of `OBUF` and every other
register but `OBUFN` and the cipher unit's own stays as it was. (Log entries 3, 18 and 19, as for ECB.)
(`CTRW` that is not `IVN`, 0 or above `B` included, which no run has: the model's choice, log entry 20.) -/
def Obligations.CtrBlockStep : Prop :=
  ∀ (c : Cipher) (p : Scheme) (i : Instr) (s : State), (i = .ctrEnc c p ∨ i = .ctrDec c p) →
    s.work.keyN.toNat = keyBits c → 1 ≤ s.work.ivN.toNat → s.work.ivN.toNat ≤ blockBits c →
    ∃ t, exec i s = .next t ∧
      blockAt (blockBits c) t.work.obuf s.seq.blk.toNat =
        blockAt (blockBits c) s.work.ibuf s.seq.blk.toNat ^^^
          cipherBlock suite c .enc (s.work.keyV.setWidth (keyBits c))
            (BitVec.ofNat (blockBits c) (s.work.ctrv.toNat % 2 ^ s.work.ctrw.toNat)) ∧
      (∀ j, j ≠ s.seq.blk.toNat → blockAt (blockBits c) t.work.obuf j = blockAt (blockBits c) s.work.obuf j) ∧
      t.work.obufN = BitVec.ofNat 32 (s.work.nblk.toNat * blockBits c) ∧
      t = { s with work := { s.work with
        obuf := t.work.obuf, obufN := t.work.obufN, subkey := t.work.subkey, l := t.work.l, r := t.work.r
        blockPort := t.work.blockPort
        ctrv := BitVec.ofNat 64 ((s.work.ctrv.toNat % 2 ^ s.work.ctrw.toNat + 1) % 2 ^ s.work.ctrw.toNat) } }

/-- R281, R170: at a unit's own boundary, a key of another width than `K(v)` handed to the cipher unit is
`InvalidKeyOrBlockSize`, and an IV that is not `B` bits wide in CBC, or not 1 to `B` bits wide in CTR, is `InvalidIVSize`. (A
block is `B` bits wide by the port's type, log entry 4; that a mode operation looks at the IV before the key is the model's
choice, log entry 17.) -/
def Obligations.UnitBoundaryWidths : Prop :=
  (∀ (d : Direction) (m : Mode) (p : Scheme) (s : State),
    (s.work.keyN ≠ 10#32 → exec (.encblkSdes d m p) s = .next (raise .invalidKeyOrBlockSize s) ∧
      exec (.decblkSdes m p) s = .next (raise .invalidKeyOrBlockSize s)) ∧
    (s.work.keyN ≠ 128#32 → exec (.encblkLucifer d m p) s = .next (raise .invalidKeyOrBlockSize s) ∧
      exec (.decblkLucifer m p) s = .next (raise .invalidKeyOrBlockSize s)) ∧
    (s.work.keyN ≠ 96#32 → exec (.encblkSp96 d m p) s = .next (raise .invalidKeyOrBlockSize s) ∧
      exec (.decblkSp96 m p) s = .next (raise .invalidKeyOrBlockSize s))) ∧
  (∀ (c : Cipher) (p : Scheme) (s : State),
    (s.work.ivN.toNat ≠ blockBits c →
      exec (.cbcEnc c p) s = .next (raise .invalidIVSize s) ∧ exec (.cbcDec c p) s = .next (raise .invalidIVSize s)) ∧
    (s.work.ivN.toNat = 0 ∨ blockBits c < s.work.ivN.toNat →
      exec (.ctrEnc c p) s = .next (raise .invalidIVSize s) ∧ exec (.ctrDec c p) s = .next (raise .invalidIVSize s)))

/-- R210: for every choice of the constants, every variant, mode, key, legal IV and data of whole blocks, decryption inverts
encryption and encryption inverts decryption. -/
def Obligations.ModesRoundTrip : Prop :=
  ∀ S : Suite, S.Bijective → ∀ (m : Mode) (c : Cipher) (key iv data : BitValue),
    ivWidthOk m c iv.len = true → data.Valid → data.len % blockBits c = 0 →
    modeValue S m .dec c key iv (modeValue S m .enc c key iv data) = data ∧
      modeValue S m .enc c key iv (modeValue S m .dec c key iv data) = data

/-- R206: block `i` of a CTR result is `X[i] ⊕ E(c_i)` with `c_i = (c0 + i) mod 2^w` zero-extended, in both directions. -/
def Obligations.CtrKeystreamByIndex : Prop :=
  ∀ (S : Suite) (d : Direction) (c : Cipher) (key iv data : BitValue), iv.Valid → 1 ≤ iv.len → iv.len ≤ blockBits c →
    ∀ i, i < data.len / blockBits c →
      blockAt (blockBits c) (modeValue S .ctr d c key iv data).val i =
        blockAt (blockBits c) data.val i ^^^
          cipherBlock S c .enc (BitVec.ofNat (keyBits c) key.val) (BitVec.ofNat (blockBits c) ((iv.val + i) % 2 ^ iv.len))

/-- R211: where two data differ in block `i` alone, the ciphertexts of ECB and CTR differ in block `i` alone (in CTR by the
same bits), and those of CBC agree before block `i` and differ in every block from `i` on. -/
def Obligations.DiffusionBoundaries : Prop :=
  ∀ S : Suite, S.Bijective → ∀ (c : Cipher) (key iv : BitValue) (n x x' i : Nat),
    i < n / blockBits c → blockAt (blockBits c) x i ≠ blockAt (blockBits c) x' i →
    (∀ j, j ≠ i → blockAt (blockBits c) x j = blockAt (blockBits c) x' j) →
    ∀ Y Y' : Mode → Nat → BitVec (blockBits c),
      Y = (fun m j => blockAt (blockBits c) (modeValue S m .enc c key iv ⟨n, x⟩).val j) →
      Y' = (fun m j => blockAt (blockBits c) (modeValue S m .enc c key iv ⟨n, x'⟩).val j) →
    (∀ j, j < n / blockBits c → (Y .ecb j = Y' .ecb j ↔ j ≠ i)) ∧
    (∀ j, j < n / blockBits c → (Y .cbc j = Y' .cbc j ↔ j < i)) ∧
    (∀ j, j < n / blockBits c → j ≠ i → Y .ctr j = Y' .ctr j) ∧
    Y .ctr i ^^^ Y' .ctr i = blockAt (blockBits c) x i ^^^ blockAt (blockBits c) x' i

/-- R212: CBC decryption under a wrong IV `c0'` gives `P[0] ⊕ c0 ⊕ c0'` as block 0 and `P[i]` as every later block. -/
def Obligations.CbcWrongIv : Prop :=
  ∀ S : Suite, S.Bijective → ∀ (c : Cipher) (key iv iv' data : BitValue), iv.len = blockBits c → iv'.len = blockBits c →
    ∀ i, i < data.len / blockBits c →
      blockAt (blockBits c) (modeValue S .cbc .dec c key iv' (modeValue S .cbc .enc c key iv data)).val i =
        if i = 0 then
          blockAt (blockBits c) data.val 0 ^^^ BitVec.ofNat (blockBits c) iv.val ^^^ BitVec.ofNat (blockBits c) iv'.val
        else blockAt (blockBits c) data.val i

/-! ### Pipeline -/

/-- R283, R231, R233 to R236: a request reports the first check that fails, in the order control word, key decode, IV decode (not
in ECB), data decode, key width, IV width, data width; a request that passes them all is transformed (where only unpadding can
still fail). -/
def Obligations.ValidationOrder : Prop :=
  ∀ (S : Suite) (w : Word) (q : Request),
    (w.extractLsb' 7 25 ≠ 0#25 ∨ w.extractLsb' 0 2 = 3#2 ∨ w.extractLsb' 2 2 = 3#2 →
      run S w q = .error .unsupportedConfiguration) ∧
    ∀ k, decodeControl w = .ok k →
      run S w q =
        if q.keyq.length < wordCount q.keySize.toNat then .error .malformedInput
        else if k.mode ≠ .ecb ∧ q.ivq.length < wordCount q.ivSize.toNat then .error .malformedInput
        else if q.dataq.length < wordCount q.dataSize.toNat then .error .malformedInput
        else if q.keySize.toNat ≠ keyBits k.cipher then .error .invalidKeyOrBlockSize
        else if k.mode = .cbc ∧ q.ivSize.toNat ≠ blockBits k.cipher then .error .unsupportedConfiguration
        else if k.mode = .ctr ∧ ¬ (1 ≤ q.ivSize.toNat ∧ q.ivSize.toNat ≤ blockBits k.cipher) then
          .error .unsupportedConfiguration
        else if k.dir = .enc ∧ k.padding ≠ .rfc1321 ∧ q.dataSize.toNat % 8 ≠ 0 then .error .unsupportedConfiguration
        else if k.dir = .dec ∧ q.dataSize.toNat % blockBits k.cipher ≠ 0 then .error .invalidKeyOrBlockSize
        else transform S k
          ⟨⟨q.keySize.toNat, wordsToNat (q.keyq.take (wordCount q.keySize.toNat)) % 2 ^ q.keySize.toNat⟩,
            if k.mode = .ecb then ⟨0, 0⟩
            else ⟨q.ivSize.toNat, wordsToNat (q.ivq.take (wordCount q.ivSize.toNat)) % 2 ^ q.ivSize.toNat⟩,
            ⟨q.dataSize.toNat, wordsToNat (q.dataq.take (wordCount q.dataSize.toNat)) % 2 ^ q.dataSize.toNat⟩⟩

/-- R237: a validated `RUN.ENC` ends in DONE with `encode` of the mode's encryption of the padded data as its response; the
working registers are zeroed and the request registers and queues stay as they were.
(An `OUT_SIZE` of `2^32` or more, which no request within the capacities has, keeps its low 32 bits: log entry 19.) -/
def Obligations.RunEncCompletes : Prop :=
  ∀ (c : Cipher) (m : Mode) (p : Scheme) (s : State) (o : Operands), validate ⟨c, m, p, .enc⟩ s.request = .ok o →
    ∀ out, out = modeValue suite m .enc c o.key o.iv (padValue p c o.data) →
      exec (.runEnc c m p) s = .next { s with
        outq := encodeWords out, outSize := BitVec.ofNat 32 out.len, errCode := 0#8, work := Work.zero
        seq := ⟨.done, 0#32⟩ }

/-- R238: a validated `RUN.DEC` whose decrypted data unpads ends in DONE with `encode` of the unpadded data as its response; where
the data does not unpad it raises `PaddingError` and nothing of the decrypted data is kept (R284, R285). -/
def Obligations.RunDecCompletesOrPaddingError : Prop :=
  ∀ (c : Cipher) (m : Mode) (p : Scheme) (s : State) (o : Operands), validate ⟨c, m, p, .dec⟩ s.request = .ok o →
    (∀ out, unpadValue p c (modeValue suite m .dec c o.key o.iv o.data) = some out →
      exec (.runDec c m p) s = .next { s with
        outq := encodeWords out, outSize := BitVec.ofNat 32 out.len, errCode := 0#8, work := Work.zero
        seq := ⟨.done, 0#32⟩ }) ∧
    (unpadValue p c (modeValue suite m .dec c o.key o.iv o.data) = none →
      exec (.runDec c m p) s = .next { s with
        outq := [], outSize := 0#32, errCode := 4#8, work := Work.zero, seq := ⟨.error, 0#32⟩ })

/-- R245: whatever the request, a reserved control word included, its final state is DONE with the response of `run`, or ERROR with
its code and no response; `CTRL`, the size registers and the queues are unchanged. Under a legal control word `exec` of the RUN
operation gives that state. (The event `runRequest`, the request as one step, is the model's own,
log entries 1 and 13.)
(`OUT_SIZE` as in RunEncCompletes, log entry 19.) -/
def Obligations.RequestFinalState : Prop :=
  (∀ (s : State) (rest : List Event), s.inbox = .runRequest :: rest → s.seq = ⟨.validate, 0#32⟩ →
    ∃ t, step s = .next t ∧
      (∀ out, run suite s.work.ctrll s.request = .ok out →
        t.seq = ⟨.done, 0#32⟩ ∧ t.errCode = 0#8 ∧ t.outSize = BitVec.ofNat 32 out.len ∧ t.outq = encodeWords out) ∧
      (∀ e, run suite s.work.ctrll s.request = .error e →
        t.seq = ⟨.error, 0#32⟩ ∧ t.errCode = e.code ∧ t.outSize = 0#32 ∧ t.outq = []) ∧
      t = { s with outq := t.outq, outSize := t.outSize, errCode := t.errCode, work := Work.zero, seq := t.seq, inbox := rest }) ∧
  ∀ (k : Control) (s : State), ∃ t, exec (selectRun k) s = .next t ∧
    (∀ out, run suite (encodeControl k) s.request = .ok out → t = { s with
      seq := ⟨.done, 0#32⟩, errCode := 0#8, outSize := BitVec.ofNat 32 out.len, outq := encodeWords out, work := Work.zero }) ∧
    (∀ e, run suite (encodeControl k) s.request = .error e → t = { s with
      seq := ⟨.error, 0#32⟩, errCode := e.code, outSize := 0#32, outq := [], work := Work.zero })

/-- R282: a request raises only `MalformedInput`, `InvalidKeyOrBlockSize`, `UnsupportedConfiguration` and `PaddingError`, and
`PaddingError` only when decrypting under a scheme other than Zero. -/
def Obligations.RequestErrorKinds : Prop :=
  ∀ (S : Suite) (w : Word) (q : Request) (e : ErrKind), run S w q = .error e →
    e ≠ .invalidIVSize ∧ e ≠ .unsupportedImageFormat ∧
      (e = .paddingError → ∃ k, decodeControl w = .ok k ∧ k.dir = .dec ∧ k.padding ≠ .zero)

/-- R247: the request that decrypts a request's response under the same cipher, mode, padding, key and IV gives the data back,
bit for bit, under ANSI_X923, PKCS7 and RFC_1321; under Zero it gives the data without its trailing zero bytes, which is the
data exactly when it does not end in a zero byte. -/
def Obligations.PipelineRoundTrip : Prop :=
  ∀ S : Suite, S.Bijective → ∀ (c : Cipher) (m : Mode) (p : Scheme) (q : Request) (o : Operands) (out : BitValue),
    q.dataq.length ≤ Config.dataCapWords →
    validate ⟨c, m, p, .enc⟩ q = .ok o → runLegal S ⟨c, m, p, .enc⟩ q = .ok out →
    ∀ q', q' = { q with dataSize := BitVec.ofNat 32 out.len, dataq := encodeWords out } →
      (p ≠ .zero → runLegal S ⟨c, m, p, .dec⟩ q' = .ok o.data) ∧
      (p = .zero → runLegal S ⟨c, m, p, .dec⟩ q' = .ok (BitValue.ofBytes (unpadZero o.data.bytes)) ∧
        (BitValue.ofBytes (unpadZero o.data.bytes) = o.data ↔ o.data.bytes.getLast? ≠ some 0#8))

/-- R248: a response of `RUN.ENC` is whole blocks, at least as long as the data and at most one block longer; one of `RUN.DEC` is
at most as long as the data; so the response of a request whose data queue is within its capacity fits the output buffer. -/
def Obligations.ResponseLength : Prop :=
  ∀ (S : Suite) (c : Cipher) (m : Mode) (p : Scheme) (q : Request) (out : BitValue),
    (runLegal S ⟨c, m, p, .enc⟩ q = .ok out →
      out.len % blockBits c = 0 ∧ q.dataSize.toNat ≤ out.len ∧ out.len ≤ q.dataSize.toNat + blockBits c) ∧
    (runLegal S ⟨c, m, p, .dec⟩ q = .ok out → out.len ≤ q.dataSize.toNat) ∧
    ∀ d, runLegal S ⟨c, m, p, d⟩ q = .ok out → q.dataq.length ≤ Config.dataCapWords →
      (encodeWords out).length ≤ Config.outCapWords

/-! ### The sequencer -/

/-- R246, R245: from `(VALIDATE, 0)` with queues within their capacities and no event to come, `3 + NBLK` steps of the sequencer
on a validated request reach the state that `RUN.ENC` or `RUN.DEC` reaches in one, and no fewer than `2 + NBLK` leave BUSY, no
fewer than `3 + NBLK` when the request ends in DONE. (That an empty
`inbox` lets the sequencer go on is the model's choice, log entry 2.) -/
def Obligations.StepsRefineRequest : Prop :=
  ∀ (s : State) (k : Control) (o : Operands), s.inbox = [] → s.seq = ⟨.validate, 0#32⟩ → s.QueuesFit →
    decodeControl s.work.ctrll = .ok k → validate k s.request = .ok o →
    ∃ t, exec (selectRun k) s = .next t ∧ Sys2Proof.core.run (3 + requestBlocks k o) s = .next t ∧
      ∀ j, j < 2 + requestBlocks k o ∨ (j = 2 + requestBlocks k o ∧ t.seq.phase = .done) →
        ∃ u, Sys2Proof.core.run j s = .next u ∧ u.seq.phase.busy = true

/-- R246, R284: from `(VALIDATE, 0)` with no event to come, one step of the sequencer on a request that fails a check reaches ERROR
with the code of the check. (That an empty `inbox` lets the sequencer go on is the
model's choice, log entry 2.) -/
def Obligations.FailedCheckTakesOneStep : Prop :=
  ∀ s : State, s.inbox = [] → s.seq = ⟨.validate, 0#32⟩ →
    ((∀ k, decodeControl s.work.ctrll ≠ .ok k) → step s = .next (raise .unsupportedConfiguration s)) ∧
    ∀ k e, decodeControl s.work.ctrll = .ok k → validate k s.request = .error e → step s = .next (raise e s)

/-- A step runs the decoded instruction. (1) With no event to come, in a working phase whose reader finds the instruction `i` in
`CTRLL`, the step is `exec i` and then the move of `SEQ` (`advance`, R246). (2) A command word written to `CMD` runs as `exec` of
the command. (3) Scheduled for the whole of a request about to be validated, the step is `exec` of the RUN operation in
`CTRLL` (R245). (The events are the model's own, log entries 1, 2 and 10.)
(A phase against `DO_ENC`, and a block above the last, which no run has: log entry 22.) -/
def Obligations.StepRunsDecodedInstruction : Prop :=
  ∀ s : State,
    (∀ r i k, s.inbox = [] → phaseReader s.seq.phase = some r → fetch r s = .ok i → decodeControl s.work.ctrll = .ok k →
      step s = match exec i s with
        | .next t => .next (advance k t)
        | .fault f => .fault f
        | .refused x => .refused x) ∧
    (∀ v i rest, s.inbox = .write 4#32 4 v :: rest → decodeWord .command v = .ok i →
      step s = exec i { s with inbox := rest }) ∧
    (∀ i rest, s.inbox = .runRequest :: rest → s.seq.phase = .validate → fetch .pipeline s = .ok i →
      step s = exec i { s with inbox := rest })

/-! ### The host port -/

/-- R266: START in IDLE latches `CTRL` into `CTRLL` and moves the sequencer to `(VALIDATE, 0)`, so that `STATUS` reads BUSY; in every
other state it has no effect. -/
def Obligations.StartAcceptedInIdle : Prop :=
  ∀ s : State,
    (s.seq.phase = .idle → ∃ t, exec .start s = .next t ∧
      t = { s with work := { s.work with ctrll := s.ctrl }, seq := ⟨.validate, 0#32⟩ } ∧ portRead t 0x008#32 = 1#32) ∧
    (s.seq.phase ≠ .idle → exec .start s = .next s)

/-- R267: CLEAR in IDLE, DONE and ERROR gives every piece of the hardware's state its reset value; in BUSY it has no effect. -/
def Obligations.ClearRestoresReset : Prop :=
  ∀ s : State,
    (s.seq.phase = .idle ∨ s.seq.phase = .done ∨ s.seq.phase = .error →
      exec .clear s = .next { State.reset with inbox := s.inbox, replies := s.replies }) ∧
    (portRead s 0x008#32 = 1#32 → exec .clear s = .next s)

/-- R310: RESET in any state gives every piece of the hardware's state its reset value. -/
def Obligations.ResetEventRestoresReset : Prop :=
  ∀ (s : State) (rest : List Event), s.inbox = .reset :: rest →
    step s = .next { State.reset with inbox := rest, replies := s.replies }

/-- R50: after reset every register reads 0 but CAP, which reads `DATA_CAP_WORDS`; the sequencer is at `(IDLE, 0)`, the queues are
empty and the working registers are zero. -/
def Obligations.ResetValues : Prop :=
  (∀ off : BitVec 32, portRead State.reset off = if off = 0x03C#32 then BitVec.ofNat 32 Config.dataCapWords else 0#32) ∧
    State.reset.seq = ⟨.idle, 0#32⟩ ∧ State.reset.keyq = [] ∧ State.reset.ivq = [] ∧ State.reset.dataq = [] ∧
    State.reset.outq = [] ∧ State.reset.work = Work.zero

/-- R62, R61, R67: an aligned 32-bit read returns the register's value and changes no state of the hardware; the four write-only
registers and every unmapped offset read 0, the other registers below the OUT window their value. (The word returned is kept
in the model's own list `replies`, log entry 1.)
(Word counts of `2^32` or more, which no run has, read modulo `2^32`: log entry 19.) -/
def Obligations.HostReadReturnsRegister : Prop :=
  (∀ (s : State) (off : BitVec 32) (rest : List Event), s.inbox = .read off 4 :: rest → off.toNat % 4 = 0 →
    step s = .next { s with inbox := rest, replies := s.replies ++ [portRead s off] }) ∧
  ∀ s : State,
    portRead s 0x000#32 = s.ctrl ∧ portRead s 0x004#32 = 0#32 ∧
    portRead s 0x008#32 = (match s.seq.phase with
      | .idle => 0#32
      | .validate | .pad | .mode | .unpad | .encode => 1#32
      | .done => 2#32
      | .error => 3#32) ∧
    portRead s 0x010#32 = s.keySize ∧ portRead s 0x014#32 = s.ivSize ∧ portRead s 0x018#32 = s.dataSize ∧
    portRead s 0x020#32 = 0#32 ∧ portRead s 0x024#32 = 0#32 ∧ portRead s 0x028#32 = 0#32 ∧
    portRead s 0x00C#32 = (if s.seq.phase = .error then s.errCode.setWidth 32 else 0#32) ∧
    portRead s 0x01C#32 = (if s.seq.phase = .done then s.outSize else 0#32) ∧
    portRead s 0x02C#32 =
      (if s.seq.phase = .done then BitVec.ofNat 32 (cdiv (cdiv s.outSize.toNat 8) 4) else 0#32) ∧
    portRead s 0x030#32 = BitVec.ofNat 32 s.keyq.length ∧ portRead s 0x034#32 = BitVec.ofNat 32 s.ivq.length ∧
    portRead s 0x038#32 = BitVec.ofNat 32 s.dataq.length ∧ portRead s 0x03C#32 = BitVec.ofNat 32 Config.dataCapWords ∧
    ∀ off : BitVec 32, off.toNat % 4 = 0 →
      (0x040 ≤ off.toNat ∧ off.toNat < 0x1000) ∨ 0x1000 + 4 * Config.outCapWords ≤ off.toNat → portRead s off = 0#32

/-- R66: an access that is misaligned or not of 32 bits is refused. (An access names its offset from `BASE`, log entry 8.) -/
def Obligations.BadAccessRefused : Prop :=
  ∀ (s : State) (off : BitVec 32) (n : Nat) (v : Word) (rest : List Event), n ≠ 4 ∨ off.toNat % 4 ≠ 0 →
    (s.inbox = .read off n :: rest → ∃ r, step s = .refused r) ∧ (s.inbox = .write off n v :: rest → ∃ r, step s = .refused r)

/-- R21, R25, R63: a write to `CTRL`, `KEY_SIZE`, `IV_SIZE` or `DATA_SIZE` in IDLE stores the word: it reads back, every other
register reads as before, and the rest of the hardware's state is unchanged. -/
def Obligations.RegisterWriteReadsBack : Prop :=
  ∀ (s : State) (off : BitVec 32) (v : Word) (rest : List Event),
    off = 0x000#32 ∨ off = 0x010#32 ∨ off = 0x014#32 ∨ off = 0x018#32 →
    s.inbox = .write off 4 v :: rest → s.seq.phase = .idle →
    ∃ t, step s = .next t ∧ portRead t off = v ∧ (∀ off', off' ≠ off → portRead t off' = portRead s off') ∧
      t = { s with ctrl := t.ctrl, keySize := t.keySize, ivSize := t.ivSize, dataSize := t.dataSize, inbox := rest }

/-- R27, R263: in IDLE a push appends its word to its queue while the queue holds fewer words than its capacity, and is dropped
when the queue is full; nothing else changes, and the push ports read 0. -/
def Obligations.PushAppendsWhileRoom : Prop :=
  ∀ (s : State) (v : Word) (rest : List Event), s.seq.phase = .idle →
    (s.inbox = .write 0x020#32 4 v :: rest → step s = .next { s with
      keyq := if s.keyq.length < 4 then s.keyq ++ [v] else s.keyq, inbox := rest }) ∧
    (s.inbox = .write 0x024#32 4 v :: rest → step s = .next { s with
      ivq := if s.ivq.length < 4 then s.ivq ++ [v] else s.ivq, inbox := rest }) ∧
    (s.inbox = .write 0x028#32 4 v :: rest → step s = .next { s with
      dataq := if s.dataq.length < Config.dataCapWords then s.dataq ++ [v] else s.dataq, inbox := rest }) ∧
    portRead s 0x020#32 = 0#32 ∧ portRead s 0x024#32 = 0#32 ∧ portRead s 0x028#32 = 0#32

/-- R262, R268, R67: outside IDLE every aligned 32-bit write but one to CMD is ignored; in every state a write to a read-only
register or an unmapped offset, and a word written to CMD that is neither 1 nor 2, are ignored. -/
def Obligations.IgnoredWrites : Prop :=
  ∀ (s : State) (off : BitVec 32) (v : Word) (rest : List Event), s.inbox = .write off 4 v :: rest → off.toNat % 4 = 0 →
    (s.seq.phase ≠ .idle ∧ off ≠ 0x004#32 ∨
      off ∈ [0x008#32, 0x00C#32, 0x01C#32, 0x02C#32, 0x030#32, 0x034#32, 0x038#32, 0x03C#32] ∨ 0x040 ≤ off.toNat ∨
      off = 0x004#32 ∧ v ≠ 1#32 ∧ v ≠ 2#32) →
    step s = .next { s with inbox := rest }

/-- R262, R266, R267: while a request runs no aligned 32-bit access of the host, a command included, changes the state of the
hardware. (`inbox` and `replies` are the model's own, log entry 1.) -/
def Obligations.BusyIgnoresTheHost : Prop :=
  ∀ (s : State) (e : Event) (rest : List Event), s.seq.phase.busy = true → s.inbox = e :: rest → e.isAccess = true →
    e.Carried → ∃ rs, step s = .next { s with inbox := rest, replies := rs }

/-- R286, R267: the only ways out of ERROR, and out of DONE, are CLEAR and RESET, and both lead to the reset state; every other
step leaves the hardware's state as it is. -/
def Obligations.OnlyClearEndsARequest : Prop :=
  ∀ s t : State, s.seq.phase = .error ∨ s.seq.phase = .done → step s = .next t →
    (t = { s with inbox := t.inbox, replies := t.replies }) ∨
      (t = { State.reset with inbox := t.inbox, replies := t.replies } ∧
        ∃ e rest, s.inbox = e :: rest ∧ (e = .reset ∨ e = .write 0x004#32 4 2#32))

/-- R26, R30, R24: in DONE `OUT_SIZE` reads the response's length and `OUT_WORDS` the words that length takes, which in the states of
the invariant are those the output buffer holds; `OUT[k]` reads word `k` for `k` below `OUT_WORDS`, and 0 from there to the end
of the window. Outside DONE the response registers and the whole window read 0. `ERR` reads `CODE`, zero-extended, in ERROR
and 0 outside it. -/
def Obligations.ResponseRegisters : Prop :=
  ∀ s : State,
    (s.seq.phase = .done →
      portRead s 0x01C#32 = s.outSize ∧ portRead s 0x02C#32 = BitVec.ofNat 32 (cdiv (cdiv s.outSize.toNat 8) 4)) ∧
    (s.Inv → s.seq.phase = .done → s.outq.length = cdiv (cdiv s.outSize.toNat 8) 4 ∧
      ∀ k, k < Config.outCapWords →
        portRead s (BitVec.ofNat 32 (0x1000 + 4 * k)) = if h : k < s.outq.length then s.outq[k] else 0#32) ∧
    (s.seq.phase ≠ .done → portRead s 0x01C#32 = 0#32 ∧ portRead s 0x02C#32 = 0#32 ∧
      ∀ off : BitVec 32, 0x1000 ≤ off.toNat → portRead s off = 0#32) ∧
    (s.seq.phase = .error → portRead s 0x00C#32 = s.errCode.setWidth 32) ∧
    (s.seq.phase ≠ .error → portRead s 0x00C#32 = 0#32)

/-- R284, R280: error entry records the code, discards the response, zeroes the working registers and leaves the sequencer at
`(ERROR, 0)`, so that `STATUS` reads ERROR and `ERR` the code; `CTRL`, the size registers, the queues and every other register
keep their values. The codes are those of R280: a request raises only the codes 1 to 4, and `ERR` reads 0 outside ERROR. -/
def Obligations.RaiseAsTheHostSeesIt : Prop :=
  (∀ (e : ErrKind) (s : State),
    raise e s = { s with errCode := e.code, outq := [], outSize := 0#32, work := Work.zero, seq := ⟨.error, 0#32⟩ } ∧
    portRead (raise e s) 0x008#32 = 3#32 ∧ portRead (raise e s) 0x00C#32 = e.code.setWidth 32 ∧
    portRead (raise e s) 0x01C#32 = 0#32 ∧ portRead (raise e s) 0x02C#32 = 0#32 ∧
    (∀ off : BitVec 32, 0x1000 ≤ off.toNat → portRead (raise e s) off = 0#32) ∧
    ∀ off : BitVec 32, off.toNat < 0x1000 → off ∉ [0x008#32, 0x00C#32, 0x01C#32, 0x02C#32] →
      portRead (raise e s) off = portRead s off) ∧
  ErrKind.malformedInput.code = 1#8 ∧ ErrKind.invalidKeyOrBlockSize.code = 2#8 ∧ ErrKind.unsupportedConfiguration.code = 3#8 ∧
    ErrKind.paddingError.code = 4#8 ∧ ErrKind.invalidIVSize.code = 5#8 ∧ ErrKind.unsupportedImageFormat.code = 6#8 ∧
  (∀ (S : Suite) (w : Word) (q : Request) (e : ErrKind), run S w q = .error e → 1 ≤ e.code.toNat ∧ e.code.toNat ≤ 4) ∧
  ∀ s : State, s.seq.phase ≠ .error → portRead s 0x00C#32 = 0#32

/-- R261: key, IV and data words and the working registers are never readable: two states that agree on everything else and on
the lengths of the queues read alike at every offset. -/
def Obligations.SecretsUnreadable : Prop :=
  ∀ s t : State, s.keyq.length = t.keyq.length → s.ivq.length = t.ivq.length → s.dataq.length = t.dataq.length →
    t = { s with keyq := t.keyq, ivq := t.ivq, dataq := t.dataq, work := t.work } →
    ∀ off, portRead t off = portRead s off

/-! ### The invariant -/

/-- The machine right after reset has the invariant (R50). -/
def Obligations.ResetHasInv : Prop := State.reset.Inv

/-- Every step keeps the invariant: queues within their capacities (R28), working registers zero outside BUSY (R34), `BLK` in range
(R40), no response outside DONE and one that fits the output buffer in DONE (R26, R32), `ERR.CODE` 0 outside ERROR and 1 to 4 in
it (R24, R282), and in every phase after VALIDATE a legal control word, a key and an IV of the widths it needs, and valid
BitValues of admissible lengths in `IBUF` and `OBUF` (R231 to R236, R9). -/
def Obligations.StepKeepsInv : Prop :=
  ∀ s t : State, s.Inv → step s = .next t → t.Inv

/-- From a state with the invariant the machine always has a next step, unless the event to come is an access the port does not
carry (R260: the core never stalls or refuses an aligned 32-bit access). (The events are the model's own,
log entry 1.) -/
def Obligations.InvStatesStep : Prop :=
  ∀ s : State, s.Inv → (∀ e rest, s.inbox = e :: rest → e.Carried) → ∃ t, step s = .next t
end

