-- ==== Sys2Proof/Laws/BitValue.lean ====
section
/-! SUPPORT. The arithmetic of BitValues: the integer of a sequence of limbs bit by bit, its bound, and the bytes and words of a
BitValue. -/
namespace Sys2Proof.Machine

/-- The integer of a limb sequence, least significant limb first: the common shape of `bytesToNat`, `wordsToNat` and
`blocksToNat`. -/
def limbsToNat {w : Nat} (ls : List (BitVec w)) : Nat :=
  ls.foldr (fun b acc => b.toNat + 2 ^ w * acc) 0

@[simp] theorem limbsToNat_nil {w : Nat} : limbsToNat ([] : List (BitVec w)) = 0 := rfl

@[simp] theorem limbsToNat_cons {w : Nat} (b : BitVec w) (ls : List (BitVec w)) :
    limbsToNat (b :: ls) = b.toNat + 2 ^ w * limbsToNat ls := rfl

theorem bytesToNat_eq_limbs (bs : List Byte) : bytesToNat bs = limbsToNat bs := rfl

theorem wordsToNat_eq_limbs (ws : List Word) : wordsToNat ws = limbsToNat ws := rfl

theorem blocksToNat_eq_limbs {B : Nat} (ys : List (BitVec B)) : blocksToNat ys = limbsToNat ys := rfl

/-- Bit `i` of the integer of a limb sequence is bit `i mod w` of limb `i div w` (R9, R65). -/
theorem testBit_limbsToNat {w : Nat} (hw : 0 < w) (ls : List (BitVec w)) (i : Nat) :
    (limbsToNat ls).testBit i = (ls.getD (i / w) 0#w).getLsbD (i % w) := by
  induction ls generalizing i with
  | nil => simp
  | cons b ls ih =>
    rw [limbsToNat_cons, Nat.add_comm, Nat.testBit_two_pow_mul_add _ b.isLt]
    by_cases h : i < w
    · simp [h, Nat.div_eq_of_lt h, Nat.mod_eq_of_lt h, BitVec.getLsbD]
    · have hle : w ≤ i := Nat.le_of_not_lt h
      rw [if_neg h, ih, Nat.div_eq_sub_div hw hle, Nat.mod_eq_sub_mod hle]
      simp

/-- The integer of `m` limbs is below `2^(w·m)`. -/
theorem limbsToNat_lt {w : Nat} (ls : List (BitVec w)) : limbsToNat ls < 2 ^ (w * ls.length) := by
  induction ls with
  | nil => simp
  | cons b ls ih =>
    have hb := b.isLt
    calc b.toNat + 2 ^ w * limbsToNat ls
        < 2 ^ w + 2 ^ w * limbsToNat ls := by omega
      _ = 2 ^ w * (limbsToNat ls + 1) := by rw [Nat.mul_add, Nat.mul_one, Nat.add_comm]
      _ ≤ 2 ^ w * 2 ^ (w * ls.length) := Nat.mul_le_mul_left _ ih
      _ = 2 ^ (w * (b :: ls).length) := by rw [← pow_add, List.length_cons, Nat.mul_succ, Nat.add_comm]

/-- A number below `2^n` is known by its bits below `n`. -/
theorem eq_of_testBit_lt {x y n : Nat} (hx : x < 2 ^ n) (hy : y < 2 ^ n)
    (h : ∀ i, i < n → x.testBit i = y.testBit i) : x = y := by
  refine Nat.eq_of_testBit_eq fun i => ?_
  by_cases hi : i < n
  · exact h i hi
  · have hle : 2 ^ n ≤ 2 ^ i := Nat.pow_le_pow_right (by decide) (Nat.le_of_not_lt hi)
    rw [Nat.testBit_lt_two_pow (hx.trans_le hle), Nat.testBit_lt_two_pow (hy.trans_le hle)]

/-- Limbs read off an integer give back the integer, when they reach all its bits. -/
theorem limbsToNat_map_shift {w n m x : Nat} (hw : 0 < w) (hx : x < 2 ^ n) (hm : n ≤ w * m) :
    limbsToNat ((List.range m).map fun i => BitVec.ofNat w (x >>> (w * i))) = x := by
  refine Nat.eq_of_testBit_eq fun i => ?_
  rw [testBit_limbsToNat hw]
  have hmod : i % w < w := Nat.mod_lt _ hw
  by_cases h : i / w < m
  · have hi : w * (i / w) + i % w = i := Nat.div_add_mod i w
    have hg : ((List.range m).map fun i => BitVec.ofNat w (x >>> (w * i))).getD (i / w) 0#w =
        BitVec.ofNat w (x >>> (w * (i / w))) := by simp [h]
    rw [hg, BitVec.getLsbD_ofNat, Nat.testBit_shiftRight, hi, decide_eq_true hmod, Bool.true_and]
  · have hle : n ≤ i := hm.trans ((Nat.mul_le_mul_left w (Nat.le_of_not_lt h)).trans (Nat.mul_div_le i w))
    have hxi : x < 2 ^ i := hx.trans_le (Nat.pow_le_pow_right (by decide) hle)
    simp [h, Nat.testBit_lt_two_pow hxi]

/-- The limbs of the integer of a limb sequence are the limbs. -/
theorem ofNat_shift_limbsToNat {w : Nat} (hw : 0 < w) (ls : List (BitVec w)) (i : Nat) :
    BitVec.ofNat w (limbsToNat ls >>> (w * i)) = ls.getD i 0#w := by
  refine BitVec.eq_of_getLsbD_eq fun j hj => ?_
  have h1 : (w * i + j) / w = i := by rw [Nat.mul_add_div hw, Nat.div_eq_of_lt hj, Nat.add_zero]
  have h2 : (w * i + j) % w = j := by rw [Nat.mul_add_mod, Nat.mod_eq_of_lt hj]
  simp only [BitVec.getLsbD_ofNat, hj, decide_true, Bool.true_and, Nat.testBit_shiftRight]
  rw [testBit_limbsToNat hw, h1, h2]

/-! #### Counts of bytes and words -/

theorem byteCount_eq (n : Nat) : byteCount n = (n + 7) / 8 := rfl

theorem wordCount_eq (n : Nat) : wordCount n = ((n + 7) / 8 + 3) / 4 := rfl

theorem le_byteCount (n : Nat) : n ≤ 8 * byteCount n := by
  rw [byteCount_eq]; omega

theorem le_wordCount (n : Nat) : n ≤ 32 * wordCount n := by
  rw [wordCount_eq]; omega

theorem wordCount_le {n m : Nat} (h : n ≤ 32 * m) : wordCount n ≤ m := by
  rw [wordCount_eq]; omega

theorem le_of_wordCount_le {n m : Nat} (h : wordCount n ≤ m) : n ≤ 32 * m := by
  have := le_wordCount n; omega

/-! #### The bytes of a BitValue -/

@[simp] theorem bytes_length (v : BitValue) : v.bytes.length = byteCount v.len := by
  simp [BitValue.bytes]

@[simp] theorem ofBytes_len (bs : List Byte) : (BitValue.ofBytes bs).len = 8 * bs.length := rfl

@[simp] theorem ofBytes_val (bs : List Byte) : (BitValue.ofBytes bs).val = bytesToNat bs := rfl

/-- A BitValue made of bytes has no bit at or above its length (R9). -/
theorem ofBytes_valid (bs : List Byte) : (BitValue.ofBytes bs).Valid :=
  limbsToNat_lt bs

theorem byteCount_mul (m : Nat) : byteCount (8 * m) = m := by
  rw [byteCount_eq]; omega

/-- The bytes of a BitValue made of bytes are those bytes. -/
theorem bytes_ofBytes (bs : List Byte) : (BitValue.ofBytes bs).bytes = bs := by
  refine List.ext_getElem (by simp [byteCount_mul]) fun i h1 h2 => ?_
  have := ofNat_shift_limbsToNat (by decide : 0 < 8) bs i
  simp only [BitValue.bytes, ofBytes_val, bytesToNat_eq_limbs, List.getElem_map, List.getElem_range, this]
  simp [h2]

/-- A valid BitValue of whole bytes is made of its bytes. -/
theorem ofBytes_bytes {v : BitValue} (hv : v.Valid) (h8 : v.len % 8 = 0) : BitValue.ofBytes v.bytes = v := by
  cases v with
  | mk n x =>
    have hn : 8 * byteCount n = n := by rw [byteCount_eq]; simp only at h8; omega
    have hx : bytesToNat (BitValue.mk n x).bytes = x :=
      limbsToNat_map_shift (w := 8) (by decide) hv (le_byteCount n)
    simp only [BitValue.ofBytes, bytes_length, hn, hx]

/-! #### The words of a BitValue -/

@[simp] theorem encodeWords_length (v : BitValue) : (encodeWords v).length = wordCount v.len := by
  simp [encodeWords]

/-- The integer of the words of a valid BitValue is its integer. -/
theorem wordsToNat_encodeWords {v : BitValue} (hv : v.Valid) : wordsToNat (encodeWords v) = v.val :=
  limbsToNat_map_shift (w := 32) (by decide) hv (le_wordCount v.len)

/-- `decode` succeeds exactly when the words suffice, and then with the stated length and the integer of the words needed,
reduced to that length (R121). -/
theorem decodeWords_eq_some {ws : List Word} {n : Nat} {v : BitValue} :
    decodeWords ws n = some v ↔
      wordCount n ≤ ws.length ∧ v = ⟨n, wordsToNat (ws.take (wordCount n)) % 2 ^ n⟩ := by
  unfold decodeWords
  split
  · rename_i h
    simp [Nat.not_le.2 h]
  · rename_i h
    simp [Nat.le_of_not_lt h, eq_comm]

/-- What `decode` returns is a valid BitValue (R9, R121). -/
theorem decodeWords_valid {ws : List Word} {n : Nat} {v : BitValue} (h : decodeWords ws n = some v) : v.Valid := by
  obtain ⟨-, rfl⟩ := decodeWords_eq_some.1 h
  exact Nat.mod_lt _ (Nat.two_pow_pos n)

/-- What `decode` returns has the length asked for (R121, R123). -/
theorem decodeWords_len {ws : List Word} {n : Nat} {v : BitValue} (h : decodeWords ws n = some v) : v.len = n := by
  obtain ⟨-, rfl⟩ := decodeWords_eq_some.1 h
  rfl

end Sys2Proof.Machine
end

