-- ==== Sys2Proof/Laws/Blocks.lean ====
section
/-! SUPPORT. Slicing and joining blocks (spec/43_modes.md R200): reading one block, storing one block, and the block sequence of a
BitValue. -/
namespace Sys2Proof.Machine

/-- Bit `j` of block `i` is bit `i·B + j` of the integer (R200). -/
theorem getLsbD_blockAt (B x i j : Nat) : (blockAt B x i).getLsbD j = (decide (j < B) && x.testBit (i * B + j)) := by
  simp [blockAt, BitVec.getLsbD_ofNat, Nat.testBit_shiftRight]

/-- Block `i` of the integer of a block sequence is its `i`-th block. -/
theorem blockAt_blocksToNat {B : Nat} (hB : 0 < B) (ys : List (BitVec B)) (i : Nat) :
    blockAt B (blocksToNat ys) i = ys.getD i 0#B := by
  rw [blockAt, Nat.mul_comm i B, blocksToNat_eq_limbs]
  exact ofNat_shift_limbsToNat hB ys i

@[simp] theorem sliceBlocks_length (B : Nat) (v : BitValue) : (sliceBlocks B v).length = v.len / B := by
  simp [sliceBlocks]

@[simp] theorem joinBlocks_len {B : Nat} (ys : List (BitVec B)) : (joinBlocks ys).len = ys.length * B := rfl

@[simp] theorem joinBlocks_val {B : Nat} (ys : List (BitVec B)) : (joinBlocks ys).val = blocksToNat ys := rfl

/-- A joined BitValue has no bit at or above its length (R9). -/
theorem joinBlocks_valid {B : Nat} (ys : List (BitVec B)) : (joinBlocks ys).Valid := by
  have := limbsToNat_lt ys
  simpa [BitValue.Valid, blocksToNat_eq_limbs, Nat.mul_comm] using this

/-- Slicing a joined block sequence gives the blocks back. -/
theorem sliceBlocks_joinBlocks {B : Nat} (hB : 0 < B) (ys : List (BitVec B)) : sliceBlocks B (joinBlocks ys) = ys := by
  refine List.ext_getElem (by simp [Nat.mul_div_cancel _ hB]) fun i h1 h2 => ?_
  simp [sliceBlocks, blockAt_blocksToNat hB, h2]

/-- Joining the blocks of a valid BitValue of whole blocks gives the BitValue back. -/
theorem joinBlocks_sliceBlocks {B : Nat} (hB : 0 < B) {v : BitValue} (hv : v.Valid) (hn : v.len % B = 0) :
    joinBlocks (sliceBlocks B v) = v := by
  cases v with
  | mk n x =>
    have hm : n / B * B = n := Nat.div_mul_cancel (Nat.dvd_of_mod_eq_zero hn)
    have hs : sliceBlocks B ⟨n, x⟩ = (List.range (n / B)).map fun i => BitVec.ofNat B (x >>> (B * i)) := by
      simp [sliceBlocks, blockAt, Nat.mul_comm]
    have hx : blocksToNat (sliceBlocks B ⟨n, x⟩) = x := by
      rw [hs, blocksToNat_eq_limbs]
      exact limbsToNat_map_shift hB hv (by rw [Nat.mul_comm, hm])
    simp only [joinBlocks, sliceBlocks_length, hm, hx]

/-- The bits of an integer after block `i` is stored: those of the block in its place, the old ones elsewhere (R200). -/
theorem testBit_putBlock (B x i : Nat) (y : BitVec B) (k : Nat) :
    (putBlock B x i y).testBit k =
      if i * B ≤ k ∧ k < (i + 1) * B then y.getLsbD (k - i * B) else x.testBit k := by
  have h1 : x % 2 ^ (i * B) < 2 ^ (i * B) := Nat.mod_lt _ (Nat.two_pow_pos _)
  have hs : (i + 1) * B = i * B + B := Nat.succ_mul i B
  rw [putBlock, Nat.add_comm, Nat.testBit_two_pow_mul_add _ h1]
  by_cases hk : k < i * B
  · have : ¬ (i * B ≤ k ∧ k < (i + 1) * B) := by omega
    simp [hk, this, Nat.testBit_mod_two_pow]
  · rw [if_neg hk, Nat.add_comm y.toNat, Nat.testBit_two_pow_mul_add _ y.isLt]
    by_cases hk2 : k - i * B < B
    · have : i * B ≤ k ∧ k < (i + 1) * B := by omega
      simp [hk2, this, BitVec.getLsbD]
    · have h3 : ¬ (i * B ≤ k ∧ k < (i + 1) * B) := by omega
      have h4 : (i + 1) * B + (k - i * B - B) = k := by omega
      simp [hk2, h3, Nat.testBit_shiftRight, h4]

/-- A block just stored reads back. -/
theorem blockAt_putBlock_self (B x i : Nat) (y : BitVec B) : blockAt B (putBlock B x i y) i = y := by
  refine BitVec.eq_of_getLsbD_eq fun j hj => ?_
  have : i * B ≤ i * B + j ∧ i * B + j < (i + 1) * B := by rw [Nat.succ_mul]; omega
  rw [getLsbD_blockAt, testBit_putBlock, if_pos this, decide_eq_true hj, Bool.true_and, Nat.add_sub_cancel_left]

/-- Storing a block leaves every other block as it was. -/
theorem blockAt_putBlock_other (B x : Nat) {i j : Nat} (hij : j ≠ i) (y : BitVec B) :
    blockAt B (putBlock B x i y) j = blockAt B x j := by
  refine BitVec.eq_of_getLsbD_eq fun k hk => ?_
  have : ¬ (i * B ≤ j * B + k ∧ j * B + k < (i + 1) * B) := by
    rintro ⟨h1, h2⟩
    rcases Nat.lt_or_gt_of_ne hij with h | h
    · have : (j + 1) * B ≤ i * B := Nat.mul_le_mul_right B h
      rw [Nat.succ_mul] at this
      omega
    · have : (i + 1) * B ≤ j * B := Nat.mul_le_mul_right B h
      omega
  rw [getLsbD_blockAt, getLsbD_blockAt, testBit_putBlock, if_neg this]

/-- Storing the block after the last of an integer appends it. -/
theorem putBlock_append {B : Nat} (ys : List (BitVec B)) (y : BitVec B) (x : Nat) (hx : x = blocksToNat ys) :
    putBlock B x ys.length y = blocksToNat (ys ++ [y]) := by
  by_cases hB : 0 < B
  · refine Nat.eq_of_testBit_eq fun k => ?_
    rw [testBit_putBlock, hx, blocksToNat_eq_limbs, blocksToNat_eq_limbs, testBit_limbsToNat hB, testBit_limbsToNat hB]
    by_cases h : ys.length * B ≤ k ∧ k < (ys.length + 1) * B
    · have hq : k / B = ys.length := by
        rw [Nat.div_eq_iff hB]; rw [Nat.succ_mul] at h; constructor <;> [omega; omega]
      have hr : k % B = k - ys.length * B := by
        have := Nat.div_add_mod k B; rw [hq, Nat.mul_comm] at this; omega
      simp [h, hq, hr]
    · rw [if_neg h]
      by_cases h1 : k < ys.length * B
      · have hq : k / B < ys.length := (Nat.div_lt_iff_lt_mul hB).2 h1
        simp [List.getElem?_append, hq]
      · have hq : ys.length + 1 ≤ k / B := (Nat.le_div_iff_mul_le hB).2 (by omega)
        have hq1 : ¬ k / B < ys.length := by omega
        have hq2 : ys.length ≤ k / B := by omega
        have hq3 : k / B - ys.length ≠ 0 := by omega
        simp [List.getElem?_append, hq1, hq3]
  · have : B = 0 := by omega
    subst this
    have h0 : ∀ zs : List (BitVec 0), blocksToNat zs = 0 := fun zs => by
      have := limbsToNat_lt zs
      rw [blocksToNat_eq_limbs]; simp at this; exact this
    have hy := y.isLt
    simp [putBlock, hx, h0, Nat.mod_one] at hy ⊢
    omega

/-- Storing a block keeps an integer within the blocks stored so far. -/
theorem putBlock_lt {B x i : Nat} (hx : x < 2 ^ (i * B)) (y : BitVec B) : putBlock B x i y < 2 ^ ((i + 1) * B) := by
  have hs : (i + 1) * B = i * B + B := Nat.succ_mul i B
  have hz : x >>> ((i + 1) * B) = 0 := by
    rw [Nat.shiftRight_eq_div_pow]
    exact Nat.div_eq_of_lt (hx.trans_le (Nat.pow_le_pow_right (by decide) (by omega)))
  have hy := y.isLt
  have hp := Nat.two_pow_pos (i * B)
  rw [putBlock, hz, Nat.mod_eq_of_lt hx, hs, pow_add]
  calc x + 2 ^ (i * B) * (y.toNat + 2 ^ B * 0) < 2 ^ (i * B) + 2 ^ (i * B) * y.toNat := by
        rw [Nat.mul_zero, Nat.add_zero]; omega
    _ = 2 ^ (i * B) * (y.toNat + 1) := by ring
    _ ≤ 2 ^ (i * B) * 2 ^ B := Nat.mul_le_mul_left _ hy

end Sys2Proof.Machine
end

