-- ==== Sys2Proof/Laws/Decode.lean ====
section
/-! SUPPORT. The fields of a control word and the bytes of a word (spec/30_encoding.md R90 to R92, spec/00_scope.md R10). -/
namespace Sys2Proof

/-- A word is made of its four bytes (R10, R65 a). -/
@[simp] theorem wordOfBytes_extract (w : Word) :
    wordOfBytes (w.extractLsb' 0 8) (w.extractLsb' 8 8) (w.extractLsb' 16 8) (w.extractLsb' 24 8) = w := by
  unfold wordOfBytes
  refine BitVec.eq_of_getLsbD_eq fun i hi => ?_
  simp only [BitVec.getLsbD_append, BitVec.getLsbD_extractLsb']
  rcases (by omega : i < 8 ∨ (8 ≤ i ∧ i < 16) ∨ (16 ≤ i ∧ i < 24) ∨ 24 ≤ i) with h | h | h | h
  · simp [h]
  · have h0 : ¬ i < 8 := by omega
    have h1 : i - 8 < 8 := by omega
    have h2 : 8 + (i - 8) = i := by omega
    simp [h0, h1, h2]
  · have h0 : ¬ i < 8 := by omega
    have h1 : ¬ i - 8 < 8 := by omega
    have h2 : i - 8 - 8 < 8 := by omega
    have h3 : 16 + (i - 8 - 8) = i := by omega
    simp [h0, h1, h2, h3]
  · have h0 : ¬ i < 8 := by omega
    have h1 : ¬ i - 8 < 8 := by omega
    have h2 : ¬ i - 8 - 8 < 8 := by omega
    have h3 : i - 8 - 8 - 8 < 8 := by omega
    have h4 : 24 + (i - 8 - 8 - 8) = i := by omega
    simp [h0, h1, h2, h3, h4]

/-- What decodes a cipher code encodes to it (R91). -/
theorem encodeCipher_of_decode {f : BitVec 2} {c : Cipher} (h : decodeCipher f = some c) : encodeCipher c = f := by
  revert f
  cases c <;> decide

/-- What decodes a mode code encodes to it (R91). -/
theorem encodeMode_of_decode {f : BitVec 2} {m : Mode} (h : decodeMode f = some m) : encodeMode m = f := by
  revert f
  cases m <;> decide

@[simp] theorem encodeScheme_decode (f : BitVec 2) : encodeScheme (decodeScheme f) = f := by
  revert f
  decide

@[simp] theorem encodeDirection_decode (f : BitVec 1) : encodeDirection (decodeDirection f) = f := by
  revert f
  decide

/-- The fields of the control word that the encoder writes (R90, R91). -/
@[simp] theorem decodeControl_encodeControl (k : Control) : decodeControl (encodeControl k) = .ok k := by
  have h7 : (encodeControl k).extractLsb' 7 25 = 0#25 := by
    obtain ⟨c, m, p, d⟩ := k
    cases c <;> cases m <;> cases p <;> cases d <;> decide
  have h0 : decodeCipher ((encodeControl k).extractLsb' 0 2) = some k.cipher := by
    obtain ⟨c, m, p, d⟩ := k
    cases c <;> cases m <;> cases p <;> cases d <;> decide
  have h2 : decodeMode ((encodeControl k).extractLsb' 2 2) = some k.mode := by
    obtain ⟨c, m, p, d⟩ := k
    cases c <;> cases m <;> cases p <;> cases d <;> decide
  have h4 : decodeScheme ((encodeControl k).extractLsb' 4 2) = k.padding := by
    obtain ⟨c, m, p, d⟩ := k
    cases c <;> cases m <;> cases p <;> cases d <;> decide
  have h6 : decodeDirection ((encodeControl k).extractLsb' 6 1) = k.dir := by
    obtain ⟨c, m, p, d⟩ := k
    cases c <;> cases m <;> cases p <;> cases d <;> decide
  unfold decodeControl
  rw [if_pos h7, h0, h2, h4, h6]

end Sys2Proof
end

