-- ==== Sys2Proof/Laws/State.lean ====
section
/-! SUPPORT. One lemma per field per named update of the state, true by definition, so that no later proof unfolds a record
update. -/
namespace Sys2Proof.Machine

/-! #### `raise` -/

@[simp] theorem raise_ctrl (e : ErrKind) (s : State) : (raise e s).ctrl = s.ctrl := rfl
@[simp] theorem raise_errCode (e : ErrKind) (s : State) : (raise e s).errCode = e.code := rfl
@[simp] theorem raise_keySize (e : ErrKind) (s : State) : (raise e s).keySize = s.keySize := rfl
@[simp] theorem raise_ivSize (e : ErrKind) (s : State) : (raise e s).ivSize = s.ivSize := rfl
@[simp] theorem raise_dataSize (e : ErrKind) (s : State) : (raise e s).dataSize = s.dataSize := rfl
@[simp] theorem raise_outSize (e : ErrKind) (s : State) : (raise e s).outSize = 0#32 := rfl
@[simp] theorem raise_keyq (e : ErrKind) (s : State) : (raise e s).keyq = s.keyq := rfl
@[simp] theorem raise_ivq (e : ErrKind) (s : State) : (raise e s).ivq = s.ivq := rfl
@[simp] theorem raise_dataq (e : ErrKind) (s : State) : (raise e s).dataq = s.dataq := rfl
@[simp] theorem raise_outq (e : ErrKind) (s : State) : (raise e s).outq = [] := rfl
@[simp] theorem raise_work (e : ErrKind) (s : State) : (raise e s).work = Work.zero := rfl
@[simp] theorem raise_seq (e : ErrKind) (s : State) : (raise e s).seq = ⟨.error, 0#32⟩ := rfl
@[simp] theorem raise_inbox (e : ErrKind) (s : State) : (raise e s).inbox = s.inbox := rfl
@[simp] theorem raise_replies (e : ErrKind) (s : State) : (raise e s).replies = s.replies := rfl

/-! #### `clearAll` -/

@[simp] theorem clearAll_ctrl (s : State) : (clearAll s).ctrl = State.reset.ctrl := rfl
@[simp] theorem clearAll_errCode (s : State) : (clearAll s).errCode = State.reset.errCode := rfl
@[simp] theorem clearAll_keySize (s : State) : (clearAll s).keySize = State.reset.keySize := rfl
@[simp] theorem clearAll_ivSize (s : State) : (clearAll s).ivSize = State.reset.ivSize := rfl
@[simp] theorem clearAll_dataSize (s : State) : (clearAll s).dataSize = State.reset.dataSize := rfl
@[simp] theorem clearAll_outSize (s : State) : (clearAll s).outSize = State.reset.outSize := rfl
@[simp] theorem clearAll_keyq (s : State) : (clearAll s).keyq = State.reset.keyq := rfl
@[simp] theorem clearAll_ivq (s : State) : (clearAll s).ivq = State.reset.ivq := rfl
@[simp] theorem clearAll_dataq (s : State) : (clearAll s).dataq = State.reset.dataq := rfl
@[simp] theorem clearAll_outq (s : State) : (clearAll s).outq = State.reset.outq := rfl
@[simp] theorem clearAll_work (s : State) : (clearAll s).work = State.reset.work := rfl
@[simp] theorem clearAll_seq (s : State) : (clearAll s).seq = State.reset.seq := rfl
@[simp] theorem clearAll_inbox (s : State) : (clearAll s).inbox = s.inbox := rfl
@[simp] theorem clearAll_replies (s : State) : (clearAll s).replies = s.replies := rfl

/-! #### `publish` -/

@[simp] theorem publish_ctrl (v : BitValue) (s : State) : (publish v s).ctrl = s.ctrl := rfl
@[simp] theorem publish_errCode (v : BitValue) (s : State) : (publish v s).errCode = s.errCode := rfl
@[simp] theorem publish_keySize (v : BitValue) (s : State) : (publish v s).keySize = s.keySize := rfl
@[simp] theorem publish_ivSize (v : BitValue) (s : State) : (publish v s).ivSize = s.ivSize := rfl
@[simp] theorem publish_dataSize (v : BitValue) (s : State) : (publish v s).dataSize = s.dataSize := rfl
@[simp] theorem publish_outSize (v : BitValue) (s : State) : (publish v s).outSize = BitVec.ofNat 32 v.len := rfl
@[simp] theorem publish_keyq (v : BitValue) (s : State) : (publish v s).keyq = s.keyq := rfl
@[simp] theorem publish_ivq (v : BitValue) (s : State) : (publish v s).ivq = s.ivq := rfl
@[simp] theorem publish_dataq (v : BitValue) (s : State) : (publish v s).dataq = s.dataq := rfl
@[simp] theorem publish_outq (v : BitValue) (s : State) : (publish v s).outq = encodeWords v := rfl
@[simp] theorem publish_work (v : BitValue) (s : State) : (publish v s).work = s.work := rfl
@[simp] theorem publish_seq (v : BitValue) (s : State) : (publish v s).seq = s.seq := rfl
@[simp] theorem publish_inbox (v : BitValue) (s : State) : (publish v s).inbox = s.inbox := rfl
@[simp] theorem publish_replies (v : BitValue) (s : State) : (publish v s).replies = s.replies := rfl

/-! #### `complete` -/

@[simp] theorem complete_ctrl (s : State) : (complete s).ctrl = s.ctrl := rfl
@[simp] theorem complete_errCode (s : State) : (complete s).errCode = 0#8 := rfl
@[simp] theorem complete_keySize (s : State) : (complete s).keySize = s.keySize := rfl
@[simp] theorem complete_ivSize (s : State) : (complete s).ivSize = s.ivSize := rfl
@[simp] theorem complete_dataSize (s : State) : (complete s).dataSize = s.dataSize := rfl
@[simp] theorem complete_outSize (s : State) : (complete s).outSize = s.outSize := rfl
@[simp] theorem complete_keyq (s : State) : (complete s).keyq = s.keyq := rfl
@[simp] theorem complete_ivq (s : State) : (complete s).ivq = s.ivq := rfl
@[simp] theorem complete_dataq (s : State) : (complete s).dataq = s.dataq := rfl
@[simp] theorem complete_outq (s : State) : (complete s).outq = s.outq := rfl
@[simp] theorem complete_work (s : State) : (complete s).work = Work.zero := rfl
@[simp] theorem complete_seq (s : State) : (complete s).seq = ⟨.done, 0#32⟩ := rfl
@[simp] theorem complete_inbox (s : State) : (complete s).inbox = s.inbox := rfl
@[simp] theorem complete_replies (s : State) : (complete s).replies = s.replies := rfl

/-! #### `acceptStart` -/

@[simp] theorem acceptStart_ctrl (s : State) : (acceptStart s).ctrl = s.ctrl := rfl
@[simp] theorem acceptStart_errCode (s : State) : (acceptStart s).errCode = s.errCode := rfl
@[simp] theorem acceptStart_keySize (s : State) : (acceptStart s).keySize = s.keySize := rfl
@[simp] theorem acceptStart_ivSize (s : State) : (acceptStart s).ivSize = s.ivSize := rfl
@[simp] theorem acceptStart_dataSize (s : State) : (acceptStart s).dataSize = s.dataSize := rfl
@[simp] theorem acceptStart_outSize (s : State) : (acceptStart s).outSize = s.outSize := rfl
@[simp] theorem acceptStart_keyq (s : State) : (acceptStart s).keyq = s.keyq := rfl
@[simp] theorem acceptStart_ivq (s : State) : (acceptStart s).ivq = s.ivq := rfl
@[simp] theorem acceptStart_dataq (s : State) : (acceptStart s).dataq = s.dataq := rfl
@[simp] theorem acceptStart_outq (s : State) : (acceptStart s).outq = s.outq := rfl
@[simp] theorem acceptStart_work (s : State) : (acceptStart s).work = { s.work with ctrll := s.ctrl } := rfl
@[simp] theorem acceptStart_seq (s : State) : (acceptStart s).seq = ⟨.validate, 0#32⟩ := rfl
@[simp] theorem acceptStart_inbox (s : State) : (acceptStart s).inbox = s.inbox := rfl
@[simp] theorem acceptStart_replies (s : State) : (acceptStart s).replies = s.replies := rfl

/-! #### `loadOperands` -/

@[simp] theorem loadOperands_ctrll (w : Work) (o : Operands) : (w.loadOperands o).ctrll = w.ctrll := rfl
@[simp] theorem loadOperands_keyV (w : Work) (o : Operands) : (w.loadOperands o).keyV = BitVec.ofNat 128 o.key.val := rfl
@[simp] theorem loadOperands_keyN (w : Work) (o : Operands) : (w.loadOperands o).keyN = BitVec.ofNat 32 o.key.len := rfl
@[simp] theorem loadOperands_ivV (w : Work) (o : Operands) : (w.loadOperands o).ivV = BitVec.ofNat 128 o.iv.val := rfl
@[simp] theorem loadOperands_ivN (w : Work) (o : Operands) : (w.loadOperands o).ivN = BitVec.ofNat 32 o.iv.len := rfl
@[simp] theorem loadOperands_ibuf (w : Work) (o : Operands) : (w.loadOperands o).ibuf = o.data.val := rfl
@[simp] theorem loadOperands_ibufN (w : Work) (o : Operands) : (w.loadOperands o).ibufN = BitVec.ofNat 32 o.data.len := rfl
@[simp] theorem loadOperands_obuf (w : Work) (o : Operands) : (w.loadOperands o).obuf = w.obuf := rfl
@[simp] theorem loadOperands_obufN (w : Work) (o : Operands) : (w.loadOperands o).obufN = w.obufN := rfl
@[simp] theorem loadOperands_nblk (w : Work) (o : Operands) : (w.loadOperands o).nblk = w.nblk := rfl
@[simp] theorem loadOperands_chain (w : Work) (o : Operands) : (w.loadOperands o).chain = w.chain := rfl
@[simp] theorem loadOperands_ctrv (w : Work) (o : Operands) : (w.loadOperands o).ctrv = w.ctrv := rfl
@[simp] theorem loadOperands_ctrw (w : Work) (o : Operands) : (w.loadOperands o).ctrw = w.ctrw := rfl
@[simp] theorem loadOperands_l (w : Work) (o : Operands) : (w.loadOperands o).l = w.l := rfl
@[simp] theorem loadOperands_r (w : Work) (o : Operands) : (w.loadOperands o).r = w.r := rfl
@[simp] theorem loadOperands_subkey (w : Work) (o : Operands) : (w.loadOperands o).subkey = w.subkey := rfl
@[simp] theorem loadOperands_blockPort (w : Work) (o : Operands) : (w.loadOperands o).blockPort = w.blockPort := rfl

/-! #### `setInput` -/

@[simp] theorem setInput_ctrll (w : Work) (v : BitValue) : (w.setInput v).ctrll = w.ctrll := rfl
@[simp] theorem setInput_keyV (w : Work) (v : BitValue) : (w.setInput v).keyV = w.keyV := rfl
@[simp] theorem setInput_keyN (w : Work) (v : BitValue) : (w.setInput v).keyN = w.keyN := rfl
@[simp] theorem setInput_ivV (w : Work) (v : BitValue) : (w.setInput v).ivV = w.ivV := rfl
@[simp] theorem setInput_ivN (w : Work) (v : BitValue) : (w.setInput v).ivN = w.ivN := rfl
@[simp] theorem setInput_ibuf (w : Work) (v : BitValue) : (w.setInput v).ibuf = v.val := rfl
@[simp] theorem setInput_ibufN (w : Work) (v : BitValue) : (w.setInput v).ibufN = BitVec.ofNat 32 v.len := rfl
@[simp] theorem setInput_obuf (w : Work) (v : BitValue) : (w.setInput v).obuf = w.obuf := rfl
@[simp] theorem setInput_obufN (w : Work) (v : BitValue) : (w.setInput v).obufN = w.obufN := rfl
@[simp] theorem setInput_nblk (w : Work) (v : BitValue) : (w.setInput v).nblk = w.nblk := rfl
@[simp] theorem setInput_chain (w : Work) (v : BitValue) : (w.setInput v).chain = w.chain := rfl
@[simp] theorem setInput_ctrv (w : Work) (v : BitValue) : (w.setInput v).ctrv = w.ctrv := rfl
@[simp] theorem setInput_ctrw (w : Work) (v : BitValue) : (w.setInput v).ctrw = w.ctrw := rfl
@[simp] theorem setInput_l (w : Work) (v : BitValue) : (w.setInput v).l = w.l := rfl
@[simp] theorem setInput_r (w : Work) (v : BitValue) : (w.setInput v).r = w.r := rfl
@[simp] theorem setInput_subkey (w : Work) (v : BitValue) : (w.setInput v).subkey = w.subkey := rfl
@[simp] theorem setInput_blockPort (w : Work) (v : BitValue) : (w.setInput v).blockPort = w.blockPort := rfl

/-! #### `setOutput` -/

@[simp] theorem setOutput_ctrll (w : Work) (v : BitValue) : (w.setOutput v).ctrll = w.ctrll := rfl
@[simp] theorem setOutput_keyV (w : Work) (v : BitValue) : (w.setOutput v).keyV = w.keyV := rfl
@[simp] theorem setOutput_keyN (w : Work) (v : BitValue) : (w.setOutput v).keyN = w.keyN := rfl
@[simp] theorem setOutput_ivV (w : Work) (v : BitValue) : (w.setOutput v).ivV = w.ivV := rfl
@[simp] theorem setOutput_ivN (w : Work) (v : BitValue) : (w.setOutput v).ivN = w.ivN := rfl
@[simp] theorem setOutput_ibuf (w : Work) (v : BitValue) : (w.setOutput v).ibuf = w.ibuf := rfl
@[simp] theorem setOutput_ibufN (w : Work) (v : BitValue) : (w.setOutput v).ibufN = w.ibufN := rfl
@[simp] theorem setOutput_obuf (w : Work) (v : BitValue) : (w.setOutput v).obuf = v.val := rfl
@[simp] theorem setOutput_obufN (w : Work) (v : BitValue) : (w.setOutput v).obufN = BitVec.ofNat 32 v.len := rfl
@[simp] theorem setOutput_nblk (w : Work) (v : BitValue) : (w.setOutput v).nblk = w.nblk := rfl
@[simp] theorem setOutput_chain (w : Work) (v : BitValue) : (w.setOutput v).chain = w.chain := rfl
@[simp] theorem setOutput_ctrv (w : Work) (v : BitValue) : (w.setOutput v).ctrv = w.ctrv := rfl
@[simp] theorem setOutput_ctrw (w : Work) (v : BitValue) : (w.setOutput v).ctrw = w.ctrw := rfl
@[simp] theorem setOutput_l (w : Work) (v : BitValue) : (w.setOutput v).l = w.l := rfl
@[simp] theorem setOutput_r (w : Work) (v : BitValue) : (w.setOutput v).r = w.r := rfl
@[simp] theorem setOutput_subkey (w : Work) (v : BitValue) : (w.setOutput v).subkey = w.subkey := rfl
@[simp] theorem setOutput_blockPort (w : Work) (v : BitValue) : (w.setOutput v).blockPort = w.blockPort := rfl

/-! #### `putOnPort` -/

@[simp] theorem putOnPort_ctrl (c : Cipher) (x : BitVec (blockBits c)) (s : State) : (s.putOnPort c x).ctrl = s.ctrl := rfl
@[simp] theorem putOnPort_errCode (c : Cipher) (x : BitVec (blockBits c)) (s : State) : (s.putOnPort c x).errCode = s.errCode := rfl
@[simp] theorem putOnPort_keySize (c : Cipher) (x : BitVec (blockBits c)) (s : State) : (s.putOnPort c x).keySize = s.keySize := rfl
@[simp] theorem putOnPort_ivSize (c : Cipher) (x : BitVec (blockBits c)) (s : State) : (s.putOnPort c x).ivSize = s.ivSize := rfl
@[simp] theorem putOnPort_dataSize (c : Cipher) (x : BitVec (blockBits c)) (s : State) : (s.putOnPort c x).dataSize = s.dataSize := rfl
@[simp] theorem putOnPort_outSize (c : Cipher) (x : BitVec (blockBits c)) (s : State) : (s.putOnPort c x).outSize = s.outSize := rfl
@[simp] theorem putOnPort_keyq (c : Cipher) (x : BitVec (blockBits c)) (s : State) : (s.putOnPort c x).keyq = s.keyq := rfl
@[simp] theorem putOnPort_ivq (c : Cipher) (x : BitVec (blockBits c)) (s : State) : (s.putOnPort c x).ivq = s.ivq := rfl
@[simp] theorem putOnPort_dataq (c : Cipher) (x : BitVec (blockBits c)) (s : State) : (s.putOnPort c x).dataq = s.dataq := rfl
@[simp] theorem putOnPort_outq (c : Cipher) (x : BitVec (blockBits c)) (s : State) : (s.putOnPort c x).outq = s.outq := rfl
@[simp] theorem putOnPort_work (c : Cipher) (x : BitVec (blockBits c)) (s : State) : (s.putOnPort c x).work = { s.work with blockPort := x.setWidth 64 } := rfl
@[simp] theorem putOnPort_seq (c : Cipher) (x : BitVec (blockBits c)) (s : State) : (s.putOnPort c x).seq = s.seq := rfl
@[simp] theorem putOnPort_inbox (c : Cipher) (x : BitVec (blockBits c)) (s : State) : (s.putOnPort c x).inbox = s.inbox := rfl
@[simp] theorem putOnPort_replies (c : Cipher) (x : BitVec (blockBits c)) (s : State) : (s.putOnPort c x).replies = s.replies := rfl

/-! #### `runCipher` -/

@[simp] theorem runCipher_ctrll (c : Cipher) (d : Direction) (w : Work) : (w.runCipher c d).ctrll = w.ctrll := rfl
@[simp] theorem runCipher_keyV (c : Cipher) (d : Direction) (w : Work) : (w.runCipher c d).keyV = w.keyV := rfl
@[simp] theorem runCipher_keyN (c : Cipher) (d : Direction) (w : Work) : (w.runCipher c d).keyN = w.keyN := rfl
@[simp] theorem runCipher_ivV (c : Cipher) (d : Direction) (w : Work) : (w.runCipher c d).ivV = w.ivV := rfl
@[simp] theorem runCipher_ivN (c : Cipher) (d : Direction) (w : Work) : (w.runCipher c d).ivN = w.ivN := rfl
@[simp] theorem runCipher_ibuf (c : Cipher) (d : Direction) (w : Work) : (w.runCipher c d).ibuf = w.ibuf := rfl
@[simp] theorem runCipher_ibufN (c : Cipher) (d : Direction) (w : Work) : (w.runCipher c d).ibufN = w.ibufN := rfl
@[simp] theorem runCipher_obuf (c : Cipher) (d : Direction) (w : Work) : (w.runCipher c d).obuf = w.obuf := rfl
@[simp] theorem runCipher_obufN (c : Cipher) (d : Direction) (w : Work) : (w.runCipher c d).obufN = w.obufN := rfl
@[simp] theorem runCipher_nblk (c : Cipher) (d : Direction) (w : Work) : (w.runCipher c d).nblk = w.nblk := rfl
@[simp] theorem runCipher_chain (c : Cipher) (d : Direction) (w : Work) : (w.runCipher c d).chain = w.chain := rfl
@[simp] theorem runCipher_ctrv (c : Cipher) (d : Direction) (w : Work) : (w.runCipher c d).ctrv = w.ctrv := rfl
@[simp] theorem runCipher_ctrw (c : Cipher) (d : Direction) (w : Work) : (w.runCipher c d).ctrw = w.ctrw := rfl
@[simp] theorem runCipher_l (c : Cipher) (d : Direction) (w : Work) : (w.runCipher c d).l = (halvesAfter c d (w.key c) (w.block c)).1 := rfl
@[simp] theorem runCipher_r (c : Cipher) (d : Direction) (w : Work) : (w.runCipher c d).r = (halvesAfter c d (w.key c) (w.block c)).2 := rfl
@[simp] theorem runCipher_subkey (c : Cipher) (d : Direction) (w : Work) : (w.runCipher c d).subkey = scheduleKey c (w.key c) := rfl
@[simp] theorem runCipher_blockPort (c : Cipher) (d : Direction) (w : Work) : (w.runCipher c d).blockPort = (cipherBlock suite c d (w.key c) (w.block c)).setWidth 64 := rfl

/-! #### `storeBlock` -/

@[simp] theorem storeBlock_ctrl (c : Cipher) (y : BitVec (blockBits c)) (s : State) : (s.storeBlock c y).ctrl = s.ctrl := rfl
@[simp] theorem storeBlock_errCode (c : Cipher) (y : BitVec (blockBits c)) (s : State) : (s.storeBlock c y).errCode = s.errCode := rfl
@[simp] theorem storeBlock_keySize (c : Cipher) (y : BitVec (blockBits c)) (s : State) : (s.storeBlock c y).keySize = s.keySize := rfl
@[simp] theorem storeBlock_ivSize (c : Cipher) (y : BitVec (blockBits c)) (s : State) : (s.storeBlock c y).ivSize = s.ivSize := rfl
@[simp] theorem storeBlock_dataSize (c : Cipher) (y : BitVec (blockBits c)) (s : State) : (s.storeBlock c y).dataSize = s.dataSize := rfl
@[simp] theorem storeBlock_outSize (c : Cipher) (y : BitVec (blockBits c)) (s : State) : (s.storeBlock c y).outSize = s.outSize := rfl
@[simp] theorem storeBlock_keyq (c : Cipher) (y : BitVec (blockBits c)) (s : State) : (s.storeBlock c y).keyq = s.keyq := rfl
@[simp] theorem storeBlock_ivq (c : Cipher) (y : BitVec (blockBits c)) (s : State) : (s.storeBlock c y).ivq = s.ivq := rfl
@[simp] theorem storeBlock_dataq (c : Cipher) (y : BitVec (blockBits c)) (s : State) : (s.storeBlock c y).dataq = s.dataq := rfl
@[simp] theorem storeBlock_outq (c : Cipher) (y : BitVec (blockBits c)) (s : State) : (s.storeBlock c y).outq = s.outq := rfl
@[simp] theorem storeBlock_work (c : Cipher) (y : BitVec (blockBits c)) (s : State) : (s.storeBlock c y).work = { s.work with
      obuf := putBlock (blockBits c) s.work.obuf s.seq.blk.toNat y
      obufN := BitVec.ofNat 32 (s.work.nblk.toNat * blockBits c) } := rfl
@[simp] theorem storeBlock_seq (c : Cipher) (y : BitVec (blockBits c)) (s : State) : (s.storeBlock c y).seq = s.seq := rfl
@[simp] theorem storeBlock_inbox (c : Cipher) (y : BitVec (blockBits c)) (s : State) : (s.storeBlock c y).inbox = s.inbox := rfl
@[simp] theorem storeBlock_replies (c : Cipher) (y : BitVec (blockBits c)) (s : State) : (s.storeBlock c y).replies = s.replies := rfl

/-! #### `setChain` -/

@[simp] theorem setChain_ctrl (c : Cipher) (y : BitVec (blockBits c)) (s : State) : (s.setChain c y).ctrl = s.ctrl := rfl
@[simp] theorem setChain_errCode (c : Cipher) (y : BitVec (blockBits c)) (s : State) : (s.setChain c y).errCode = s.errCode := rfl
@[simp] theorem setChain_keySize (c : Cipher) (y : BitVec (blockBits c)) (s : State) : (s.setChain c y).keySize = s.keySize := rfl
@[simp] theorem setChain_ivSize (c : Cipher) (y : BitVec (blockBits c)) (s : State) : (s.setChain c y).ivSize = s.ivSize := rfl
@[simp] theorem setChain_dataSize (c : Cipher) (y : BitVec (blockBits c)) (s : State) : (s.setChain c y).dataSize = s.dataSize := rfl
@[simp] theorem setChain_outSize (c : Cipher) (y : BitVec (blockBits c)) (s : State) : (s.setChain c y).outSize = s.outSize := rfl
@[simp] theorem setChain_keyq (c : Cipher) (y : BitVec (blockBits c)) (s : State) : (s.setChain c y).keyq = s.keyq := rfl
@[simp] theorem setChain_ivq (c : Cipher) (y : BitVec (blockBits c)) (s : State) : (s.setChain c y).ivq = s.ivq := rfl
@[simp] theorem setChain_dataq (c : Cipher) (y : BitVec (blockBits c)) (s : State) : (s.setChain c y).dataq = s.dataq := rfl
@[simp] theorem setChain_outq (c : Cipher) (y : BitVec (blockBits c)) (s : State) : (s.setChain c y).outq = s.outq := rfl
@[simp] theorem setChain_work (c : Cipher) (y : BitVec (blockBits c)) (s : State) : (s.setChain c y).work = { s.work with chain := y.setWidth 64 } := rfl
@[simp] theorem setChain_seq (c : Cipher) (y : BitVec (blockBits c)) (s : State) : (s.setChain c y).seq = s.seq := rfl
@[simp] theorem setChain_inbox (c : Cipher) (y : BitVec (blockBits c)) (s : State) : (s.setChain c y).inbox = s.inbox := rfl
@[simp] theorem setChain_replies (c : Cipher) (y : BitVec (blockBits c)) (s : State) : (s.setChain c y).replies = s.replies := rfl

/-! #### `stepCounter` -/

@[simp] theorem stepCounter_ctrl (s : State) : (s.stepCounter).ctrl = s.ctrl := rfl
@[simp] theorem stepCounter_errCode (s : State) : (s.stepCounter).errCode = s.errCode := rfl
@[simp] theorem stepCounter_keySize (s : State) : (s.stepCounter).keySize = s.keySize := rfl
@[simp] theorem stepCounter_ivSize (s : State) : (s.stepCounter).ivSize = s.ivSize := rfl
@[simp] theorem stepCounter_dataSize (s : State) : (s.stepCounter).dataSize = s.dataSize := rfl
@[simp] theorem stepCounter_outSize (s : State) : (s.stepCounter).outSize = s.outSize := rfl
@[simp] theorem stepCounter_keyq (s : State) : (s.stepCounter).keyq = s.keyq := rfl
@[simp] theorem stepCounter_ivq (s : State) : (s.stepCounter).ivq = s.ivq := rfl
@[simp] theorem stepCounter_dataq (s : State) : (s.stepCounter).dataq = s.dataq := rfl
@[simp] theorem stepCounter_outq (s : State) : (s.stepCounter).outq = s.outq := rfl
@[simp] theorem stepCounter_work (s : State) : (s.stepCounter).work = { s.work with
      ctrv := BitVec.ofNat 64 ((s.work.counter + 1) % 2 ^ s.work.ctrw.toNat) } := rfl
@[simp] theorem stepCounter_seq (s : State) : (s.stepCounter).seq = s.seq := rfl
@[simp] theorem stepCounter_inbox (s : State) : (s.stepCounter).inbox = s.inbox := rfl
@[simp] theorem stepCounter_replies (s : State) : (s.stepCounter).replies = s.replies := rfl

/-! #### `padInput` -/

@[simp] theorem padInput_ctrl (p : Scheme) (c : Cipher) (s : State) : (padInput p c s).ctrl = s.ctrl := rfl
@[simp] theorem padInput_errCode (p : Scheme) (c : Cipher) (s : State) : (padInput p c s).errCode = s.errCode := rfl
@[simp] theorem padInput_keySize (p : Scheme) (c : Cipher) (s : State) : (padInput p c s).keySize = s.keySize := rfl
@[simp] theorem padInput_ivSize (p : Scheme) (c : Cipher) (s : State) : (padInput p c s).ivSize = s.ivSize := rfl
@[simp] theorem padInput_dataSize (p : Scheme) (c : Cipher) (s : State) : (padInput p c s).dataSize = s.dataSize := rfl
@[simp] theorem padInput_outSize (p : Scheme) (c : Cipher) (s : State) : (padInput p c s).outSize = s.outSize := rfl
@[simp] theorem padInput_keyq (p : Scheme) (c : Cipher) (s : State) : (padInput p c s).keyq = s.keyq := rfl
@[simp] theorem padInput_ivq (p : Scheme) (c : Cipher) (s : State) : (padInput p c s).ivq = s.ivq := rfl
@[simp] theorem padInput_dataq (p : Scheme) (c : Cipher) (s : State) : (padInput p c s).dataq = s.dataq := rfl
@[simp] theorem padInput_outq (p : Scheme) (c : Cipher) (s : State) : (padInput p c s).outq = s.outq := rfl
@[simp] theorem padInput_work (p : Scheme) (c : Cipher) (s : State) : (padInput p c s).work = s.work.setInput (padValue p c s.work.input) := rfl
@[simp] theorem padInput_seq (p : Scheme) (c : Cipher) (s : State) : (padInput p c s).seq = s.seq := rfl
@[simp] theorem padInput_inbox (p : Scheme) (c : Cipher) (s : State) : (padInput p c s).inbox = s.inbox := rfl
@[simp] theorem padInput_replies (p : Scheme) (c : Cipher) (s : State) : (padInput p c s).replies = s.replies := rfl

/-- `IBUF` after it is written, for a length its size register holds. -/
theorem setInput_input (w : Work) (v : BitValue) (h : v.len < 2 ^ 32) : (w.setInput v).input = v := by
  cases v with
  | mk n x => simp only [Work.input, setInput_ibufN, setInput_ibuf, BitVec.toNat_ofNat, Nat.mod_eq_of_lt h]

/-- `OBUF` after it is written, for a length its size register holds. -/
theorem setOutput_output (w : Work) (v : BitValue) (h : v.len < 2 ^ 32) : (w.setOutput v).output = v := by
  cases v with
  | mk n x => simp only [Work.output, setOutput_obufN, setOutput_obuf, BitVec.toNat_ofNat, Nat.mod_eq_of_lt h]

end Sys2Proof.Machine
end

