-- ==== Sys2Proof/Laws/Ops.lean ====
section
/-! SUPPORT. One lemma for each shared operation that says all it can do, so that no later proof unfolds it. -/
namespace Sys2Proof.Machine

/-! #### Outcomes of a unit -/

@[simp] theorem settle_ok (s t : State) : settle s (.ok t) = .next t := rfl

@[simp] theorem settle_error (s : State) (e : ErrKind) : settle s (.error e) = .next (raise e s) := rfl

/-- A unit's outcome is always a next state: the unit's own, or that of error entry. -/
theorem settle_cases {s t : State} {r : Except ErrKind State} (h : settle s r = .next t) :
    r = .ok t ∨ ∃ e, r = .error e ∧ t = raise e s := by
  cases r with
  | ok u => left; injection h with h; rw [h]
  | error e => right; injection h with h; exact ⟨e, rfl, h.symm⟩

theorem settle_next (s : State) (r : Except ErrKind State) : ∃ t, settle s r = .next t := by
  cases r <;> exact ⟨_, rfl⟩

/-- The cipher unit: the registers it writes where the key has the variant's width, and the error elsewhere (R170, R281). -/
theorem cipherUnit_eq_ok {c : Cipher} {d : Direction} {s t : State} :
    cipherUnit c d s = .ok t ↔ s.work.keyN.toNat = keyBits c ∧ t = { s with work := s.work.runCipher c d } := by
  unfold cipherUnit
  split <;> simp_all [eq_comm]

theorem cipherUnit_eq_error {c : Cipher} {d : Direction} {s : State} {e : ErrKind} :
    cipherUnit c d s = .error e ↔ s.work.keyN.toNat ≠ keyBits c ∧ e = .invalidKeyOrBlockSize := by
  unfold cipherUnit
  split <;> simp_all [eq_comm]

theorem withIv_eq_ok {m : Mode} {c : Cipher} {s t : State} {k : Except ErrKind State} :
    withIv m c s k = .ok t ↔ ivWidthOk m c s.work.ivN.toNat = true ∧ k = .ok t := by
  unfold withIv
  split <;> simp_all

theorem withIv_eq_error {m : Mode} {c : Cipher} {s : State} {k : Except ErrKind State} {e : ErrKind} :
    withIv m c s k = .error e ↔
      (ivWidthOk m c s.work.ivN.toNat = false ∧ e = .invalidIVSize) ∨
        (ivWidthOk m c s.work.ivN.toNat = true ∧ k = .error e) := by
  unfold withIv
  cases h : ivWidthOk m c s.work.ivN.toNat <;> simp [@eq_comm _ e]

theorem unpadOutput_eq_ok {p : Scheme} {c : Cipher} {s t : State} :
    unpadOutput p c s = .ok t ↔
      ∃ v, unpadValue p c s.work.output = some v ∧ t = { s with work := s.work.setOutput v } := by
  unfold unpadOutput
  cases unpadValue p c s.work.output <;> simp [@eq_comm _ t]

theorem unpadOutput_eq_error {p : Scheme} {c : Cipher} {s : State} {e : ErrKind} :
    unpadOutput p c s = .error e ↔ unpadValue p c s.work.output = none ∧ e = .paddingError := by
  unfold unpadOutput
  cases unpadValue p c s.work.output <;> simp [@eq_comm _ e]

theorem padBytesInput_of_bytes {p : Scheme} {c : Cipher} {s : State} (h : s.work.ibufN.toNat % 8 = 0) :
    padBytesInput p c s = .next (padInput p c s) := by
  simp [padBytesInput, h]

theorem padBytesInput_refused {p : Scheme} {c : Cipher} {s : State} (h : s.work.ibufN.toNat % 8 ≠ 0) :
    padBytesInput p c s = .refused .padOperandNotBytes := by
  simp [padBytesInput, h]

/-! #### Operands -/

theorem decodeRecord_eq_ok {q : List Word} {size : BitVec 32} {v : BitValue} :
    decodeRecord q size = .ok v ↔ decodeWords q size.toNat = some v := by
  unfold decodeRecord
  split <;> simp_all

theorem decodeRecord_eq_error {q : List Word} {size : BitVec 32} {e : ErrKind} :
    decodeRecord q size = .error e ↔ decodeWords q size.toNat = none ∧ e = .malformedInput := by
  unfold decodeRecord
  cases decodeWords q size.toNat <;> simp [@eq_comm _ e]

/-- Operand decode succeeds exactly when each record does (R232). -/
theorem decodeOperands_eq_ok {m : Mode} {q : Request} {o : Operands} :
    decodeOperands m q = .ok o ↔
      decodeRecord q.keyq q.keySize = .ok o.key ∧ decodeIv m q = .ok o.iv ∧ decodeRecord q.dataq q.dataSize = .ok o.data := by
  unfold decodeOperands
  split
  · simp_all
  · split
    · simp_all
    · split
      · simp_all
      · cases o
        simp_all

/-- Operand decode fails with `MalformedInput` only (R121, R232). -/
theorem decodeOperands_error {m : Mode} {q : Request} {e : ErrKind} (h : decodeOperands m q = .error e) :
    e = .malformedInput := by
  unfold decodeOperands at h
  split at h
  · rename_i h1
    injection h with h; subst h
    exact (decodeRecord_eq_error.1 h1).2
  · split at h
    · rename_i h1
      injection h with h; subst h
      cases m with
      | ecb => cases h1
      | cbc => exact (decodeRecord_eq_error.1 h1).2
      | ctr => exact (decodeRecord_eq_error.1 h1).2
    · split at h
      · rename_i h1
        injection h with h; subst h
        exact (decodeRecord_eq_error.1 h1).2
      · cases h

/-- A decoded record is a valid BitValue of the record's size (R9, R121). -/
theorem decodeRecord_spec {q : List Word} {size : BitVec 32} {v : BitValue} (h : decodeRecord q size = .ok v) :
    v.Valid ∧ v.len = size.toNat ∧ wordCount size.toNat ≤ q.length :=
  have h' := decodeRecord_eq_ok.1 h
  ⟨decodeWords_valid h', decodeWords_len h', (decodeWords_eq_some.1 h').1⟩

/-- The decoded operands are valid BitValues; key and data have the sizes of their records, the IV has the size of its
record but in ECB, where it is empty (R232). -/
theorem decodeOperands_spec {m : Mode} {q : Request} {o : Operands} (h : decodeOperands m q = .ok o) :
    o.key.Valid ∧ o.iv.Valid ∧ o.data.Valid ∧ o.key.len = q.keySize.toNat ∧ o.data.len = q.dataSize.toNat ∧
      o.iv.len = (if m = .ecb then 0 else q.ivSize.toNat) ∧ wordCount q.dataSize.toNat ≤ q.dataq.length := by
  obtain ⟨hk, hi, hd⟩ := decodeOperands_eq_ok.1 h
  obtain ⟨k1, k2, -⟩ := decodeRecord_spec hk
  obtain ⟨d1, d2, d3⟩ := decodeRecord_spec hd
  have : o.iv.Valid ∧ o.iv.len = (if m = .ecb then 0 else q.ivSize.toNat) := by
    cases m with
    | ecb => injection hi with hi; rw [← hi]; exact ⟨by decide, rfl⟩
    | cbc => exact ⟨(decodeRecord_spec hi).1, by simpa using (decodeRecord_spec hi).2.1⟩
    | ctr => exact ⟨(decodeRecord_spec hi).1, by simpa using (decodeRecord_spec hi).2.1⟩
  exact ⟨k1, this.1, d1, k2, d2, this.2, d3⟩

/-! #### Validation -/

/-- The width checks pass exactly when the key, the IV and the data have the widths the control word asks for (R233 to
R236). -/
theorem widthError_eq_none {k : Control} {keyN ivN dataN : Nat} :
    widthError k keyN ivN dataN = none ↔
      keyN = keyBits k.cipher ∧ ivWidthOk k.mode k.cipher ivN = true ∧
        (k.dir = .enc → byteGranular k.padding = true → dataN % 8 = 0) ∧
        (k.dir = .dec → dataN % blockBits k.cipher = 0) := by
  unfold widthError dataWidthError
  cases hd : k.dir <;> cases hb : byteGranular k.padding <;> cases hi : ivWidthOk k.mode k.cipher ivN <;>
    by_cases hk : keyN = keyBits k.cipher <;> simp [hk]

/-- The width checks raise two kinds of error only (R282). -/
theorem widthError_kind {k : Control} {keyN ivN dataN : Nat} {e : ErrKind} (h : widthError k keyN ivN dataN = some e) :
    e = .invalidKeyOrBlockSize ∨ e = .unsupportedConfiguration := by
  unfold widthError dataWidthError at h
  cases hd : k.dir <;> simp only [hd] at h <;> (repeat' split at h) <;> simp_all

/-- Validation succeeds exactly when the operands decode and the widths are right (R232 to R236). -/
theorem validate_eq_ok {k : Control} {q : Request} {o : Operands} :
    validate k q = .ok o ↔ decodeOperands k.mode q = .ok o ∧ widthError k o.key.len o.iv.len o.data.len = none := by
  unfold validate
  cases decodeOperands k.mode q with
  | error e => simp
  | ok o' =>
    cases h : widthError k o'.key.len o'.iv.len o'.data.len with
    | some e =>
      simp only [h, reduceCtorEq, Except.ok.injEq, false_iff, not_and]
      rintro rfl h'
      rw [h] at h'; cases h'
    | none =>
      simp only [h, Except.ok.injEq]
      constructor
      · rintro rfl; exact ⟨rfl, h⟩
      · exact fun h' => h'.1

/-! #### The host port -/

/-- The accesses that are carried: 4 bytes at a multiple of 4 (R64, R66). -/
theorem accessRefusal_eq_none {off : BitVec 32} {n : Nat} :
    accessRefusal off n = none ↔ n = 4 ∧ off.toNat % 4 = 0 := by
  unfold accessRefusal
  split
  · simp_all
  · split <;> simp_all

/-- A push never passes the queue's capacity (R28, R31). -/
theorem pushWord_length_le {cap : Nat} {q : List Word} (h : q.length ≤ cap) (v : Word) : (pushWord cap q v).length ≤ cap := by
  unfold pushWord
  split
  · simpa using by omega
  · exact h

theorem pushWord_of_room {cap : Nat} {q : List Word} (h : q.length < cap) (v : Word) : pushWord cap q v = q ++ [v] :=
  if_pos h

theorem pushWord_of_full {cap : Nat} {q : List Word} (h : cap ≤ q.length) (v : Word) : pushWord cap q v = q :=
  if_neg (Nat.not_lt.2 h)

/-- A register write changes `CTRL`, the three sizes and the three queues at most. -/
theorem writeReg_frame (s : State) (v : Word) (r : Reg) :
    writeReg s v r = { s with
      ctrl := (writeReg s v r).ctrl, keySize := (writeReg s v r).keySize, ivSize := (writeReg s v r).ivSize
      dataSize := (writeReg s v r).dataSize, keyq := (writeReg s v r).keyq, ivq := (writeReg s v r).ivq
      dataq := (writeReg s v r).dataq } := by
  cases r <;> rfl

theorem portWrite_of_not_idle {s : State} (h : s.seq.phase ≠ .idle) (off : BitVec 32) (v : Word) : portWrite s off v = s :=
  if_neg h

theorem portWrite_of_idle {s : State} (h : s.seq.phase = .idle) (off : BitVec 32) (v : Word) :
    portWrite s off v = writeReg s v (regAt off) :=
  if_pos h

/-! #### Status -/

theorem busy_iff {p : Phase} :
    p.busy = true ↔ p = .validate ∨ p = .pad ∨ p = .mode ∨ p = .unpad ∨ p = .encode := by
  cases p <;> decide

theorem not_busy_iff {p : Phase} : p.busy = false ↔ p = .idle ∨ p = .done ∨ p = .error := by
  cases p <;> decide

end Sys2Proof.Machine
end

