-- ==== Sys2Proof/Laws/Modes.lean ====
section
/-! SUPPORT. The modes as functions on block sequences (spec/43_modes.md): lengths, the block at an index, and the one step of the
machine each is built from. -/
namespace Sys2Proof.Machine

/-! #### Lengths -/

@[simp] theorem ecbBlocks_length {B : Nat} (E : BitVec B → BitVec B) (xs : List (BitVec B)) :
    (ecbBlocks E xs).length = xs.length := by
  simp [ecbBlocks]

@[simp] theorem cbcEncBlocks_length {B : Nat} (E : BitVec B → BitVec B) (c : BitVec B) (xs : List (BitVec B)) :
    (cbcEncBlocks E c xs).length = xs.length := by
  induction xs generalizing c with
  | nil => rfl
  | cons x xs ih => simp [cbcEncBlocks, ih]

@[simp] theorem cbcDecBlocks_length {B : Nat} (D : BitVec B → BitVec B) (c : BitVec B) (xs : List (BitVec B)) :
    (cbcDecBlocks D c xs).length = xs.length := by
  induction xs generalizing c with
  | nil => rfl
  | cons x xs ih => simp [cbcDecBlocks, ih]

@[simp] theorem ctrBlocks_length {B w : Nat} (E : BitVec B → BitVec B) (c : BitVec w) (xs : List (BitVec B)) :
    (ctrBlocks E c xs).length = xs.length := by
  induction xs generalizing c with
  | nil => rfl
  | cons x xs ih => simp [ctrBlocks, ih]

theorem blockBits_pos (c : Cipher) : 0 < blockBits c := by
  cases c <;> decide

/-- A mode's result has the blocks of its operand (R201). -/
theorem modeValue_len (S : Suite) (m : Mode) (d : Direction) (c : Cipher) (key iv data : BitValue) :
    (modeValue S m d c key iv data).len = data.len / blockBits c * blockBits c := by
  cases m <;> cases d <;> simp [modeValue]

/-- A mode's result has no bit at or above its length (R9). -/
theorem modeValue_valid (S : Suite) (m : Mode) (d : Direction) (c : Cipher) (key iv data : BitValue) :
    (modeValue S m d c key iv data).Valid := by
  cases m <;> cases d <;> exact joinBlocks_valid _

/-! #### The block at an index -/

/-- Block `i` of CTR is `X[i] ⊕ E(c + i)` (R206, R207). -/
theorem ctrBlocks_getElem {B w : Nat} (E : BitVec B → BitVec B) (c : BitVec w) (xs : List (BitVec B)) (i : Nat)
    (h : i < (ctrBlocks E c xs).length) :
    (ctrBlocks E c xs)[i] = xs[i]'(by simpa using h) ^^^ E ((c + BitVec.ofNat w i).setWidth B) := by
  induction xs generalizing c i with
  | nil => simp [ctrBlocks] at h
  | cons x xs ih =>
    cases i with
    | zero => simp [ctrBlocks]
    | succ i =>
      have hc : c + 1#w + BitVec.ofNat w i = c + BitVec.ofNat w (i + 1) := by
        rw [BitVec.add_assoc, BitVec.ofNat_add, BitVec.add_comm (BitVec.ofNat w i)]
      simp [ctrBlocks, ih, hc]

/-- Block `i` of CBC decryption is `D(X[i])` with the block before it, or the IV before block 0 (R204). -/
theorem cbcDecBlocks_getElem {B : Nat} (D : BitVec B → BitVec B) (c : BitVec B) (xs : List (BitVec B)) (i : Nat)
    (h : i < (cbcDecBlocks D c xs).length) :
    (cbcDecBlocks D c xs)[i] =
      D (xs[i]'(by simpa using h)) ^^^ (if i = 0 then c else xs.getD (i - 1) 0#B) := by
  induction xs generalizing c i with
  | nil => simp [cbcDecBlocks] at h
  | cons x xs ih =>
    cases i with
    | zero => simp [cbcDecBlocks]
    | succ i =>
      have h' : i < xs.length := by simpa [cbcDecBlocks] using h
      cases i <;> simp [cbcDecBlocks, ih]

/-- Block `i` of CBC encryption is `E` of `X[i]` with the result block before it, or the IV before block 0 (R203). -/
theorem cbcEncBlocks_getElem {B : Nat} (E : BitVec B → BitVec B) (c : BitVec B) (xs : List (BitVec B)) (i : Nat)
    (h : i < (cbcEncBlocks E c xs).length) :
    (cbcEncBlocks E c xs)[i] =
      E (xs[i]'(by simpa using h) ^^^ (if i = 0 then c else (cbcEncBlocks E c xs).getD (i - 1) 0#B)) := by
  induction xs generalizing c i with
  | nil => simp [cbcEncBlocks] at h
  | cons x xs ih =>
    cases i with
    | zero => simp [cbcEncBlocks]
    | succ i =>
      have h' : i < (cbcEncBlocks E (E (x ^^^ c)) xs).length := by simpa [cbcEncBlocks] using h
      have := ih (E (x ^^^ c)) i h'
      cases i <;> simp_all [cbcEncBlocks]

/-- Block `i` of a mode's result (R200). -/
theorem blockAt_joinBlocks {B : Nat} (hB : 0 < B) (ys : List (BitVec B)) (i : Nat) :
    blockAt B (joinBlocks ys).val i = ys.getD i 0#B :=
  blockAt_blocksToNat hB ys i

@[simp] theorem sliceBlocks_getElem (B : Nat) (v : BitValue) (i : Nat) (h : i < (sliceBlocks B v).length) :
    (sliceBlocks B v)[i] = blockAt B v.val i := by
  simp [sliceBlocks]

/-! #### The one step of the machine -/

/-- One block of ECB (R202, R205). -/
theorem ecbStep_eq_ok {c : Cipher} {d : Direction} {s t : State} :
    ecbStep c d s = .ok t ↔ s.work.keyN.toNat = keyBits c ∧ ∃ u, throughCipher c d (s.inputBlock c) s = .ok u ∧
      t = u.storeBlock c (u.work.block c) := by
  unfold ecbStep
  constructor
  · intro h
    match hu : throughCipher c d (s.inputBlock c) s with
    | .ok u =>
      rw [hu] at h; injection h with h
      exact ⟨(cipherUnit_eq_ok.1 hu).1, u, rfl, h.symm⟩
    | .error e => rw [hu] at h; cases h
  · rintro ⟨-, u, hu, rfl⟩
    rw [hu]; rfl

/-- A block kept in a 64-bit register reads back (R33). -/
@[simp] theorem setWidth_block {c : Cipher} (x : BitVec (blockBits c)) : (x.setWidth 64).setWidth (blockBits c) = x := by
  have hB : blockBits c ≤ 64 := by cases c <;> decide
  refine BitVec.eq_of_toNat_eq ?_
  have hx := x.isLt
  have : x.toNat < 2 ^ 64 := hx.trans_le (Nat.pow_le_pow_right (by decide) hB)
  rw [BitVec.toNat_setWidth, BitVec.toNat_setWidth, Nat.mod_eq_of_lt this, Nat.mod_eq_of_lt hx]

@[simp] theorem block_putOnPort (c : Cipher) (x : BitVec (blockBits c)) (s : State) :
    (s.putOnPort c x).work.block c = x :=
  setWidth_block x

@[simp] theorem block_runCipher (c : Cipher) (d : Direction) (w : Work) :
    (w.runCipher c d).block c = cipherBlock suite c d (w.key c) (w.block c) :=
  setWidth_block _

/-- The cipher unit on a block handed to it: with a key of the variant's width, the result at its port is `E` or `D` of the
block (R170, R172). -/
theorem throughCipher_eq_ok {c : Cipher} {d : Direction} {x : BitVec (blockBits c)} {s : State}
    (hk : s.work.keyN.toNat = keyBits c) :
    ∃ u, throughCipher c d x s = .ok u ∧ u.work.block c = cipherBlock suite c d (s.work.key c) x ∧
      u = { s with work := { s.work with
        subkey := u.work.subkey, l := u.work.l, r := u.work.r, blockPort := u.work.blockPort } } := by
  refine ⟨_, cipherUnit_eq_ok.2 ⟨hk, rfl⟩, ?_, rfl⟩
  show ((s.putOnPort c x).work.runCipher c d).block c = _
  rw [block_runCipher, block_putOnPort]
  rfl

theorem throughCipher_error {c : Cipher} {d : Direction} {x : BitVec (blockBits c)} {s : State} {e : ErrKind} :
    throughCipher c d x s = .error e ↔ s.work.keyN.toNat ≠ keyBits c ∧ e = .invalidKeyOrBlockSize :=
  cipherUnit_eq_error

end Sys2Proof.Machine
end

