-- ==== Sys2Proof/Laws/Padding.lean ====
section
/-! SUPPORT. The padding functions (spec/41_padding.md): lengths, and what each unpadding function accepts. -/
namespace Sys2Proof.Machine

/-! #### Lengths -/

theorem blockBytes_pos (c : Cipher) : 0 < blockBytes c := by
  cases c <;> decide

theorem blockBits_eq_bytes (c : Cipher) : blockBits c = 8 * blockBytes c := by
  cases c <;> rfl

/-- The pad length lies between 1 and the block size (R143, R145). -/
theorem padLength_bounds {bs : Nat} (h : 0 < bs) (len : Nat) : 1 ≤ padLength bs len ∧ padLength bs len ≤ bs := by
  have := Nat.mod_lt len h
  unfold padLength
  omega

/-- A length and its pad length make whole blocks. -/
theorem add_padLength_mod {bs : Nat} (h : 0 < bs) (len : Nat) : (len + padLength bs len) % bs = 0 := by
  have h1 := Nat.mod_lt len h
  have h2 := Nat.div_add_mod len bs
  have : len + padLength bs len = bs * (len / bs + 1) := by
    rw [Nat.mul_add, Nat.mul_one]; unfold padLength; omega
  rw [this, Nat.mul_mod_right]

@[simp] theorem padZero_length (bs : Nat) (b : List Byte) :
    (padZero bs b).length = b.length + (bs - b.length % bs) % bs := by
  simp [padZero]

theorem padX923_length {bs : Nat} (h : 0 < bs) (b : List Byte) :
    (padX923 bs b).length = b.length + padLength bs b.length := by
  have := padLength_bounds h b.length
  simp [padX923]
  omega

@[simp] theorem padPkcs7_length (bs : Nat) (b : List Byte) :
    (padPkcs7 bs b).length = b.length + padLength bs b.length := by
  simp [padPkcs7]

@[simp] theorem padRfc1321_len (B : Nat) (v : BitValue) : (padRfc1321 B v).len = (v.len / B + 1) * B := rfl

@[simp] theorem padRfc1321_val (B : Nat) (v : BitValue) : (padRfc1321 B v).val = v.val + 2 ^ v.len := rfl

/-- The length that zero padding reaches makes whole blocks. -/
theorem padZero_length_mod {bs : Nat} (h : 0 < bs) (b : List Byte) : (padZero bs b).length % bs = 0 := by
  have h1 := Nat.mod_lt b.length h
  rw [padZero_length]
  by_cases h0 : b.length % bs = 0
  · simp [h0]
  · rw [Nat.mod_eq_of_lt (by omega : bs - b.length % bs < bs)]
    exact add_padLength_mod h b.length

/-! #### What unpadding accepts -/

/-- The scan finds the highest set bit of its range (R148). -/
theorem scanMarker_eq_some {x lo k i : Nat} :
    scanMarker x lo k = some i ↔
      lo ≤ i ∧ i < lo + k ∧ x.testBit i = true ∧ ∀ j, i < j → j < lo + k → x.testBit j = false := by
  induction k with
  | zero => simp only [scanMarker, reduceCtorEq, false_iff]; omega
  | succ k ih =>
    rw [scanMarker]
    split
    · rename_i h
      simp only [Option.some.injEq]
      constructor
      · rintro rfl
        exact ⟨by omega, by omega, h, fun j h1 h2 => by omega⟩
      · rintro ⟨h1, h2, -, h4⟩
        by_contra hne
        have := h4 (lo + k) (by omega) (by omega)
        simp [h] at this
    · rename_i h
      rw [ih]
      constructor
      · rintro ⟨h1, h2, h3, h4⟩
        refine ⟨h1, by omega, h3, fun j hj hj' => ?_⟩
        by_cases hjk : j = lo + k
        · simpa [hjk] using h
        · exact h4 j hj (by omega)
      · rintro ⟨h1, h2, h3, h4⟩
        have : i ≠ lo + k := by rintro rfl; exact h h3
        exact ⟨h1, by omega, h3, fun j hj hj' => h4 j hj (by omega)⟩

/-- The scan finds nothing exactly when its range is zero (R148). -/
theorem scanMarker_eq_none {x lo k : Nat} :
    scanMarker x lo k = none ↔ ∀ j, lo ≤ j → j < lo + k → x.testBit j = false := by
  induction k with
  | zero => simp only [scanMarker, true_iff]; intro j; omega
  | succ k ih =>
    rw [scanMarker]
    split
    · rename_i h
      simp only [reduceCtorEq, false_iff]
      intro hall
      simp [hall (lo + k) (by omega) (by omega)] at h
    · rename_i h
      rw [ih]
      constructor
      · intro hall j h1 h2
        by_cases hjk : j = lo + k
        · simpa [hjk] using h
        · exact hall j h1 (by omega)
      · exact fun hall j h1 h2 => hall j h1 (by omega)

/-- Zero unpadding removes a run of zero bytes and leaves a sequence that does not end in one (R142). -/
theorem unpadZero_spec (b : List Byte) :
    ∃ j, b = unpadZero b ++ List.replicate j 0#8 ∧ (unpadZero b).getLast? ≠ some 0#8 := by
  induction b using List.reverseRecOn with
  | nil => exact ⟨0, rfl, by simp [unpadZero]⟩
  | append_singleton xs x ih =>
    by_cases hx : x = 0#8
    · subst hx
      have : unpadZero (xs ++ [0#8]) = unpadZero xs := by simp [unpadZero]
      obtain ⟨j, h1, h2⟩ := ih
      refine ⟨j + 1, ?_, this ▸ h2⟩
      rw [this, List.replicate_succ', ← List.append_assoc, ← h1]
    · have : unpadZero (xs ++ [x]) = xs ++ [x] := by simp [unpadZero, hx]
      exact ⟨0, by simp [this], by simp [this, hx]⟩

theorem unpadZero_length_le (b : List Byte) : (unpadZero b).length ≤ b.length := by
  obtain ⟨j, h, -⟩ := unpadZero_spec b
  have := congrArg List.length h
  simp at this
  omega

/-- A sequence without a zero byte at its end is what zero unpadding makes of it with any zeros after it (R142, R152). -/
theorem unpadZero_append_zeros {r : List Byte} (h : r.getLast? ≠ some 0#8) (j : Nat) :
    unpadZero (r ++ List.replicate j 0#8) = r := by
  induction j with
  | zero =>
    rcases List.eq_nil_or_concat r with rfl | ⟨xs, x, rfl⟩
    · simp [unpadZero]
    · have : x ≠ 0#8 := by simpa using h
      simp [unpadZero, this]
  | succ j ih =>
    rw [List.replicate_succ', ← List.append_assoc]
    simpa [unpadZero] using ih

/-- What the checks that ANSI X9.23 and PKCS #7 share accept (R144, R146). -/
theorem padLengthOk_iff {bs : Nat} {b : List Byte} :
    padLengthOk bs b = true ↔ b ≠ [] ∧ b.length % bs = 0 ∧ 1 ≤ lastByte b ∧ lastByte b ≤ bs := by
  simp [padLengthOk, Nat.one_le_iff_ne_zero, and_assoc]

theorem unpadX923_eq_some {bs : Nat} {b r : List Byte} :
    unpadX923 bs b = some r ↔
      padLengthOk bs b = true ∧ ((b.drop (b.length - lastByte b)).dropLast).all (· == 0#8) = true ∧
        r = b.take (b.length - lastByte b) := by
  simp [unpadX923, and_assoc, @eq_comm _ r]

theorem unpadPkcs7_eq_some {bs : Nat} {b r : List Byte} :
    unpadPkcs7 bs b = some r ↔
      padLengthOk bs b = true ∧ (b.drop (b.length - lastByte b)).all (·.toNat == lastByte b) = true ∧
        r = b.take (b.length - lastByte b) := by
  simp [unpadPkcs7, and_assoc, @eq_comm _ r]

theorem unpadRfc1321_eq_some {B : Nat} {v u : BitValue} :
    unpadRfc1321 B v = some u ↔
      v.len ≠ 0 ∧ v.len % B = 0 ∧ ∃ i, scanMarker v.val (v.len - B) B = some i ∧ u = ⟨i, v.val % 2 ^ i⟩ := by
  unfold unpadRfc1321
  split
  · simp_all; omega
  · rename_i h
    simp only [Option.map_eq_some_iff, eq_comm (a := u)]
    constructor
    · exact fun ⟨i, h1, h2⟩ => ⟨by omega, by omega, i, h1, h2⟩
    · exact fun ⟨_, _, i, h1, h2⟩ => ⟨i, h1, h2⟩

/-! #### Padding and unpadding a BitValue -/

theorem byteCount_of_bytes {n : Nat} (h : n % 8 = 0) : 8 * byteCount n = n := by
  rw [byteCount_eq]; omega

/-- The marker that RFC 1321 padding sets leaves a valid BitValue (R147). -/
theorem padRfc1321_valid {B : Nat} (hB : 0 < B) {v : BitValue} (hv : v.Valid) : (padRfc1321 B v).Valid := by
  have h1 := Nat.div_add_mod v.len B
  have h2 := Nat.mod_lt v.len hB
  have h3 : v.len + 1 ≤ (v.len / B + 1) * B := by rw [Nat.succ_mul, Nat.mul_comm]; omega
  have h4 : 2 ^ (v.len + 1) ≤ 2 ^ ((v.len / B + 1) * B) := Nat.pow_le_pow_right (by decide) h3
  have h5 : v.val < 2 ^ v.len := hv
  rw [pow_succ] at h4
  show v.val + 2 ^ v.len < 2 ^ ((v.len / B + 1) * B)
  omega

/-- What padding makes of a valid BitValue: a valid one of whole blocks, at most one block longer (R149). -/
theorem padValue_spec (p : Scheme) (c : Cipher) {v : BitValue} (hv : v.Valid)
    (h8 : byteGranular p = true → v.len % 8 = 0) :
    (padValue p c v).Valid ∧ (padValue p c v).len % blockBits c = 0 ∧ v.len ≤ (padValue p c v).len ∧
      (padValue p c v).len ≤ v.len + blockBits c := by
  have hbs := blockBytes_pos c
  have hb := padLength_bounds hbs v.bytes.length
  rw [bytes_length] at hb
  cases p with
  | zero =>
    have h := byteCount_of_bytes (h8 rfl)
    have h3 := Nat.mod_lt (blockBytes c - byteCount v.len % blockBytes c) hbs
    refine ⟨ofBytes_valid _, ?_, ?_, ?_⟩ <;> simp only [padValue, ofBytes_len, blockBits_eq_bytes]
    · rw [Nat.mul_mod_mul_left, padZero_length_mod hbs]
    · rw [padZero_length, bytes_length]; omega
    · rw [padZero_length, bytes_length]; omega
  | x923 =>
    have h := byteCount_of_bytes (h8 rfl)
    refine ⟨ofBytes_valid _, ?_, ?_, ?_⟩ <;> simp only [padValue, ofBytes_len, blockBits_eq_bytes]
    · rw [Nat.mul_mod_mul_left, padX923_length hbs, add_padLength_mod hbs]
    · rw [padX923_length hbs, bytes_length]; omega
    · rw [padX923_length hbs, bytes_length]; omega
  | pkcs7 =>
    have h := byteCount_of_bytes (h8 rfl)
    refine ⟨ofBytes_valid _, ?_, ?_, ?_⟩ <;> simp only [padValue, ofBytes_len, blockBits_eq_bytes]
    · rw [Nat.mul_mod_mul_left, padPkcs7_length, add_padLength_mod hbs]
    · rw [padPkcs7_length, bytes_length]; omega
    · rw [padPkcs7_length, bytes_length]; omega
  | rfc1321 =>
    have hB := blockBits_pos c
    have h1 := Nat.div_add_mod v.len (blockBits c)
    have h2 := Nat.mod_lt v.len hB
    rw [Nat.mul_comm] at h1
    refine ⟨padRfc1321_valid hB hv, ?_, ?_, ?_⟩ <;> simp only [padValue, padRfc1321_len, Nat.succ_mul]
    · rw [← Nat.succ_mul, Nat.mul_mod_left]
    · omega
    · omega

/-- What unpadding makes of a BitValue of whole blocks: a valid one that is not longer. -/
theorem unpadValue_spec {p : Scheme} {c : Cipher} {v u : BitValue} (hn : v.len % blockBits c = 0)
    (h : unpadValue p c v = some u) : u.Valid ∧ u.len ≤ v.len := by
  have h8 : 8 * byteCount v.len = v.len := byteCount_of_bytes (by cases c <;> simp only [blockBits] at hn <;> omega)
  cases p with
  | zero =>
    injection h with h; subst h
    refine ⟨ofBytes_valid _, ?_⟩
    have := unpadZero_length_le v.bytes
    rw [bytes_length] at this
    rw [ofBytes_len]; omega
  | x923 =>
    obtain ⟨r, hr, rfl⟩ := Option.map_eq_some_iff.1 h
    obtain ⟨-, -, rfl⟩ := unpadX923_eq_some.1 hr
    refine ⟨ofBytes_valid _, ?_⟩
    rw [ofBytes_len, List.length_take, bytes_length]; omega
  | pkcs7 =>
    obtain ⟨r, hr, rfl⟩ := Option.map_eq_some_iff.1 h
    obtain ⟨-, -, rfl⟩ := unpadPkcs7_eq_some.1 hr
    refine ⟨ofBytes_valid _, ?_⟩
    rw [ofBytes_len, List.length_take, bytes_length]; omega
  | rfc1321 =>
    obtain ⟨h0, h1, i, hi, rfl⟩ := unpadRfc1321_eq_some.1 h
    have := scanMarker_eq_some.1 hi
    have hle : blockBits c ≤ v.len := Nat.le_of_dvd (by omega) (Nat.dvd_of_mod_eq_zero h1)
    exact ⟨Nat.mod_lt _ (Nat.two_pow_pos i), by simp only; omega⟩

end Sys2Proof.Machine
end

