-- ==== Sys2Proof/Laws/PerInstr.lean ====
section
/-! SUPPORT. The per-instruction family `TableMatch`: the word the encoder writes for a well-formed instruction carries the bits
its row of spec/opcode_table.json fixes (R93 to R95). -/
namespace Sys2Proof.Laws.TableMatch

/-- The bits a row of the table fixes: `word &&& mask = pattern`. -/
structure FixedBits where
  mask : Word
  pattern : Word
deriving DecidableEq, Repr

/-- Whether a word carries the fixed bits. -/
def FixedBits.matches (b : FixedBits) (w : Word) : Bool := w &&& b.mask == b.pattern

/-- The fixed bits of an instruction's table row; `ENCBLK` rows have a second pattern (`MODE = CTR` when decrypting). -/
def fixedBits : Instr → List FixedBits
  | .start => [⟨0xFFFFFFFF#32, 0x00000001#32⟩]
  | .clear => [⟨0xFFFFFFFF#32, 0x00000002#32⟩]
  | .runEnc _ _ _ => [⟨0xFFFFFFC0#32, 0x00000040#32⟩]
  | .runDec _ _ _ => [⟨0xFFFFFFC0#32, 0x00000000#32⟩]
  | .bbDecode _ _ _ _ => [⟨0xFFFFFF80#32, 0x00000000#32⟩]
  | .bbEncode _ _ _ _ => [⟨0xFFFFFF80#32, 0x00000000#32⟩]
  | .padZero _ _ => [⟨0xFFFFFFF0#32, 0x00000040#32⟩]
  | .padX923 _ _ => [⟨0xFFFFFFF0#32, 0x00000050#32⟩]
  | .padPkcs7 _ _ => [⟨0xFFFFFFF0#32, 0x00000060#32⟩]
  | .padRfc1321 _ _ => [⟨0xFFFFFFF0#32, 0x00000070#32⟩]
  | .unpadZero _ _ => [⟨0xFFFFFFF0#32, 0x00000000#32⟩]
  | .unpadX923 _ _ => [⟨0xFFFFFFF0#32, 0x00000010#32⟩]
  | .unpadPkcs7 _ _ => [⟨0xFFFFFFF0#32, 0x00000020#32⟩]
  | .unpadRfc1321 _ _ => [⟨0xFFFFFFF0#32, 0x00000030#32⟩]
  | .ecbEnc _ _ => [⟨0xFFFFFFCC#32, 0x00000040#32⟩]
  | .cbcEnc _ _ => [⟨0xFFFFFFCC#32, 0x00000044#32⟩]
  | .ctrEnc _ _ => [⟨0xFFFFFFCC#32, 0x00000048#32⟩]
  | .ecbDec _ _ => [⟨0xFFFFFFCC#32, 0x00000000#32⟩]
  | .cbcDec _ _ => [⟨0xFFFFFFCC#32, 0x00000004#32⟩]
  | .ctrDec _ _ => [⟨0xFFFFFFCC#32, 0x00000008#32⟩]
  | .encblkSdes _ _ _ => [⟨0xFFFFFFC3#32, 0x00000040#32⟩, ⟨0xFFFFFFCF#32, 0x00000008#32⟩]
  | .encblkLucifer _ _ _ => [⟨0xFFFFFFC3#32, 0x00000041#32⟩, ⟨0xFFFFFFCF#32, 0x00000009#32⟩]
  | .encblkSp96 _ _ _ => [⟨0xFFFFFFC3#32, 0x00000042#32⟩, ⟨0xFFFFFFCF#32, 0x0000000A#32⟩]
  | .decblkSdes _ _ => [⟨0xFFFFFFCB#32, 0x00000000#32⟩]
  | .decblkLucifer _ _ => [⟨0xFFFFFFCB#32, 0x00000001#32⟩]
  | .decblkSp96 _ _ => [⟨0xFFFFFFCB#32, 0x00000002#32⟩]

/-- What the family says of an instruction. -/
def Statement (i : Instr) : Prop :=
  i.wellFormed = true → (fixedBits i).any (·.matches (encode i).2) = true

theorem start : Statement (.start) := fun _ => by decide

theorem clear : Statement (.clear) := fun _ => by decide

theorem runEnc (c : Cipher) (m : Mode) (p : Scheme) : Statement (.runEnc c m p) := by cases c <;> cases m <;> cases p <;> exact fun h => by revert h; decide

theorem runDec (c : Cipher) (m : Mode) (p : Scheme) : Statement (.runDec c m p) := by cases c <;> cases m <;> cases p <;> exact fun h => by revert h; decide

theorem bbDecode (c : Cipher) (m : Mode) (p : Scheme) (d : Direction) : Statement (.bbDecode c m p d) := by cases c <;> cases m <;> cases p <;> cases d <;> exact fun h => by revert h; decide

theorem bbEncode (c : Cipher) (m : Mode) (p : Scheme) (d : Direction) : Statement (.bbEncode c m p d) := by cases c <;> cases m <;> cases p <;> cases d <;> exact fun h => by revert h; decide

theorem padZero (c : Cipher) (m : Mode) : Statement (.padZero c m) := by cases c <;> cases m <;> exact fun h => by revert h; decide

theorem padX923 (c : Cipher) (m : Mode) : Statement (.padX923 c m) := by cases c <;> cases m <;> exact fun h => by revert h; decide

theorem padPkcs7 (c : Cipher) (m : Mode) : Statement (.padPkcs7 c m) := by cases c <;> cases m <;> exact fun h => by revert h; decide

theorem padRfc1321 (c : Cipher) (m : Mode) : Statement (.padRfc1321 c m) := by cases c <;> cases m <;> exact fun h => by revert h; decide

theorem unpadZero (c : Cipher) (m : Mode) : Statement (.unpadZero c m) := by cases c <;> cases m <;> exact fun h => by revert h; decide

theorem unpadX923 (c : Cipher) (m : Mode) : Statement (.unpadX923 c m) := by cases c <;> cases m <;> exact fun h => by revert h; decide

theorem unpadPkcs7 (c : Cipher) (m : Mode) : Statement (.unpadPkcs7 c m) := by cases c <;> cases m <;> exact fun h => by revert h; decide

theorem unpadRfc1321 (c : Cipher) (m : Mode) : Statement (.unpadRfc1321 c m) := by cases c <;> cases m <;> exact fun h => by revert h; decide

theorem ecbEnc (c : Cipher) (p : Scheme) : Statement (.ecbEnc c p) := by cases c <;> cases p <;> exact fun h => by revert h; decide

theorem cbcEnc (c : Cipher) (p : Scheme) : Statement (.cbcEnc c p) := by cases c <;> cases p <;> exact fun h => by revert h; decide

theorem ctrEnc (c : Cipher) (p : Scheme) : Statement (.ctrEnc c p) := by cases c <;> cases p <;> exact fun h => by revert h; decide

theorem ecbDec (c : Cipher) (p : Scheme) : Statement (.ecbDec c p) := by cases c <;> cases p <;> exact fun h => by revert h; decide

theorem cbcDec (c : Cipher) (p : Scheme) : Statement (.cbcDec c p) := by cases c <;> cases p <;> exact fun h => by revert h; decide

theorem ctrDec (c : Cipher) (p : Scheme) : Statement (.ctrDec c p) := by cases c <;> cases p <;> exact fun h => by revert h; decide

theorem encblkSdes (d : Direction) (m : Mode) (p : Scheme) : Statement (.encblkSdes d m p) := by cases d <;> cases m <;> cases p <;> exact fun h => by revert h; decide

theorem encblkLucifer (d : Direction) (m : Mode) (p : Scheme) : Statement (.encblkLucifer d m p) := by cases d <;> cases m <;> cases p <;> exact fun h => by revert h; decide

theorem encblkSp96 (d : Direction) (m : Mode) (p : Scheme) : Statement (.encblkSp96 d m p) := by cases d <;> cases m <;> cases p <;> exact fun h => by revert h; decide

theorem decblkSdes (m : Mode) (p : Scheme) : Statement (.decblkSdes m p) := by cases m <;> cases p <;> exact fun h => by revert h; decide

theorem decblkLucifer (m : Mode) (p : Scheme) : Statement (.decblkLucifer m p) := by cases m <;> cases p <;> exact fun h => by revert h; decide

theorem decblkSp96 (m : Mode) (p : Scheme) : Statement (.decblkSp96 m p) := by cases m <;> cases p <;> exact fun h => by revert h; decide

end Sys2Proof.Laws.TableMatch
end

