-- ==== Sys2Proof/Laws/Sequencer.lean ====
section
/-! SUPPORT. The step of the machine case by case, the registers of the address map, and runs of several steps. -/
namespace Sys2Proof.Machine

/-! #### The step -/

/-- With no event to come the machine takes the sequencer's step. -/
theorem step_of_nil {s : State} (h : s.inbox = []) : step s = sequencerStep s := by
  unfold step machineStep
  rw [h]

/-- Otherwise the next event takes effect. -/
theorem step_of_cons {s : State} {e : Event} {rest : List Event} (h : s.inbox = e :: rest) :
    step s = handle e { s with inbox := rest } := by
  unfold step machineStep
  rw [h]

/-- Outside the working phases the sequencer has no step (R299). -/
theorem sequencerStep_of_none {s : State} (h : phaseReader s.seq.phase = none) : sequencerStep s = .next s := by
  unfold sequencerStep
  rw [h]

/-- In a working phase the sequencer runs the operation its reader finds in `CTRLL` and then moves `SEQ` (R246). -/
theorem sequencerStep_of_ok {s : State} {r : Reader} {i : Instr} {k : Control} (hr : phaseReader s.seq.phase = some r)
    (hi : decodeWord r s.work.ctrll = .ok i) (hk : decodeControl s.work.ctrll = .ok k) :
    sequencerStep s = advanceOutcome k (exec i s) := by
  unfold sequencerStep fetch
  simp only [hr, hi, hk]

/-- A reserved control word is `UnsupportedConfiguration` (R231). -/
theorem sequencerStep_of_error {s : State} {r : Reader} {e : DecodeError} (hr : phaseReader s.seq.phase = some r)
    (hk : decodeControl s.work.ctrll = .error e) : sequencerStep s = .next (raise .unsupportedConfiguration s) := by
  unfold sequencerStep
  simp only [hr, hk]
  cases fetch r s <;> rfl

theorem busy_of_reader {p : Phase} {r : Reader} (h : phaseReader p = some r) : p.busy = true := by
  revert h
  cases p <;> simp [phaseReader, Phase.busy, statusCode]

/-- RUN.ENC and RUN.DEC: the request as one function (R237, R238, R245). -/
theorem exec_selectRun (k : Control) (s : State) :
    exec (selectRun k) s = .next (finishRequest s (runLegal suite k s.request)) := by
  obtain ⟨c, m, p, d⟩ := k
  cases d <;> rfl

/-- `run` under a legal control word. -/
@[simp] theorem run_encodeControl (S : Suite) (k : Control) (q : Request) : run S (encodeControl k) q = runLegal S k q := by
  unfold run
  rw [decodeControl_encodeControl]

theorem runLegal_eq_ok {S : Suite} {k : Control} {q : Request} {out : BitValue} :
    runLegal S k q = .ok out ↔ ∃ o, validate k q = .ok o ∧ transform S k o = .ok out := by
  unfold runLegal
  cases validate k q <;> simp

/-! #### The address map -/

/-- A register that has one offset is found at that offset only (R61). -/
theorem offset_of_regAt {off : BitVec 32} :
    (regAt off = .ctrl → off = 0x000#32) ∧ (regAt off = .cmd → off = 0x004#32) ∧
    (regAt off = .keySize → off = 0x010#32) ∧ (regAt off = .ivSize → off = 0x014#32) ∧
    (regAt off = .dataSize → off = 0x018#32) ∧ (regAt off = .keyIn → off = 0x020#32) ∧
    (regAt off = .ivIn → off = 0x024#32) ∧ (regAt off = .dataIn → off = 0x028#32) ∧
    (regAt off = .cap → off = 0x03C#32) := by
  refine ⟨?_, ?_, ?_, ?_, ?_, ?_, ?_, ?_, ?_⟩ <;>
  · intro h
    unfold regAt at h
    split at h <;> try cases h
    · rename_i h
      exact BitVec.eq_of_toNat_eq h
    · split at h <;> cases h

/-- From `0x1000` on there is the OUT window and nothing else (R61). -/
theorem regAt_window {off : BitVec 32} (h : 0x1000 ≤ off.toNat) : (∃ k, regAt off = .out k) ∨ regAt off = .unmapped := by
  unfold regAt
  split <;> try omega
  split
  · exact .inl ⟨_, rfl⟩
  · exact .inr rfl

/-- A carried write: a command at CMD, a register elsewhere (R63). -/
theorem step_of_write {s : State} {off : BitVec 32} {v : Word} {rest : List Event}
    (h : s.inbox = .write off 4 v :: rest) (ha : off.toNat % 4 = 0) :
    step s =
      if regAt off = .cmd then commandWrite v { s with inbox := rest }
      else .next (portWrite { s with inbox := rest } off v) := by
  rw [step_of_cons h]
  simp only [handle, hostWrite, accessRefusal_eq_none.2 ⟨rfl, ha⟩]

/-! #### Runs -/

/-- A run of `a + b` steps is a run of `a` steps and then one of `b`. -/
theorem core_run_add (M : Host.Core) {a : Nat} (b : Nat) {s u : M.State} (h : M.run a s = .next u) :
    M.run (a + b) s = M.run b u := by
  induction a generalizing s with
  | zero => injection h with h; rw [Nat.zero_add, h]
  | succ a ih =>
    rw [Nat.add_right_comm]
    rw [Host.Core.run] at h ⊢
    cases hs : M.step s with
    | next v => simp only [hs] at h ⊢; exact ih h
    | fault f => simp only [hs] at h; cases h
    | refused f => simp only [hs] at h; cases h

theorem core_run_one (M : Host.Core) {s u : M.State} (h : M.step s = .next u) : M.run 1 s = .next u := by
  rw [Host.Core.run, h]
  rfl

end Sys2Proof.Machine
end

