-- ==== Sys2Proof/Tests/Slice0.lean ====
section
/-! SUPPORT. The model's own tests: the well-formedness checks, the decoding of every instruction from a word written out from the
tables of R94 and R95, one-step tests with the values of the spec's examples, and for every statement a concrete state that
meets its hypotheses (`witness_…`). -/
namespace Sys2Proof.Tests
open Sys2Proof.Machine

/-! #### Well-formedness: an ill-formed term for each check -/

theorem test_wf_encblkSdes_refused : (Instr.encblkSdes .dec .ecb .zero).wellFormed = false := by decide
theorem test_wf_encblkLucifer_refused : (Instr.encblkLucifer .dec .cbc .x923).wellFormed = false := by decide
theorem test_wf_encblkSp96_refused : (Instr.encblkSp96 .dec .ecb .pkcs7).wellFormed = false := by decide
theorem test_wf_decblkSdes_refused : (Instr.decblkSdes .ctr .zero).wellFormed = false := by decide
theorem test_wf_decblkLucifer_refused : (Instr.decblkLucifer .ctr .rfc1321).wellFormed = false := by decide
theorem test_wf_decblkSp96_refused : (Instr.decblkSp96 .ctr .x923).wellFormed = false := by decide

/-! #### Decoding: words written out from R94 and R95, and the reserved words of R92 -/

/-- A word's four bytes, lowest address first, decode for a reader to an instruction with nothing left. -/
def decodes (r : Reader) (b0 b1 b2 b3 : Byte) (i : Instr) : Prop := decodeBytes r [b0, b1, b2, b3] = .ok (i, [])

theorem test_decode_start : decodes .command 0x01 0 0 0 .start := by rfl
theorem test_decode_clear : decodes .command 0x02 0 0 0 .clear := by rfl
-- 0x00000065: ENCRYPTION, PKCS7, CBC, Lucifer
theorem test_decode_runEnc : decodes .pipeline 0x65 0 0 0 (.runEnc .lucifer .cbc .pkcs7) := by rfl
-- 0x00000028: DECRYPTION, PKCS7, CTR, SDES
theorem test_decode_runDec : decodes .pipeline 0x28 0 0 0 (.runDec .sdes .ctr .pkcs7) := by rfl
-- 0x00000052: ENCRYPTION, ANSI_X923, ECB, SimpleSP96
theorem test_decode_bbDecode : decodes .bbDecoder 0x52 0 0 0 (.bbDecode .sp96 .ecb .x923 .enc) := by rfl
-- 0x00000036: DECRYPTION, RFC_1321, CBC, SimpleSP96
theorem test_decode_bbEncode : decodes .bbEncoder 0x36 0 0 0 (.bbEncode .sp96 .cbc .rfc1321 .dec) := by rfl
theorem test_decode_padZero : decodes .padding 0x49 0 0 0 (.padZero .lucifer .ctr) := by rfl
theorem test_decode_padX923 : decodes .padding 0x56 0 0 0 (.padX923 .sp96 .cbc) := by rfl
theorem test_decode_padPkcs7 : decodes .padding 0x60 0 0 0 (.padPkcs7 .sdes .ecb) := by rfl
theorem test_decode_padRfc1321 : decodes .padding 0x79 0 0 0 (.padRfc1321 .lucifer .ctr) := by rfl
theorem test_decode_unpadZero : decodes .padding 0x0A 0 0 0 (.unpadZero .sp96 .ctr) := by rfl
theorem test_decode_unpadX923 : decodes .padding 0x15 0 0 0 (.unpadX923 .lucifer .cbc) := by rfl
theorem test_decode_unpadPkcs7 : decodes .padding 0x22 0 0 0 (.unpadPkcs7 .sp96 .ecb) := by rfl
theorem test_decode_unpadRfc1321 : decodes .padding 0x34 0 0 0 (.unpadRfc1321 .sdes .cbc) := by rfl
theorem test_decode_ecbEnc : decodes .modes 0x71 0 0 0 (.ecbEnc .lucifer .rfc1321) := by rfl
theorem test_decode_cbcEnc : decodes .modes 0x46 0 0 0 (.cbcEnc .sp96 .zero) := by rfl
theorem test_decode_ctrEnc : decodes .modes 0x58 0 0 0 (.ctrEnc .sdes .x923) := by rfl
theorem test_decode_ecbDec : decodes .modes 0x21 0 0 0 (.ecbDec .lucifer .pkcs7) := by rfl
theorem test_decode_cbcDec : decodes .modes 0x04 0 0 0 (.cbcDec .sdes .zero) := by rfl
theorem test_decode_ctrDec : decodes .modes 0x3A 0 0 0 (.ctrDec .sp96 .rfc1321) := by rfl
theorem test_decode_encblkSdes : decodes .cipher 0x64 0 0 0 (.encblkSdes .enc .cbc .pkcs7) := by rfl
theorem test_decode_encblkLucifer : decodes .cipher 0x19 0 0 0 (.encblkLucifer .dec .ctr .x923) := by rfl
theorem test_decode_encblkSp96 : decodes .cipher 0x42 0 0 0 (.encblkSp96 .enc .ecb .zero) := by rfl
theorem test_decode_decblkSdes : decodes .cipher 0x30 0 0 0 (.decblkSdes .ecb .rfc1321) := by rfl
theorem test_decode_decblkLucifer : decodes .cipher 0x05 0 0 0 (.decblkLucifer .cbc .zero) := by rfl
theorem test_decode_decblkSp96 : decodes .cipher 0x16 0 0 0 (.decblkSp96 .cbc .x923) := by rfl

theorem test_decode_reserved_bits : decodeWord .pipeline 0x00000080#32 = .error .reservedBits := by rfl
theorem test_decode_reserved_top_bit : decodeWord .modes 0x80000040#32 = .error .reservedBits := by rfl
theorem test_decode_reserved_cipher : decodeWord .padding 0x00000003#32 = .error .reservedCipher := by rfl
theorem test_decode_reserved_mode : decodeWord .cipher 0x0000000C#32 = .error .reservedMode := by rfl
theorem test_decode_reserved_command : decodeWord .command 0x00000003#32 = .error .reservedCommand := by rfl
theorem test_decode_truncated : decodeBytes .pipeline [0x40, 0, 0] = .error .truncated := by rfl
theorem test_tableWord_start : decodeTableWord 32 1 = some .start := by rfl
theorem test_tableWord_runEnc : decodeTableWord 32 0x40 = some (.runEnc .sdes .ecb .zero) := by rfl
theorem test_tableWord_reserved : decodeTableWord 32 0x8F = none := by rfl

/-! #### States for the tests -/

/-- The request `RUN.ENC SDES, ECB, PKCS7, key=10'h270, iv=0'h0, data=16'h4241` of R237, loaded and not started. -/
def loaded : State :=
  { State.reset with ctrl := 0x60#32, keySize := 10#32, keyq := [0x270#32], dataSize := 16#32, dataq := [0x4241#32] }

/-- The same, START accepted. -/
def started : State := { loaded with work := { Work.zero with ctrll := 0x60#32 }, seq := ⟨.validate, 0#32⟩ }

/-- `RUN.DEC SDES, ECB, PKCS7, key=10'h270, iv=0'h0, data=24'hBCC208` of R238, START accepted. -/
def startedDec : State :=
  { State.reset with
    ctrl := 0x20#32, keySize := 10#32, keyq := [0x270#32], dataSize := 24#32, dataq := [0xBCC208#32]
    work := { Work.zero with ctrll := 0x20#32 }, seq := ⟨.validate, 0#32⟩ }

/-- The first request in phase MODE, at its block 1. -/
def inMode : State :=
  { started with
    work := { Work.zero with
      ctrll := 0x60#32, keyV := 0x270#128, keyN := 10#32, ibuf := 0x014241, ibufN := 24#32, obuf := 0x08, obufN := 24#32
      nblk := 3#32 }
    seq := ⟨.mode, 1#32⟩ }

/-- The first request in DONE. -/
def finished : State := { loaded with outSize := 24#32, outq := [0xBCC208#32], seq := ⟨.done, 0#32⟩ }

/-- The first request failed with `MalformedInput`. -/
def failed : State := { loaded with errCode := 1#8, seq := ⟨.error, 0#32⟩ }

/-- Working registers at a unit's boundary, in a state that runs no request. -/
def atUnit (w : Work) : State := { State.reset with work := w }

/-- `n'hX` in `IBUF`. -/
def inputOf (n x : Nat) : State := atUnit { Work.zero with ibuf := x, ibufN := BitVec.ofNat 32 n }

/-- `n'hX` in `OBUF`. -/
def outputOf (n x : Nat) : State := atUnit { Work.zero with obuf := x, obufN := BitVec.ofNat 32 n }

/-- A block of `x` at the mode unit with the SDES key `10'h270`, an IV of `n` bits, chaining value and counter. -/
def blockOf (x n chain ctrv ctrw : Nat) : State :=
  atUnit { Work.zero with
    keyV := 0x270#128, keyN := 10#32, ivN := BitVec.ofNat 32 n, ibuf := x, ibufN := 16#32, nblk := 2#32
    chain := BitVec.ofNat 64 chain, ctrv := BitVec.ofNat 64 ctrv, ctrw := BitVec.ofNat 7 ctrw }

/-- A block at the cipher unit under a key of `n` bits. -/
def cipherOf (n : Nat) (key : Nat) (x : Nat) : State :=
  atUnit { Work.zero with keyV := BitVec.ofNat 128 key, keyN := BitVec.ofNat 32 n, blockPort := BitVec.ofNat 64 x }

/-- A view of the next state, where there is one. -/
def after {α : Type} (o : Host.Outcome State Fault Refusal) (f : State → α) : Option α :=
  match o with
  | .next t => some (f t)
  | .fault _ => none
  | .refused _ => none

/-! #### One step each, with the values of the spec's examples -/

-- R266: START latches CTRL
theorem test_start : after (exec .start loaded) (fun t => (t.seq, t.work.ctrll)) = some (⟨.validate, 0#32⟩, 0x60#32) := by
  decide
-- R267: CLEAR is ignored in BUSY
theorem test_clear_busy : after (exec .clear started) (fun t => (t.seq.phase, t.keySize)) = some (.validate, 10#32) := by
  decide
-- R267: CLEAR in DONE
theorem test_clear : after (exec .clear finished) (fun t => (t.seq.phase, t.keyq, t.outq)) = some (.idle, [], []) := by
  decide
-- R237, example
set_option maxRecDepth 20000 in
theorem test_runEnc : after (exec (.runEnc .sdes .ecb .pkcs7) started) (fun t => (t.outSize, t.outq)) =
    some (24#32, [0xBCC208#32]) := by
  decide
-- R238, example
set_option maxRecDepth 20000 in
theorem test_runDec : after (exec (.runDec .sdes .ecb .pkcs7) startedDec) (fun t => (t.outSize, t.outq)) =
    some (16#32, [0x4241#32]) := by
  decide
-- R232: key and data of the R237 example; ECB does not look at the IV
theorem test_bbDecode : after (exec (.bbDecode .sdes .ecb .pkcs7 .enc) { started with ivSize := 99#32 }) (fun t =>
    (t.work.keyV, t.work.keyN, t.work.ivN, t.work.ibuf, t.work.ibufN)) = some (0x270#128, 10#32, 0#32, 0x4241, 16#32) := by
  rfl
-- R121, example: 33 bits need two words
theorem test_bbDecode_short : after (exec (.bbDecode .sdes .ecb .zero .enc) { started with dataSize := 33#32 }) (fun t =>
    (t.seq.phase, t.errCode)) = some (.error, 1#8) := by
  decide
-- R120, example
theorem test_bbEncode : after (exec (.bbEncode .sdes .ecb .zero .enc) (outputOf 33 0x1FFFFFFFF)) (fun t =>
    (t.outSize, t.outq)) = some (33#32, [0xFFFFFFFF#32, 0x00000001#32]) := by
  decide
-- R141, example
theorem test_padZero : after (exec (.padZero .lucifer .ecb) (inputOf 24 0x434241)) (fun t =>
    (t.work.ibuf, t.work.ibufN)) = some (0x0000000000434241, 64#32) := by
  decide
-- R143, example
theorem test_padX923 : after (exec (.padX923 .lucifer .ecb) (inputOf 24 0x434241)) (fun t =>
    (t.work.ibuf, t.work.ibufN)) = some (0x0500000000434241, 64#32) := by
  decide
-- R145, example
theorem test_padPkcs7 : after (exec (.padPkcs7 .lucifer .ecb) (inputOf 24 0x434241)) (fun t =>
    (t.work.ibuf, t.work.ibufN)) = some (0x0505050505434241, 64#32) := by
  decide
-- R147, example
theorem test_padRfc1321 : after (exec (.padRfc1321 .sdes .ecb) (inputOf 10 0x270)) (fun t =>
    (t.work.ibuf, t.work.ibufN)) = some (0x0670, 16#32) := by
  decide
-- R140: not a whole number of bytes
theorem test_padPkcs7_partial : exec (.padPkcs7 .sdes .ecb) (inputOf 10 0x270) = .refused .padOperandNotBytes := by rfl
-- R142, example
theorem test_unpadZero : after (exec (.unpadZero .lucifer .ecb) (outputOf 64 0x434241)) (fun t =>
    (t.work.obuf, t.work.obufN)) = some (0x434241, 24#32) := by
  decide
-- R144, examples
theorem test_unpadX923 : after (exec (.unpadX923 .lucifer .ecb) (outputOf 64 0x0500000000434241)) (fun t =>
    (t.work.obuf, t.work.obufN)) = some (0x434241, 24#32) := by
  decide
theorem test_unpadX923_error : after (exec (.unpadX923 .lucifer .ecb) (outputOf 64 0x0500000100434241)) (fun t =>
    (t.seq.phase, t.errCode)) = some (.error, 4#8) := by
  decide
-- R146, examples
theorem test_unpadPkcs7 : after (exec (.unpadPkcs7 .lucifer .ecb) (outputOf 64 0x0808080808080808)) (fun t =>
    (t.work.obuf, t.work.obufN)) = some (0, 0#32) := by
  decide
theorem test_unpadPkcs7_error : after (exec (.unpadPkcs7 .lucifer .ecb) (outputOf 64 0x0505050405434241)) (fun t =>
    (t.seq.phase, t.errCode)) = some (.error, 4#8) := by
  decide
-- R148, examples
theorem test_unpadRfc1321 : after (exec (.unpadRfc1321 .sdes .ecb) (outputOf 16 0x0670)) (fun t =>
    (t.work.obuf, t.work.obufN)) = some (0x270, 10#32) := by
  decide
theorem test_unpadRfc1321_error : after (exec (.unpadRfc1321 .sdes .ecb) (outputOf 16 0x0070)) (fun t =>
    (t.seq.phase, t.errCode)) = some (.error, 4#8) := by
  decide
-- R202, example, block 0
set_option maxRecDepth 20000 in
theorem test_ecbEnc : after (exec (.ecbEnc .sdes .zero) (blockOf 0x4141 0 0 0 0)) (fun t => t.work.obuf) = some 0x08 := by
  decide
-- R205, example, block 0
set_option maxRecDepth 20000 in
theorem test_ecbDec : after (exec (.ecbDec .sdes .zero) (blockOf 0x0808 0 0 0 0)) (fun t => t.work.obuf) = some 0x41 := by
  decide
-- R203, example, block 0: CHAIN becomes the ciphertext
set_option maxRecDepth 20000 in
theorem test_cbcEnc : after (exec (.cbcEnc .sdes .zero) (blockOf 0x4241 8 0x5A 0 0)) (fun t =>
    (t.work.obuf, t.work.chain)) = some (0xA6, 0xA6#64) := by
  decide
-- R204, example, block 0: CHAIN becomes the ciphertext read
set_option maxRecDepth 20000 in
theorem test_cbcDec : after (exec (.cbcDec .sdes .zero) (blockOf 0xE1A6 8 0x5A 0 0)) (fun t =>
    (t.work.obuf, t.work.chain)) = some (0x41, 0xA6#64) := by
  decide
-- R207, example, block 0: the counter 3 of width 2 wraps to 0
set_option maxRecDepth 20000 in
theorem test_ctrEnc : after (exec (.ctrEnc .sdes .zero) (blockOf 0x4241 2 0 3 2)) (fun t =>
    (t.work.obuf, t.work.ctrv)) = some (0x02, 0#64) := by
  decide
-- R209, example, block 0
set_option maxRecDepth 20000 in
theorem test_ctrDec : after (exec (.ctrDec .sdes .zero) (blockOf 0xBC02 2 0 3 2)) (fun t =>
    (t.work.obuf, t.work.ctrv)) = some (0x41, 0#64) := by
  decide
-- R178, example
set_option maxRecDepth 20000 in
theorem test_encblkSdes : after (exec (.encblkSdes .enc .ecb .zero) (cipherOf 10 0x282 0x72)) (fun t =>
    t.work.blockPort) = some 0x77#64 := by
  decide
-- R179, example
set_option maxRecDepth 20000 in
theorem test_decblkSdes : after (exec (.decblkSdes .ecb .zero) (cipherOf 10 0x282 0x77)) (fun t =>
    t.work.blockPort) = some 0x72#64 := by
  decide
-- R281: the four operations with open constants check their key
theorem test_open_variants_key : after (exec (.encblkLucifer .enc .ecb .zero) (cipherOf 10 0 0)) (fun t => t.errCode) =
      some 2#8 ∧
    after (exec (.decblkLucifer .ecb .zero) (cipherOf 96 0 0)) (fun t => t.errCode) = some 2#8 ∧
    after (exec (.encblkSp96 .enc .ecb .zero) (cipherOf 128 0 0)) (fun t => t.errCode) = some 2#8 ∧
    after (exec (.decblkSp96 .ecb .zero) (cipherOf 10 0 0)) (fun t => t.errCode) = some 2#8 := by
  decide

/-- The TOY constants of 95_test_vectors section 4.2 (a test aid, not the hardware's). -/
def toyParams (h k : Nat) : CipherParams h k :=
  { subkeyBits := h, rounds := 3, keySchedule := fun key i => BitVec.ofNat h (key.toNat >>> (i * h))
    roundF := fun r s => r + s, iperm := fun x => x, ipermInv := fun x => x }

/-- SDES with the TOY constants for the two open variants. -/
def toySuite : Suite := ⟨sdesParams, toyParams 32 128, toyParams 24 96⟩

-- 95_test_vectors section 4.2
theorem test_toy_lucifer : cipherBlock toySuite .lucifer .enc (0x0F0E0D0C0B0A09080706050403020100#128)
    (0x0807060504030201#64) = (0x12171415120B0809#64) := by
  rfl
theorem test_toy_sp96 : cipherBlock toySuite .sp96 .enc (0x0C0B0A090807060504030201#96) (0x060504030201#48) =
    (0x0E0D1405040B#48) := by
  rfl
-- R176, check
theorem test_sdes_subkeys : subkeys sdesParams (0x282#10) = [0xA4#8, 0x43#8] := by rfl
-- R177, check
theorem test_sdes_roundF : sdesRoundF 0x9#4 0xA4#8 = 0x7#4 := by decide

-- the step after reset runs the instruction placed
theorem test_step_start : after (step (State.reset.withFetchWord 32 1)) (fun t => t.seq.phase) = some .validate := by decide
theorem test_step_runDec : after (step (State.reset.withFetchWord 32 0)) (fun t => (t.seq.phase, t.errCode)) =
    some (.error, 2#8) := by
  rfl

/-! #### Witnesses: for every statement with hypotheses, operands and states that meet them -/

theorem cap_bounds : 1 ≤ Config.dataCapWords ∧ Config.dataCapWords ≤ 134217725 := by
  unfold Config.dataCapWords; omega

theorem witness_DecodeBytesOfEncode : (Instr.runEnc .sdes .ecb .zero).wellFormed = true ∧
    (Instr.encblkLucifer .dec .ctr .rfc1321).wellFormed = true := by decide
theorem witness_EncodeOfDecodeWord : decodeWord .pipeline 0x0000007A#32 = .ok (.runEnc .sp96 .ctr .rfc1321) ∧
    decodeWord .bbEncoder 0x00000000#32 = .ok (.bbEncode .sdes .ecb .zero .dec) := by decide
theorem witness_BitBufferRoundTrip : (⟨33, 2 ^ 33 - 1⟩ : BitValue).Valid ∧ BitValue.empty.Valid ∧
    wordCount 33 ≤ [0xFFFFFFFF#32, 1#32].length := by decide
theorem witness_DecodeWordsBits : decodeWords [0#32] 33 = none ∧ decodeWords [0#32, 3#32] 33 = some ⟨33, 2 ^ 32⟩ := by decide
theorem witness_EncodeWordsFromBytes : (⟨33, 2 ^ 32⟩ : BitValue).Valid ∧ 1 < (encodeWords ⟨33, 2 ^ 32⟩).length := by decide

theorem witness_BbDecode_ecb : wordCount started.keySize.toNat ≤ started.keyq.length ∧
    wordCount started.dataSize.toNat ≤ started.dataq.length ∧ Mode.ecb ≠ .cbc := by decide
/-- `started` with an IV of 8 bits loaded. -/
def startedIv : State := { started with ivSize := 8#32, ivq := [0x5A#32] }
theorem witness_BbDecode_cbc : wordCount startedIv.keySize.toNat ≤ startedIv.keyq.length ∧
    wordCount startedIv.ivSize.toNat ≤ startedIv.ivq.length ∧ wordCount startedIv.dataSize.toNat ≤ startedIv.dataq.length := by
  decide
theorem witness_BbDecode_short_key : ({ started with keySize := 33#32 } : State).keyq.length < wordCount 33 := by decide
theorem witness_BbDecode_short_iv : Mode.ctr ≠ .ecb ∧
    ({ started with ivSize := 1#32 } : State).ivq.length < wordCount 1 := by decide
theorem witness_BbDecode_short_data : ({ started with dataSize := 33#32 } : State).dataq.length < wordCount 33 := by decide

theorem witness_PadBytes : (inputOf 24 0x434241).work.ibufN.toNat % 8 = 0 ∧ (inputOf 0 0).work.ibufN.toNat % 8 = 0 := by decide
theorem witness_PadRefusesPartialBytes : (inputOf 10 0x270).work.ibufN.toNat % 8 ≠ 0 := by decide
theorem witness_UnpadX923_least : (outputOf 64 0x0100000000434241).work.output.bytes.length % (blockBits .lucifer / 8) = 0 ∧
    (outputOf 64 0x0100000000434241).work.output.bytes =
      [0x41#8, 0x42#8, 0x43#8, 0#8, 0#8, 0#8, 0#8] ++ List.replicate (1 - 1) 0#8 ++ [BitVec.ofNat 8 1] := by decide
theorem witness_UnpadX923_whole_block : (outputOf 64 0x0800000000000000).work.output.bytes.length % (blockBits .lucifer / 8) = 0 ∧
    (outputOf 64 0x0800000000000000).work.output.bytes = [] ++ List.replicate (8 - 1) 0#8 ++ [BitVec.ofNat 8 8] := by decide
theorem witness_UnpadX923_raises : ¬ ∃ (r : List Byte) (k : Nat), 1 ≤ k ∧ k ≤ blockBits .lucifer / 8 ∧
    (outputOf 0 0).work.output.bytes.length % (blockBits .lucifer / 8) = 0 ∧
    (outputOf 0 0).work.output.bytes = r ++ List.replicate (k - 1) 0#8 ++ [BitVec.ofNat 8 k] := by
  rintro ⟨r, k, -, -, -, h⟩
  exact absurd (congrArg List.length h) (by simp [outputOf, atUnit, Work.output, BitValue.bytes, byteCount, cdiv])
theorem witness_UnpadPkcs7_least : (outputOf 64 0x0105050405434241).work.output.bytes.length % (blockBits .lucifer / 8) = 0 ∧
    (outputOf 64 0x0105050405434241).work.output.bytes =
      [0x41#8, 0x42#8, 0x43#8, 5#8, 4#8, 5#8, 5#8] ++ List.replicate 1 (BitVec.ofNat 8 1) := by decide
theorem witness_UnpadPkcs7_whole_block : (outputOf 64 0x0808080808080808).work.output.bytes.length % (blockBits .lucifer / 8) = 0 ∧
    (outputOf 64 0x0808080808080808).work.output.bytes = [] ++ List.replicate 8 (BitVec.ofNat 8 8) := by decide
theorem witness_UnpadPkcs7_raises : ¬ ∃ (r : List Byte) (k : Nat), 1 ≤ k ∧ k ≤ blockBits .lucifer / 8 ∧
    (outputOf 0 0).work.output.bytes.length % (blockBits .lucifer / 8) = 0 ∧
    (outputOf 0 0).work.output.bytes = r ++ List.replicate k (BitVec.ofNat 8 k) := by
  rintro ⟨r, k, hk, -, -, h⟩
  have := congrArg List.length h
  simp [outputOf, atUnit, Work.output, BitValue.bytes, byteCount, cdiv] at this
  omega
theorem witness_UnpadRfc1321_lowest : 0 < (outputOf 16 0x0170).work.obufN.toNat ∧
    (outputOf 16 0x0170).work.obufN.toNat % blockBits .sdes = 0 ∧ (outputOf 16 0x0170).work.obufN.toNat - blockBits .sdes ≤ 8 ∧
    8 < (outputOf 16 0x0170).work.obufN.toNat ∧ (outputOf 16 0x0170).work.obuf.testBit 8 = true ∧
    ∀ j, 8 < j → j < (outputOf 16 0x0170).work.obufN.toNat → (outputOf 16 0x0170).work.obuf.testBit j = false := by
  refine ⟨by decide, by decide, by decide, by decide, by decide, fun j h1 h2 => ?_⟩
  have h2 : j < 16 := h2
  interval_cases j <;> rfl
theorem witness_UnpadRfc1321_highest : (outputOf 16 0x8070).work.obufN.toNat - blockBits .sdes ≤ 15 ∧
    15 < (outputOf 16 0x8070).work.obufN.toNat ∧ (outputOf 16 0x8070).work.obuf.testBit 15 = true ∧
    ∀ j, 15 < j → j < (outputOf 16 0x8070).work.obufN.toNat → (outputOf 16 0x8070).work.obuf.testBit j = false := by
  refine ⟨by decide, by decide, by decide, fun j h1 h2 => ?_⟩
  have h2 : j < 16 := h2
  omega
theorem witness_UnpadRfc1321_raises : (outputOf 0 0).work.obufN.toNat = 0 ∧
    (outputOf 10 0x270).work.obufN.toNat % blockBits .sdes ≠ 0 ∧
    ∀ j, (outputOf 16 0x0070).work.obufN.toNat - blockBits .sdes ≤ j → j < (outputOf 16 0x0070).work.obufN.toNat →
      (outputOf 16 0x0070).work.obuf.testBit j = false := by
  refine ⟨by decide, by decide, fun j h1 h2 => ?_⟩
  have h1 : 8 ≤ j := h1
  have h2 : j < 16 := h2
  interval_cases j <;> rfl
theorem witness_PaddingReversible : (1 ≤ 8 ∧ 8 ≤ 255) ∧ (1 ≤ 1 ∧ 1 ≤ 255) ∧ 1 ≤ blockBits .sdes ∧
    (⟨10, 0x270⟩ : BitValue).Valid := by decide
theorem witness_ZeroPaddingLoss : [0x41#8, 0#8].getLast? = some 0#8 ∧ [0x41#8].getLast? ≠ some 0#8 := by decide

/-- The TOY constants for all three variants. -/
def plainSuite : Suite := ⟨toyParams 4 10, toyParams 32 128, toyParams 24 96⟩
/-- Serves every statement that asks `S.Bijective`: CipherInverse, ModesRoundTrip, DiffusionBoundaries, CbcWrongIv,
PipelineRoundTrip. -/
theorem witness_Bijective : plainSuite.Bijective :=
  ⟨⟨fun _ => rfl, fun _ => rfl⟩, ⟨fun _ => rfl, fun _ => rfl⟩, ⟨fun _ => rfl, fun _ => rfl⟩⟩

theorem witness_SdesBlocks : (cipherOf 10 0x282 0x72).work.keyN = 10#32 := by decide
theorem witness_OpenVariantBlocks : (cipherOf 128 1 2).work.keyN = 128#32 ∧ (cipherOf 96 1 2).work.keyN = 96#32 := by decide
theorem witness_UnitBoundaryWidths : (cipherOf 11 0 0).work.keyN ≠ 10#32 ∧ (cipherOf 127 0 0).work.keyN ≠ 128#32 ∧
    (cipherOf 97 0 0).work.keyN ≠ 96#32 ∧ (blockOf 0 7 0 0 0).work.ivN.toNat ≠ blockBits .sdes ∧
    (blockOf 0 0 0 0 0).work.ivN.toNat = 0 ∧ blockBits .sdes < (blockOf 0 9 0 0 0).work.ivN.toNat := by decide
theorem witness_EcbBlockStep : (blockOf 0x4141 0 0 0 0).work.keyN.toNat = keyBits .sdes ∧
    (cipherOf 128 0 0).work.keyN.toNat = keyBits .lucifer := by decide
theorem witness_CbcBlockStep : (blockOf 0x4241 8 0x5A 0 0).work.keyN.toNat = keyBits .sdes ∧
    (blockOf 0x4241 8 0x5A 0 0).work.ivN.toNat = blockBits .sdes := by decide
theorem witness_CtrBlockStep : (blockOf 0x4241 1 0 1 1).work.keyN.toNat = keyBits .sdes ∧
    1 ≤ (blockOf 0x4241 1 0 1 1).work.ivN.toNat ∧ (blockOf 0x4241 8 0 3 8).work.ivN.toNat ≤ blockBits .sdes ∧
    (blockOf 0x4241 1 0 1 1).work.ivN.toNat ≤ blockBits .sdes := by decide
theorem witness_ModesRoundTrip : ivWidthOk .ecb .sdes 0 = true ∧ ivWidthOk .cbc .sp96 48 = true ∧
    ivWidthOk .ctr .lucifer 1 = true ∧ ivWidthOk .ctr .lucifer 64 = true ∧
    (⟨16, 0x4241⟩ : BitValue).Valid ∧ 16 % blockBits .sdes = 0 := by decide
theorem witness_CtrKeystreamByIndex : (⟨2, 3⟩ : BitValue).Valid ∧ 1 ≤ 2 ∧ 2 ≤ blockBits .sdes ∧ 1 < 16 / blockBits .sdes := by
  decide
theorem witness_DiffusionBoundaries : 1 < 24 / blockBits .sdes ∧
    blockAt (blockBits .sdes) 0x434241 1 ≠ blockAt (blockBits .sdes) 0x43FF41 1 ∧
    ∀ j, j ≠ 1 → blockAt (blockBits .sdes) 0x434241 j = blockAt (blockBits .sdes) 0x43FF41 j := by
  refine ⟨by decide, by decide, fun j hj => ?_⟩
  match j, hj with
  | 0, _ => rfl
  | 2, _ => rfl
  | j + 3, _ =>
    have h : ∀ x < 2 ^ 24, x >>> ((j + 3) * 8) = 0 := fun x hx => by
      rw [Nat.shiftRight_eq_div_pow]
      exact Nat.div_eq_of_lt (lt_of_lt_of_le hx (Nat.pow_le_pow_right (by omega) (by omega)))
    simp [blockAt, blockBits, h 0x434241 (by norm_num), h 0x43FF41 (by norm_num)]
theorem witness_CbcWrongIv : (⟨8, 0x5A⟩ : BitValue).len = blockBits .sdes ∧ 0 < 16 / blockBits .sdes ∧
    1 < 16 / blockBits .sdes := by decide

theorem witness_ValidationOrder : (0x80#32).extractLsb' 7 25 ≠ 0#25 ∧ (0x43#32).extractLsb' 0 2 = 3#2 ∧
    (0x4C#32).extractLsb' 2 2 = 3#2 ∧ decodeControl 0x7A#32 = .ok ⟨.sp96, .ctr, .rfc1321, .enc⟩ := by decide
theorem witness_RunEncCompletes : validate ⟨.sdes, .ecb, .pkcs7, .enc⟩ started.request =
    .ok ⟨⟨10, 0x270⟩, ⟨0, 0⟩, ⟨16, 0x4241⟩⟩ := by decide
theorem witness_RunDec_validated : validate ⟨.sdes, .ecb, .pkcs7, .dec⟩ startedDec.request =
    .ok ⟨⟨10, 0x270⟩, ⟨0, 0⟩, ⟨24, 0xBCC208⟩⟩ := by decide
set_option maxRecDepth 20000 in
theorem witness_RunDec_completes :
    unpadValue .pkcs7 .sdes (modeValue suite .ecb .dec .sdes ⟨10, 0x270⟩ ⟨0, 0⟩ ⟨24, 0xBCC208⟩) = some ⟨16, 0x4241⟩ := by
  decide
-- the empty data of a RUN.DEC unpads under no scheme but Zero (R242)
theorem witness_RunDec_paddingError : validate ⟨.sdes, .ecb, .pkcs7, .dec⟩ { startedDec with dataSize := 0#32 }.request =
      .ok ⟨⟨10, 0x270⟩, ⟨0, 0⟩, ⟨0, 0⟩⟩ ∧
    unpadValue .pkcs7 .sdes (modeValue suite .ecb .dec .sdes ⟨10, 0x270⟩ ⟨0, 0⟩ ⟨0, 0⟩) = none := by decide
theorem witness_RequestFinalState : ({ started with inbox := [.runRequest] } : State).inbox = .runRequest :: [] ∧
    ({ started with inbox := [.runRequest] } : State).seq = ⟨.validate, 0#32⟩ := by decide
set_option maxRecDepth 20000 in
theorem witness_RequestFinalState_ok : run suite started.work.ctrll started.request = .ok ⟨24, 0xBCC208⟩ ∧
    run suite (encodeControl ⟨.sdes, .ecb, .pkcs7, .enc⟩) started.request = .ok ⟨24, 0xBCC208⟩ := by decide
theorem witness_RequestFinalState_error : run suite 0x80#32 started.request = .error .unsupportedConfiguration ∧
    run suite (encodeControl ⟨.lucifer, .ecb, .pkcs7, .enc⟩) started.request = .error .invalidKeyOrBlockSize := ⟨rfl, rfl⟩
theorem witness_RequestErrorKinds :
    run suite 0x20#32 { startedDec with dataSize := 0#32 }.request = .error .paddingError ∧
    run suite 0x60#32 State.reset.request = .error .invalidKeyOrBlockSize := ⟨rfl, rfl⟩
set_option maxRecDepth 20000 in
theorem witness_PipelineRoundTrip :
    started.request.dataq.length ≤ Config.dataCapWords ∧
    validate ⟨.sdes, .ecb, .pkcs7, .enc⟩ started.request = .ok ⟨⟨10, 0x270⟩, ⟨0, 0⟩, ⟨16, 0x4241⟩⟩ ∧
    (∃ out, runLegal plainSuite ⟨.sdes, .ecb, .pkcs7, .enc⟩ started.request = .ok out) ∧
    validate ⟨.sdes, .ecb, .zero, .enc⟩ started.request = .ok ⟨⟨10, 0x270⟩, ⟨0, 0⟩, ⟨16, 0x4241⟩⟩ ∧
    ∃ out, runLegal plainSuite ⟨.sdes, .ecb, .zero, .enc⟩ started.request = .ok out :=
  ⟨cap_bounds.1, by decide, ⟨_, rfl⟩, by decide, ⟨_, rfl⟩⟩
theorem witness_ResponseLength : (∃ out, runLegal plainSuite ⟨.sdes, .ecb, .rfc1321, .enc⟩ started.request = .ok out) ∧
    (∃ out, runLegal plainSuite ⟨.sdes, .ecb, .zero, .dec⟩ started.request = .ok out) ∧
    started.request.dataq.length ≤ Config.dataCapWords :=
  ⟨⟨_, rfl⟩, ⟨_, rfl⟩, cap_bounds.1⟩

theorem witness_QueuesFit : started.QueuesFit ∧ startedDec.QueuesFit :=
  ⟨⟨by decide, by decide, cap_bounds.1⟩, ⟨by decide, by decide, cap_bounds.1⟩⟩
theorem witness_StepsRefineRequest : started.inbox = [] ∧ started.seq = ⟨.validate, 0#32⟩ ∧ started.QueuesFit ∧
    decodeControl started.work.ctrll = .ok ⟨.sdes, .ecb, .pkcs7, .enc⟩ ∧
    validate ⟨.sdes, .ecb, .pkcs7, .enc⟩ started.request = .ok ⟨⟨10, 0x270⟩, ⟨0, 0⟩, ⟨16, 0x4241⟩⟩ :=
  ⟨rfl, rfl, witness_QueuesFit.1, by decide, by decide⟩
set_option maxRecDepth 20000 in
theorem witness_StepsRefineRequest_done : ∃ t, exec (selectRun ⟨.sdes, .ecb, .pkcs7, .enc⟩) started = .next t ∧
    t.seq.phase = .done := ⟨_, rfl, by decide⟩
/-- A request with a reserved control word latched. -/
def reserved : State := { started with work := { Work.zero with ctrll := 0x80#32 } }
theorem witness_FailedCheck_reserved : reserved.inbox = [] ∧ reserved.seq = ⟨.validate, 0#32⟩ ∧
    ∀ k, decodeControl reserved.work.ctrll ≠ .ok k := by
  refine ⟨rfl, rfl, fun k => ?_⟩
  rw [show decodeControl reserved.work.ctrll = .error .reservedBits from rfl]
  simp
theorem witness_FailedCheck_checked : decodeControl started.work.ctrll = .ok ⟨.sdes, .ecb, .pkcs7, .enc⟩ ∧
    validate ⟨.sdes, .ecb, .pkcs7, .enc⟩ { started with keySize := 9#32 }.request = .error .invalidKeyOrBlockSize := by decide
theorem witness_StepRuns_unit : inMode.inbox = [] ∧ phaseReader inMode.seq.phase = some .modes ∧
    fetch .modes inMode = .ok (.ecbEnc .sdes .pkcs7) ∧
    decodeControl inMode.work.ctrll = .ok ⟨.sdes, .ecb, .pkcs7, .enc⟩ := by decide
theorem witness_StepRuns_command : ({ loaded with inbox := [.write 4#32 4 1#32] } : State).inbox = .write 4#32 4 1#32 :: [] ∧
    decodeWord .command 1#32 = .ok .start := by decide
theorem witness_StepRuns_request : ({ started with inbox := [.runRequest] } : State).inbox = .runRequest :: [] ∧
    started.seq.phase = .validate ∧
    fetch .pipeline { started with inbox := [.runRequest] } = .ok (.runEnc .sdes .ecb .pkcs7) := by decide

theorem witness_StartAcceptedInIdle : loaded.seq.phase = .idle ∧ started.seq.phase ≠ .idle := by decide
theorem witness_ClearRestoresReset : loaded.seq.phase = .idle ∧ finished.seq.phase = .done ∧ failed.seq.phase = .error ∧
    portRead started 0x008#32 = 1#32 := by decide
theorem witness_ResetEvent : ({ started with inbox := [.reset, .sequencerStep] } : State).inbox =
    .reset :: [.sequencerStep] := by decide
theorem witness_HostRead_aligned : ({ loaded with inbox := [.read 0xFFFFFFFC#32 4] } : State).inbox =
    .read 0xFFFFFFFC#32 4 :: [] ∧ (0xFFFFFFFC#32).toNat % 4 = 0 := by decide
theorem witness_HostRead_gap : 0x040 ≤ (0x040#32).toNat ∧ (0x040#32).toNat < 0x1000 ∧ 0x040 ≤ (0xFFC#32).toNat ∧
    (0xFFC#32).toNat < 0x1000 ∧ (0xFFC#32).toNat % 4 = 0 := by decide
theorem witness_HostRead_above_window :
    0x1000 + 4 * Config.outCapWords ≤ (BitVec.ofNat 32 (0x1000 + 4 * Config.outCapWords)).toNat ∧
    (BitVec.ofNat 32 (0x1000 + 4 * Config.outCapWords)).toNat % 4 = 0 ∧
    0x1000 + 4 * Config.outCapWords ≤ (0xFFFFFFFC#32).toNat := by
  have := cap_bounds
  refine ⟨?_, ?_, ?_⟩ <;> simp [BitVec.toNat_ofNat, Config.outCapWords] <;> omega
theorem witness_BadAccess : (2 ≠ 4 ∨ (0x000#32).toNat % 4 ≠ 0) ∧ (4 ≠ 4 ∨ (0x002#32).toNat % 4 ≠ 0) ∧
    ({ loaded with inbox := [.read 0x000#32 2] } : State).inbox = .read 0x000#32 2 :: [] ∧
    ({ loaded with inbox := [.write 0x002#32 4 7#32] } : State).inbox = .write 0x002#32 4 7#32 :: [] := by decide
theorem witness_RegisterWrite : ({ loaded with inbox := [.write 0x000#32 4 7#32] } : State).inbox =
      .write 0x000#32 4 7#32 :: [] ∧
    ({ loaded with inbox := [.write 0x018#32 4 7#32] } : State).inbox = .write 0x018#32 4 7#32 :: [] ∧
    loaded.seq.phase = .idle := by decide
theorem witness_Push : State.reset.seq.phase = .idle ∧ State.reset.keyq.length < 4 ∧
    ({ State.reset with keyq := List.replicate 4 1#32, inbox := [.write 0x020#32 4 7#32] } : State).inbox =
      .write 0x020#32 4 7#32 :: [] ∧ ¬ (List.replicate 4 1#32).length < 4 := by decide
theorem witness_Push_data : State.reset.dataq.length < Config.dataCapWords ∧
    ¬ (List.replicate Config.dataCapWords 1#32).length < Config.dataCapWords :=
  ⟨cap_bounds.1, by simp⟩
theorem witness_IgnoredWrites : (started.seq.phase ≠ .idle ∧ (0x000#32 : BitVec 32) ≠ 0x004#32) ∧
    (0x008#32 : BitVec 32) ∈ [0x008#32, 0x00C#32, 0x01C#32, 0x02C#32, 0x030#32, 0x034#32, 0x038#32, 0x03C#32] ∧
    0x040 ≤ (0x040#32).toNat ∧ (3#32 ≠ 1#32 ∧ 3#32 ≠ 2#32) ∧ loaded.seq.phase = .idle ∧
    ({ loaded with inbox := [.write 0x004#32 4 3#32] } : State).inbox = .write 0x004#32 4 3#32 :: [] := by decide
theorem witness_IgnoredWrites_readOnly : ({ loaded with inbox := [.write 0x03C#32 4 7#32] } : State).inbox =
      .write 0x03C#32 4 7#32 :: [] ∧ (0x03C#32).toNat % 4 = 0 ∧
    (0x03C#32 : BitVec 32) ∈ [0x008#32, 0x00C#32, 0x01C#32, 0x02C#32, 0x030#32, 0x034#32, 0x038#32, 0x03C#32] := by decide
theorem witness_BusyIgnoresTheHost : inMode.seq.phase.busy = true ∧
    (Event.read 0x008#32 4).isAccess = true ∧ (Event.write 0x004#32 4 2#32).isAccess = true ∧
    (Event.read 0x008#32 4).Carried ∧ (Event.write 0x004#32 4 2#32).Carried :=
  ⟨by decide, rfl, rfl, ⟨rfl, rfl⟩, ⟨rfl, rfl⟩⟩
theorem witness_OnlyClear_stays : failed.seq.phase = .error ∧ finished.seq.phase = .done ∧ step failed = .next failed ∧
    step finished = .next finished := ⟨rfl, rfl, rfl, rfl⟩
theorem witness_OnlyClear_leaves : ∃ t, step { failed with inbox := [.write 0x004#32 4 2#32] } = .next t := ⟨_, rfl⟩
theorem witness_Raise : run suite 0x60#32 State.reset.request = .error .invalidKeyOrBlockSize ∧
    started.seq.phase ≠ .error ∧ (0xFFC#32).toNat < 0x1000 ∧
    (0x000#32 : BitVec 32) ∉ [0x008#32, 0x00C#32, 0x01C#32, 0x02C#32] ∧ 0x1000 ≤ (0x1000#32).toNat :=
  ⟨rfl, by decide, by decide, by decide, by decide⟩
theorem witness_SecretsUnreadable : ∃ t : State, t ≠ started ∧ started.keyq.length = t.keyq.length ∧
    started.ivq.length = t.ivq.length ∧ started.dataq.length = t.dataq.length ∧
    t = { started with keyq := t.keyq, ivq := t.ivq, dataq := t.dataq, work := t.work } :=
  ⟨{ started with keyq := [0x271#32], dataq := [0#32], work := Work.zero }, by decide, rfl, rfl, rfl, rfl⟩

/-- The first request in phase PAD, UNPAD (of the second) and ENCODE. -/
def inPad : State :=
  { started with
    work := { Work.zero with ctrll := 0x60#32, keyV := 0x270#128, keyN := 10#32, ibuf := 0x4241, ibufN := 16#32 }
    seq := ⟨.pad, 0#32⟩ }
def inUnpad : State :=
  { startedDec with
    work := { Work.zero with ctrll := 0x20#32, keyV := 0x270#128, keyN := 10#32, obuf := 0x014241, obufN := 24#32 }
    seq := ⟨.unpad, 0#32⟩ }
def inEncode : State :=
  { started with
    work := { Work.zero with ctrll := 0x60#32, keyV := 0x270#128, keyN := 10#32, obuf := 0xBCC208, obufN := 24#32 }
    seq := ⟨.encode, 0#32⟩ }

theorem witness_Inv_started : started.Inv :=
  ⟨⟨by decide, by decide, cap_bounds.1⟩, ⟨by decide, by decide, by decide, by decide, by decide, by decide, by decide⟩, fun h => by
    simp [started] at h⟩
theorem witness_Inv_inPad : inPad.Inv :=
  ⟨⟨by decide, by decide, cap_bounds.1⟩, ⟨by decide, by decide, by decide, by decide, by decide, by decide, by decide⟩, fun _ =>
    ⟨⟨.sdes, .ecb, .pkcs7, .enc⟩, by decide, by decide, by decide, rfl, by decide, by decide, by
      have := cap_bounds; show 16 ≤ _; omega⟩⟩
theorem witness_Inv_inMode : inMode.Inv :=
  ⟨⟨by decide, by decide, cap_bounds.1⟩, ⟨by decide, by decide, by decide, by decide, by decide, by decide, by decide⟩, fun _ =>
    ⟨⟨.sdes, .ecb, .pkcs7, .enc⟩, by decide, by decide, by decide, by decide, by decide, by
      show 24 ≤ _; unfold maxBits; omega, by decide, by decide⟩⟩
theorem witness_Inv_inUnpad : inUnpad.Inv :=
  ⟨⟨by decide, by decide, cap_bounds.1⟩, ⟨by decide, by decide, by decide, by decide, by decide, by decide, by decide⟩, fun _ =>
    ⟨⟨.sdes, .ecb, .pkcs7, .dec⟩, by decide, by decide, by decide, rfl, by decide, by decide, by
      show 24 ≤ _; unfold maxBits; omega⟩⟩
theorem witness_Inv_inEncode : inEncode.Inv :=
  ⟨⟨by decide, by decide, cap_bounds.1⟩, ⟨by decide, by decide, by decide, by decide, by decide, by decide, by decide⟩, fun _ =>
    ⟨⟨.sdes, .ecb, .pkcs7, .enc⟩, by decide, by decide, by decide, by decide, by
      show 24 ≤ _; unfold maxBits; omega⟩⟩
theorem witness_Inv_finished : finished.Inv :=
  ⟨⟨by decide, by decide, cap_bounds.1⟩, ⟨by decide, by decide, by decide, by decide, fun _ => ⟨by decide, by
    show 1 ≤ _; unfold Config.outCapWords; omega⟩, by decide, by decide⟩, fun h => by simp [finished] at h⟩
theorem witness_Inv_failed : failed.Inv :=
  ⟨⟨by decide, by decide, cap_bounds.1⟩, ⟨by decide, by decide, by decide, by decide, by decide, by decide, by decide⟩,
    fun h => by simp [failed] at h⟩
theorem witness_ResponseRegisters : finished.Inv ∧ finished.seq.phase = .done ∧ 0 < finished.outq.length ∧
    0 < Config.outCapWords ∧ ¬ 1 < finished.outq.length ∧ 1 < Config.outCapWords ∧
    started.seq.phase ≠ .done ∧ failed.seq.phase = .error ∧ finished.seq.phase ≠ .error ∧ 0x1000 ≤ (0x1000#32).toNat :=
  ⟨witness_Inv_finished, rfl, by decide, by unfold Config.outCapWords; omega, by decide, by
    have := cap_bounds; unfold Config.outCapWords; omega, by decide, by decide, by decide, by decide⟩
theorem witness_StepKeepsInv : (∃ t, step started = .next t) ∧ (∃ t, step inPad = .next t) ∧ (∃ t, step inMode = .next t) ∧
    (∃ t, step inUnpad = .next t) ∧ (∃ t, step inEncode = .next t) ∧ ∃ t, step finished = .next t :=
  ⟨⟨_, rfl⟩, ⟨_, rfl⟩, ⟨_, rfl⟩, ⟨_, rfl⟩, ⟨_, rfl⟩, ⟨_, rfl⟩⟩
/-- `inMode` with a host access to come. -/
def inModeRead : State := { inMode with inbox := [.read 0x008#32 4] }
theorem witness_InvStatesStep : inModeRead.Inv ∧ ∀ e rest, inModeRead.inbox = e :: rest → e.Carried := by
  refine ⟨⟨?_, ?_, witness_Inv_inMode.request⟩, fun e rest h => ?_⟩
  · obtain ⟨h1, h2, h3⟩ := witness_Inv_inMode.queues
    exact ⟨h1, h2, h3⟩
  · obtain ⟨h1, h2, h3, h4, h5, h6, h7⟩ := witness_Inv_inMode.phase
    exact ⟨h1, h2, h3, h4, h5, h6, h7⟩
  · obtain ⟨rfl, -⟩ := List.cons.inj h
    exact ⟨rfl, rfl⟩

end Sys2Proof.Tests
end

section
/-! PROOF of O22. The constants of this machine (spec/42_feistel.md R174 to R183): a bit permutation written as a
table is undone by the table of the inverse. -/
namespace Sys2Proof.Machine

/-- Reading a number's bits off a fold that shifts them in from the right: the last one shifted in is bit 0. -/
theorem testBit_foldl_shiftIn (f : Nat → Bool) (T : List Nat) (j : Nat) :
    (T.foldl (fun acc t => 2 * acc + (f t).toNat) 0).testBit j = (T.reverse.map f).getD j false := by
  induction T using List.reverseRecOn generalizing j with
  | nil => simp
  | append_singleton T t ih =>
    rw [List.foldl_append, List.foldl_cons, List.foldl_nil, List.reverse_append, List.reverse_singleton]
    cases j with
    | zero => cases h : f t <;> simp [h]
    | succ j =>
      have hbit := Bool.toNat_lt (f t)
      rw [Nat.testBit_succ, show ∀ a, (2 * a + (f t).toNat) / 2 = a by omega, ih]
      simp

/-- Bit `j` of a permuted word is the source bit that the table names for position `m - j` (R174). -/
theorem getLsbD_permBits {n m : Nat} (u : BitVec n) {T : List Nat} (hT : T.length = m) {j : Nat} (hj : j < m) :
    (permBits m u T).getLsbD j = u.getLsbD (n - T.getD (m - 1 - j) 0) := by
  have hk : m - 1 - j < T.length := by omega
  rw [permBits, BitVec.getLsbD_ofNat, testBit_foldl_shiftIn]
  simp [hj, hT, List.getElem?_eq_getElem hk]

/-- The table `U` undoes the table `T`: position `q` of the result comes, through `T`, from position `q` of the source. -/
def TablesInverse (n : Nat) (T U : List Nat) : Prop :=
  T.length = n ∧ U.length = n ∧ ∀ q < n, 1 ≤ U.getD q 0 ∧ U.getD q 0 ≤ n ∧ T.getD (U.getD q 0 - 1) 0 = q + 1

/-- A permutation of bits is undone by the permutation of the inverse table (R175). -/
theorem permBits_permBits {n : Nat} {T U : List Nat} (h : TablesInverse n T U) (x : BitVec n) :
    permBits n (permBits n x T) U = x := by
  obtain ⟨hT, hU, hinv⟩ := h
  refine BitVec.eq_of_getLsbD_eq fun j hj => ?_
  obtain ⟨hpos, hle, hback⟩ := hinv (n - 1 - j) (by omega)
  rw [getLsbD_permBits _ hU hj, getLsbD_permBits _ hT (by omega)]
  have hq : n - 1 - (n - U.getD (n - 1 - j) 0) = U.getD (n - 1 - j) 0 - 1 := by omega
  rw [hq, hback]
  congr 1
  omega

theorem tablesInverse_IP : TablesInverse 8 tableIP tableIPInv := by
  unfold TablesInverse; decide

theorem tablesInverse_IPInv : TablesInverse 8 tableIPInv tableIP := by
  unfold TablesInverse; decide

/-- `IP` and `IP⁻¹` of SDES (R175). -/
theorem sdesParams_bijective : sdesParams.Bijective :=
  ⟨permBits_permBits tablesInverse_IP, permBits_permBits tablesInverse_IPInv⟩

theorem luciferParams_bijective : luciferParams.Bijective :=
  ⟨Config.luciferIperm.symm_apply_apply, Config.luciferIperm.apply_symm_apply⟩

theorem sp96Params_bijective : sp96Params.Bijective :=
  ⟨Config.sp96Iperm.symm_apply_apply, Config.sp96Iperm.apply_symm_apply⟩

/-- Every `IPERM` of this machine is a bijection (R6). -/
theorem suite_bijective : suite.Bijective :=
  ⟨sdesParams_bijective, luciferParams_bijective, sp96Params_bijective⟩

/-- Settles O22: the bijections above; the round counts of the open variants are successors by construction. -/
theorem machineConstantsAdmissible : Obligations.MachineConstantsAdmissible :=
  ⟨suite_bijective, rfl, rfl, Nat.le_add_left 1 _, Nat.le_add_left 1 _⟩

end Sys2Proof.Machine
end

section
/-! SUPPORT. What each operation of the sequencer does to the state, said once: the operation a phase selects, where `SEQ` goes
after it, the frame of a block of phase MODE, and the bounds on a request's response. -/
namespace Sys2Proof.Machine

/-! #### Bounds -/

/-- The length of every BitValue of a request fits its 32-bit size register (R12 f). -/
theorem maxBits_lt : maxBits < 2 ^ 32 := by
  unfold maxBits Config.dataCapWords
  omega

theorem blockBits_le (c : Cipher) : blockBits c ≤ 64 := by
  cases c <;> decide

theorem dataBits_le_maxBits {n : Nat} (h : n ≤ 32 * Config.dataCapWords) : n ≤ maxBits :=
  h.trans (Nat.le_add_right _ _)

/-- Padding a BitValue of the data queue keeps it within the longest of a request (R248). -/
theorem padded_le_maxBits {c : Cipher} {n m : Nat} (h : n ≤ 32 * Config.dataCapWords) (hm : m ≤ n + blockBits c) :
    m ≤ maxBits :=
  hm.trans (Nat.add_le_add h (blockBits_le c))

/-- The words of a response fit the output buffer (R32, R248). -/
theorem wordCount_le_outCap {n : Nat} (h : n ≤ maxBits) : wordCount n ≤ Config.outCapWords := by
  refine wordCount_le (h.trans ?_)
  unfold maxBits Config.outCapWords
  omega

/-! #### Register writes -/

@[simp] theorem writeReg_work (s : State) (v : Word) (r : Reg) : (writeReg s v r).work = s.work := by
  rw [writeReg_frame]
@[simp] theorem writeReg_seq (s : State) (v : Word) (r : Reg) : (writeReg s v r).seq = s.seq := by
  rw [writeReg_frame]
@[simp] theorem writeReg_outq (s : State) (v : Word) (r : Reg) : (writeReg s v r).outq = s.outq := by
  rw [writeReg_frame]
@[simp] theorem writeReg_outSize (s : State) (v : Word) (r : Reg) : (writeReg s v r).outSize = s.outSize := by
  rw [writeReg_frame]
@[simp] theorem writeReg_errCode (s : State) (v : Word) (r : Reg) : (writeReg s v r).errCode = s.errCode := by
  rw [writeReg_frame]

/-! #### The operation each phase selects -/

theorem decodeRequest_of_ok {m : Mode} {s : State} {o : Operands} (h : decodeOperands m s.request = .ok o) :
    decodeRequest m s = .ok { s with work := s.work.loadOperands o } := by
  rw [decodeRequest, h]
  rfl

theorem decodeRequest_of_error {m : Mode} {s : State} {e : ErrKind} (h : decodeOperands m s.request = .error e) :
    decodeRequest m s = .error e := by
  rw [decodeRequest, h]
  rfl

theorem exec_selectDecode (k : Control) (s : State) : exec (selectDecode k) s = settle s (decodeRequest k.mode s) := rfl

theorem exec_selectEncode (k : Control) (s : State) : exec (selectEncode k) s = .next (publish s.work.output s) := rfl

/-- Encrypting, the padding engine pads `IBUF`; the byte-granular schemes do so on whole bytes (R140, R237). -/
theorem exec_selectPadding_enc {k : Control} {s : State} (hd : k.dir = .enc)
    (h8 : byteGranular k.padding = true → s.work.ibufN.toNat % 8 = 0) :
    exec (selectPadding k) s = .next (padInput k.padding k.cipher s) := by
  obtain ⟨c, m, p, d⟩ := k
  subst hd
  cases p with
  | zero => exact padBytesInput_of_bytes (h8 rfl)
  | x923 => exact padBytesInput_of_bytes (h8 rfl)
  | pkcs7 => exact padBytesInput_of_bytes (h8 rfl)
  | rfc1321 => rfl

/-- Decrypting, the padding engine unpads `OBUF` (R140, R238). -/
theorem exec_selectPadding_dec {k : Control} {s : State} (hd : k.dir = .dec) :
    exec (selectPadding k) s = settle s (unpadOutput k.padding k.cipher s) := by
  obtain ⟨c, m, p, d⟩ := k
  subst hd
  cases p <;> rfl

/-- One block of a mode in a direction (R202 to R209): the common shape of the six mode operations. -/
def modeStep (m : Mode) (d : Direction) (c : Cipher) (s : State) : Except ErrKind State :=
  match m, d with
  | .ecb, d => ecbStep c d s
  | .cbc, .enc => cbcEncStep c s
  | .cbc, .dec => cbcDecStep c s
  | .ctr, _ => ctrStep c s

theorem exec_selectMode (k : Control) (s : State) :
    exec (selectMode k) s = settle s (modeStep k.mode k.dir k.cipher s) := by
  obtain ⟨c, m, p, d⟩ := k
  cases m <;> cases d <;> rfl

/-- A word at CMD is one of the two commands (R95). -/
theorem decodeWord_command {v : Word} {i : Instr} (h : decodeWord .command v = .ok i) : i = .start ∨ i = .clear := by
  change decodeCommand v = .ok i at h
  unfold decodeCommand at h
  split at h
  · exact .inl (Except.ok.inj h).symm
  · split at h
    · exact .inr (Except.ok.inj h).symm
    · cases h

/-! #### One block of phase MODE -/

/-- `u` is `s` with a block stored at `SEQ.BLK` of `OBUF`; besides, only the mode and cipher units' own registers changed, to
those of some `w` (R200, R202 to R209). -/
def State.StoresBlock (c : Cipher) (s u : State) : Prop :=
  ∃ (y : BitVec (blockBits c)) (w : Work), u = { s with work := { (s.storeBlock c y).work with
    chain := w.chain, ctrv := w.ctrv, l := w.l, r := w.r, subkey := w.subkey, blockPort := w.blockPort } }

/-- With a key of the variant's width the cipher unit runs on the block it is handed (R170). -/
theorem throughCipher_of_key {c : Cipher} {s : State} (hk : s.work.keyN.toNat = keyBits c) (d : Direction)
    (x : BitVec (blockBits c)) :
    throughCipher c d x s = .ok { s with work := (s.putOnPort c x).work.runCipher c d } :=
  cipherUnit_eq_ok.2 ⟨hk, rfl⟩

/-- A block stored after a run of the cipher unit. -/
theorem storesBlock_of_runCipher (c : Cipher) (d : Direction) (x y : BitVec (blockBits c)) (s : State) :
    s.StoresBlock c (({ s with work := (s.putOnPort c x).work.runCipher c d } : State).storeBlock c y) :=
  ⟨y, (s.putOnPort c x).work.runCipher c d, rfl⟩

theorem State.StoresBlock.setChain {c : Cipher} {s u : State} (h : s.StoresBlock c u) (z : BitVec (blockBits c)) :
    s.StoresBlock c (u.setChain c z) := by
  obtain ⟨y, w, rfl⟩ := h
  exact ⟨y, { w with chain := z.setWidth 64 }, rfl⟩

theorem State.StoresBlock.stepCounter {c : Cipher} {s u : State} (h : s.StoresBlock c u) :
    s.StoresBlock c u.stepCounter := by
  obtain ⟨y, w, rfl⟩ := h
  exact ⟨y, { w with ctrv := _ }, rfl⟩

/-- With a key and an IV of the widths the control word asks for, a mode operation stores one block and raises nothing
(R281). -/
theorem modeStep_storesBlock {m : Mode} {c : Cipher} {s : State} (d : Direction) (hk : s.work.keyN.toNat = keyBits c)
    (hi : ivWidthOk m c s.work.ivN.toNat = true) : ∃ u, modeStep m d c s = .ok u ∧ s.StoresBlock c u := by
  have hcipher := throughCipher_of_key hk
  have hstores := fun e x y => storesBlock_of_runCipher c e x y s
  cases m with
  | ecb => exact ⟨_, by rw [modeStep, ecbStep, hcipher]; rfl, hstores _ _ _⟩
  | cbc =>
    cases d with
    | enc => exact ⟨_, withIv_eq_ok.2 ⟨hi, by rw [hcipher]; rfl⟩, (hstores _ _ _).setChain _⟩
    | dec => exact ⟨_, withIv_eq_ok.2 ⟨hi, by rw [hcipher]; rfl⟩, (hstores _ _ _).setChain _⟩
  | ctr => exact ⟨_, withIv_eq_ok.2 ⟨hi, by rw [hcipher]; rfl⟩, (hstores _ _ _).stepCounter⟩

/-! #### Where `SEQ` goes -/

/-- An error already stands at `(ERROR, 0)`: the sequencer does not move it (R284). -/
@[simp] theorem advance_raise (k : Control) (e : ErrKind) (s : State) : advance k (raise e s) = raise e s := rfl

@[simp] theorem advanceOutcome_next (k : Control) (s : State) : advanceOutcome k (.next s) = .next (advance k s) := rfl

theorem advance_validate {k : Control} {s : State} (h : s.seq.phase = .validate) : advance k s = leaveValidate k s := by
  simp only [advance, h]

theorem advance_pad {k : Control} {s : State} (h : s.seq.phase = .pad) : advance k s = enterMode k s := by
  simp only [advance, h]

theorem advance_mode {k : Control} {s : State} (h : s.seq.phase = .mode) : advance k s = leaveBlock k s := by
  simp only [advance, h]

theorem advance_unpad {k : Control} {s : State} (h : s.seq.phase = .unpad) :
    advance k s = { s with seq := ⟨.encode, 0#32⟩ } := by
  simp only [advance, h]

theorem advance_encode {k : Control} {s : State} (h : s.seq.phase = .encode) : advance k s = complete s := by
  simp only [advance, h]

/-- What the entry of phase MODE sets up for the mode leaves every register but `CHAIN`, `CTRV` and `CTRW` unchanged. -/
theorem initMode_frame (k : Control) (w : Work) :
    w.initMode k = { w with
      chain := (w.initMode k).chain, ctrv := (w.initMode k).ctrv, ctrw := (w.initMode k).ctrw } := by
  unfold Work.initMode
  cases k.mode <;> rfl

@[simp] theorem initMode_ctrll (k : Control) (w : Work) : (w.initMode k).ctrll = w.ctrll := by
  rw [initMode_frame]
@[simp] theorem initMode_keyN (k : Control) (w : Work) : (w.initMode k).keyN = w.keyN := by
  rw [initMode_frame]
@[simp] theorem initMode_ivN (k : Control) (w : Work) : (w.initMode k).ivN = w.ivN := by
  rw [initMode_frame]
@[simp] theorem initMode_ibuf (k : Control) (w : Work) : (w.initMode k).ibuf = w.ibuf := by
  rw [initMode_frame]
@[simp] theorem initMode_ibufN (k : Control) (w : Work) : (w.initMode k).ibufN = w.ibufN := by
  rw [initMode_frame]
@[simp] theorem initMode_obuf (k : Control) (w : Work) : (w.initMode k).obuf = w.obuf := by
  rw [initMode_frame]
@[simp] theorem initMode_nblk (k : Control) (w : Work) : (w.initMode k).nblk = w.nblk := by
  rw [initMode_frame]

/-! #### The request as one function -/

/-- The transform of valid operands lengthens the data by one block of padding at most (R248). -/
theorem transform_len_le {S : Suite} {k : Control} {o : Operands} {out : BitValue} (hv : o.data.Valid)
    (h8 : k.dir = .enc → byteGranular k.padding = true → o.data.len % 8 = 0) (h : transform S k o = .ok out) :
    out.len ≤ o.data.len + blockBits k.cipher := by
  have hmode : ∀ d data, (modeValue S k.mode d k.cipher o.key o.iv data).len ≤ data.len := fun d data => by
    rw [modeValue_len]
    exact Nat.div_mul_le_self _ _
  unfold transform at h
  split at h
  · rename_i hd
    obtain ⟨-, -, -, hpad⟩ := padValue_spec k.padding k.cipher hv (h8 hd)
    exact Except.ok.inj h ▸ (hmode _ _).trans hpad
  · split at h
    · rename_i v hu
      have hwhole : (modeValue S k.mode .dec k.cipher o.key o.iv o.data).len % blockBits k.cipher = 0 := by
        rw [modeValue_len, Nat.mul_mod_left]
      exact Except.ok.inj h ▸ ((unpadValue_spec hwhole hu).2.trans (hmode _ _)).trans (Nat.le_add_right _ _)
    · cases h

/-- The response of a request whose data queue is within its capacity is no longer than `OBUF` (R248). -/
theorem runLegal_len_le {S : Suite} {k : Control} {q : Request} {out : BitValue}
    (hq : q.dataq.length ≤ Config.dataCapWords) (h : runLegal S k q = .ok out) : out.len ≤ maxBits := by
  obtain ⟨o, hvalid, htrans⟩ := runLegal_eq_ok.1 h
  obtain ⟨hdec, hw⟩ := validate_eq_ok.1 hvalid
  obtain ⟨-, -, hv, -, hlen, -, hwords⟩ := decodeOperands_spec hdec
  obtain ⟨-, -, h8, -⟩ := widthError_eq_none.1 hw
  exact padded_le_maxBits (hlen ▸ le_of_wordCount_le (hwords.trans hq)) (transform_len_le hv h8 htrans)

/-! #### The error codes of a request (R282) -/

theorem one_le_code (e : ErrKind) : 1 ≤ e.code.toNat := by
  cases e <;> decide

theorem decodeOperands_error_code {m : Mode} {q : Request} {e : ErrKind} (h : decodeOperands m q = .error e) :
    e.code.toNat ≤ 4 := by
  rw [decodeOperands_error h]
  decide

theorem widthError_code {k : Control} {keyN ivN dataN : Nat} {e : ErrKind} (h : widthError k keyN ivN dataN = some e) :
    e.code.toNat ≤ 4 := by
  obtain rfl | rfl := widthError_kind h <;> decide

/-- A request that does not complete raises one of the codes 1 to 4. -/
theorem runLegal_error_code {S : Suite} {k : Control} {q : Request} {e : ErrKind} (h : runLegal S k q = .error e) :
    e.code.toNat ≤ 4 := by
  unfold runLegal validate at h
  cases hdec : decodeOperands k.mode q with
  | error e' =>
    rw [hdec] at h
    exact Except.error.inj h ▸ decodeOperands_error_code hdec
  | ok o =>
    cases hw : widthError k o.key.len o.iv.len o.data.len with
    | some e' =>
      simp only [hdec, hw] at h
      exact Except.error.inj h ▸ widthError_code hw
    | none =>
      simp only [hdec, hw] at h
      unfold transform at h
      split at h
      · cases h
      · split at h
        · cases h
        · exact Except.error.inj h ▸ by decide

end Sys2Proof.Machine
end

section
/-! PROOF of O59. Every step keeps the invariant: the invariant split into what holds of a request in progress and what its
phase adds, one lemma for each way into a phase, and one for each kind of event. -/
namespace Sys2Proof.Machine

/-! #### The invariant and its parts -/

/-- The invariant reads the queues, the response, the error code, the working registers and `SEQ` only. -/
theorem State.Inv.frame {s t : State} (h : s.Inv) (hq : t.QueuesFit) (hw : t.work = s.work) (hs : t.seq = s.seq)
    (ho : t.outq = s.outq) (hz : t.outSize = s.outSize) (he : t.errCode = s.errCode) : t.Inv := by
  obtain ⟨-, ⟨work, blkZero, blkRange, noResponse, response, noError, error⟩, request⟩ := h
  refine ⟨hq, ⟨?_, ?_, ?_, ?_, ?_, ?_, ?_⟩, ?_⟩
  all_goals simpa only [State.RequestOk, State.StageOk, hw, hs, ho, hz, he]

/-- What holds of the registers outside the sequencer while a request is in progress: no response and no error (R26, R24). -/
structure State.InFlight (s : State) : Prop where
  queues : s.QueuesFit
  outq : s.outq = []
  outSize : s.outSize = 0#32
  errCode : s.errCode = 0#8

/-- A request in progress that passed the checks of phase VALIDATE under the control word `k` (R231, R233, R234). -/
structure State.Accepted (k : Control) (s : State) : Prop where
  inFlight : s.InFlight
  ctrll : decodeControl s.work.ctrll = .ok k
  keyN : s.work.keyN.toNat = keyBits k.cipher
  ivN : ivWidthOk k.mode k.cipher s.work.ivN.toNat = true

section
variable {s t u : State} {k : Control}

theorem State.InFlight.withWork (h : s.InFlight) (w : Work) (q : Seq) :
    ({ s with work := w, seq := q } : State).InFlight :=
  ⟨⟨h.queues.key, h.queues.iv, h.queues.data⟩, h.outq, h.outSize, h.errCode⟩

theorem State.Accepted.withWork (h : s.Accepted k) (q : Seq) {w : Work} (hc : w.ctrll = s.work.ctrll)
    (hk : w.keyN = s.work.keyN) (hi : w.ivN = s.work.ivN) : ({ s with work := w, seq := q } : State).Accepted k :=
  ⟨h.inFlight.withWork w q, hc ▸ h.ctrll, hk ▸ h.keyN, hi ▸ h.ivN⟩

theorem State.Inv.inFlight (h : s.Inv) (hb : s.seq.phase.busy = true) : s.InFlight := by
  have hdone : s.seq.phase ≠ .done := fun hp => by rw [hp] at hb; exact absurd hb (by decide)
  have herror : s.seq.phase ≠ .error := fun hp => by rw [hp] at hb; exact absurd hb (by decide)
  obtain ⟨houtq, hsize⟩ := h.phase.noResponse hdone
  exact ⟨h.queues, houtq, hsize, h.phase.noError herror⟩

/-- After VALIDATE the invariant gives an accepted request and the facts of its stage. -/
theorem State.Inv.accepted (h : s.Inv)
    (hp : s.seq.phase = .pad ∨ s.seq.phase = .mode ∨ s.seq.phase = .unpad ∨ s.seq.phase = .encode) :
    ∃ k, s.Accepted k ∧ s.StageOk k := by
  obtain ⟨k, hctrll, hkey, hiv, hstage⟩ := h.request hp
  exact ⟨k, ⟨h.inFlight (busy_iff.2 (.inr hp)), hctrll, hkey, hiv⟩, hstage⟩

/-- A request in progress has the invariant where `BLK` is in range and the facts of its stage hold. -/
theorem State.InFlight.inv (h : s.InFlight) (hb : s.seq.phase.busy = true)
    (hz : s.seq.phase ≠ .mode → s.seq.blk = 0#32)
    (hr : s.seq.phase = .mode → s.seq.blk.toNat < s.work.nblk.toNat) (hreq : s.RequestOk) : s.Inv where
  queues := h.queues
  phase :=
    { work := fun hb' => by rw [hb] at hb'; cases hb'
      blkZero := hz
      blkRange := hr
      noResponse := fun _ => ⟨h.outq, h.outSize⟩
      response := fun hp => by rw [hp] at hb; exact absurd hb (by decide)
      noError := fun _ => h.errCode
      error := fun hp => by rw [hp] at hb; exact absurd hb (by decide) }
  request := hreq

theorem State.Accepted.inv_of_not_mode (h : s.Accepted k)
    (hp : s.seq.phase = .pad ∨ s.seq.phase = .unpad ∨ s.seq.phase = .encode) (hz : s.seq.blk = 0#32)
    (hstage : s.StageOk k) : s.Inv := by
  have hne : s.seq.phase ≠ .mode := by rcases hp with hp | hp | hp <;> rw [hp] <;> decide
  have hb : s.seq.phase.busy = true := busy_iff.2 (by tauto)
  exact h.inFlight.inv hb (fun _ => hz) (fun hm => absurd hm hne) fun _ => ⟨k, h.ctrll, h.keyN, h.ivN, hstage⟩

theorem State.Accepted.inv_of_mode (h : s.Accepted k) (hp : s.seq.phase = .mode)
    (hr : s.seq.blk.toNat < s.work.nblk.toNat) (hstage : s.StageOk k) : s.Inv :=
  h.inFlight.inv (by rw [hp]; decide) (absurd hp) (fun _ => hr) fun _ => ⟨k, h.ctrll, h.keyN, h.ivN, hstage⟩

/-! #### The stages -/

theorem stageOk_pad (h : s.seq.phase = .pad) :
    s.StageOk k ↔ k.dir = .enc ∧ s.work.input.Valid ∧
      (byteGranular k.padding = true → s.work.ibufN.toNat % 8 = 0) ∧ s.work.ibufN.toNat ≤ 32 * Config.dataCapWords := by
  simp only [State.StageOk, h]

theorem stageOk_mode (h : s.seq.phase = .mode) :
    s.StageOk k ↔ s.work.input.Valid ∧ s.work.ibufN.toNat % blockBits k.cipher = 0 ∧ s.work.ibufN.toNat ≤ maxBits ∧
      s.work.nblk.toNat = s.work.ibufN.toNat / blockBits k.cipher ∧
      s.work.obuf < 2 ^ (s.seq.blk.toNat * blockBits k.cipher) := by
  simp only [State.StageOk, h]

theorem stageOk_unpad (h : s.seq.phase = .unpad) :
    s.StageOk k ↔ k.dir = .dec ∧ s.work.output.Valid ∧ s.work.obufN.toNat % blockBits k.cipher = 0 ∧
      s.work.obufN.toNat ≤ maxBits := by
  simp only [State.StageOk, h]

theorem stageOk_encode (h : s.seq.phase = .encode) :
    s.StageOk k ↔ s.work.output.Valid ∧ s.work.obufN.toNat ≤ maxBits := by
  simp only [State.StageOk, h]

/-! #### The ends of a request -/

theorem clearAll_inv (s : State) : (clearAll s).Inv where
  queues := ⟨Nat.zero_le _, Nat.zero_le _, Nat.zero_le _⟩
  phase :=
    { work := fun _ => rfl
      blkZero := fun _ => rfl
      blkRange := fun hp => by cases hp
      noResponse := fun _ => ⟨rfl, rfl⟩
      response := fun hp => by cases hp
      noError := fun _ => rfl
      error := fun hp => by cases hp }
  request := fun hp => by simp [State.reset] at hp

/-- Error entry with one of the codes a request can raise (R282, R284). -/
theorem raise_inv (hq : s.QueuesFit) {e : ErrKind} (he : e.code.toNat ≤ 4) : (raise e s).Inv where
  queues := ⟨hq.key, hq.iv, hq.data⟩
  phase :=
    { work := fun _ => rfl
      blkZero := fun _ => rfl
      blkRange := fun hp => by cases hp
      noResponse := fun _ => ⟨rfl, rfl⟩
      response := fun hp => by cases hp
      noError := fun hp => absurd rfl hp
      error := fun _ => ⟨one_le_code e, he⟩ }
  request := fun hp => by simp at hp

/-- Completion with a response no longer than `OBUF` (R240). -/
theorem complete_publish_inv (hq : s.QueuesFit) {out : BitValue} (h : out.len ≤ maxBits) :
    (complete (publish out s)).Inv where
  queues := ⟨hq.key, hq.iv, hq.data⟩
  phase :=
    { work := fun _ => rfl
      blkZero := fun _ => rfl
      blkRange := fun hp => by cases hp
      noResponse := fun hp => absurd rfl hp
      response := fun _ => by
        simp only [complete_outq, complete_outSize, publish_outq, publish_outSize, encodeWords_length,
          BitVec.toNat_ofNat, Nat.mod_eq_of_lt (h.trans_lt maxBits_lt), true_and]
        exact wordCount_le_outCap h
      noError := fun _ => rfl
      error := fun hp => by cases hp }
  request := fun hp => by simp at hp

/-! #### The ways into a stage -/

/-- Into the phase after the last block (R246). -/
theorem afterMode_inv (h : s.Accepted k) (hseq : s.seq = ⟨afterMode k.dir, 0#32⟩) (hv : s.work.output.Valid)
    (hm : s.work.obufN.toNat % blockBits k.cipher = 0) (hle : s.work.obufN.toNat ≤ maxBits) : s.Inv := by
  have hz : s.seq.blk = 0#32 := by rw [hseq]
  cases hd : k.dir with
  | enc =>
    have hp : s.seq.phase = .encode := by rw [hseq, hd]; rfl
    exact h.inv_of_not_mode (by simp [hp]) hz ((stageOk_encode hp).2 ⟨hv, hle⟩)
  | dec =>
    have hp : s.seq.phase = .unpad := by rw [hseq, hd]; rfl
    exact h.inv_of_not_mode (by simp [hp]) hz ((stageOk_unpad hp).2 ⟨hd, hv, hm, hle⟩)

/-- Into phase MODE, or past it where there is no block (R41, R246). -/
theorem enterMode_inv (h : s.Accepted k) (hv : s.work.input.Valid) (hm : s.work.ibufN.toNat % blockBits k.cipher = 0)
    (hle : s.work.ibufN.toNat ≤ maxBits) : (enterMode k s).Inv := by
  have hn : (BitVec.ofNat 32 (s.work.ibufN.toNat / blockBits k.cipher)).toNat =
      s.work.ibufN.toNat / blockBits k.cipher := by
    rw [BitVec.toNat_ofNat, Nat.mod_eq_of_lt ((Nat.div_le_self _ _).trans_lt s.work.ibufN.isLt)]
  unfold enterMode
  simp only
  split
  · refine afterMode_inv (h.withWork _ rfl rfl rfl) rfl ?_ ?_ ?_
    · exact Nat.one_pos
    · exact Nat.zero_mod _
    · exact Nat.zero_le _
  · rename_i hne
    have hpos : 0 < s.work.ibufN.toNat / blockBits k.cipher := by
      rw [← hn]
      exact Nat.pos_of_ne_zero fun h0 => hne (BitVec.eq_of_toNat_eq h0)
    refine State.Accepted.inv_of_mode
      (h.withWork _ (initMode_ctrll k _) (initMode_keyN k _) (initMode_ivN k _)) rfl ?_
      ((stageOk_mode rfl).2 ⟨?_, ?_, ?_, ?_, ?_⟩)
    · simpa [hn] using hpos
    · simpa [Work.input] using hv
    · simpa using hm
    · simpa using hle
    · simpa using hn
    · simp

/-- Out of phase VALIDATE: error entry, or into PAD or MODE (R233 to R236, R246). -/
theorem leaveValidate_inv (h : s.InFlight) (hc : decodeControl s.work.ctrll = .ok k) (hv : s.work.input.Valid)
    (hle : s.work.ibufN.toNat ≤ 32 * Config.dataCapWords) : (leaveValidate k s).Inv := by
  unfold leaveValidate
  split
  · rename_i e he
    exact raise_inv h.queues (widthError_code he)
  · rename_i hnone
    obtain ⟨hkey, hiv, henc, hdec⟩ := widthError_eq_none.1 hnone
    have haccepted : s.Accepted k := ⟨h, hc, hkey, hiv⟩
    split
    · rename_i hd
      exact (haccepted.withWork ⟨.pad, 0#32⟩ rfl rfl rfl).inv_of_not_mode (.inl rfl) rfl
        ((stageOk_pad rfl).2 ⟨hd, hv, henc hd, hle⟩)
    · rename_i hd
      exact enterMode_inv haccepted hv (hdec hd) (dataBits_le_maxBits hle)

/-- From one block of phase MODE to the next, or out of the phase (R246). `OBUF` holds nothing above the blocks written, and
after the last block that is its length. -/
theorem leaveBlock_inv (h : s.Accepted k) (hp : s.seq.phase = .mode) (hr : s.seq.blk.toNat < s.work.nblk.toNat)
    (hstage : s.StageOk k) (hu : s.StoresBlock k.cipher u) : (leaveBlock k u).Inv := by
  obtain ⟨hv, hm, hle, hnblk, hobuf⟩ := (stageOk_mode hp).1 hstage
  obtain ⟨y, w, rfl⟩ := hu
  have hput := putBlock_lt hobuf y
  have hwhole : s.work.nblk.toNat * blockBits k.cipher = s.work.ibufN.toNat := by
    rw [hnblk, Nat.div_mul_cancel (Nat.dvd_of_mod_eq_zero hm)]
  have hlast := s.work.nblk.isLt
  unfold leaveBlock
  split
  · rename_i hnext
    have hblk : (s.seq.blk + 1#32).toNat = s.seq.blk.toNat + 1 := by
      rw [BitVec.toNat_add, show (1#32).toNat = 1 from rfl, Nat.mod_eq_of_lt (Nat.lt_trans hnext hlast)]
    exact State.Accepted.inv_of_mode (h.withWork _ rfl rfl rfl) rfl (hblk ▸ hnext)
      ((stageOk_mode rfl).2 ⟨hv, hm, hle, hnblk, hblk ▸ hput⟩)
  · rename_i hend
    have hdone : s.seq.blk.toNat + 1 = s.work.nblk.toNat := Nat.le_antisymm hr (Nat.not_lt.1 hend)
    have hlen : (BitVec.ofNat 32 (s.work.nblk.toNat * blockBits k.cipher)).toNat = s.work.ibufN.toNat := by
      rw [hwhole, BitVec.ofNat_toNat, BitVec.setWidth_eq]
    rw [hdone, hwhole, ← hlen] at hput
    refine afterMode_inv (h.withWork _ rfl rfl rfl) rfl hput ?_ ?_
    · exact hlen ▸ hm
    · exact hlen ▸ hle

/-! #### The sequencer, phase by phase -/

/-- Phase VALIDATE: the operands are decoded and checked (R232 to R236). -/
theorem validateStep_inv (h : s.InFlight) (hp : s.seq.phase = .validate) (hc : decodeControl s.work.ctrll = .ok k)
    (hstep : advanceOutcome k (exec (selectDecode k) s) = .next t) : t.Inv := by
  rw [exec_selectDecode] at hstep
  cases hdec : decodeOperands k.mode s.request with
  | error e =>
    rw [decodeRequest_of_error hdec] at hstep
    injection hstep with ht
    exact ht ▸ raise_inv h.queues (decodeOperands_error_code hdec)
  | ok o =>
    rw [decodeRequest_of_ok hdec, settle_ok, advanceOutcome_next,
      advance_validate (s := { s with work := s.work.loadOperands o }) hp] at hstep
    injection hstep with ht
    obtain ⟨-, -, hv, -, hlen, -, hwords⟩ := decodeOperands_spec hdec
    have hlen32 : o.data.len < 2 ^ 32 := hlen ▸ s.dataSize.isLt
    have hN : (BitVec.ofNat 32 o.data.len).toNat = o.data.len := by
      rw [BitVec.toNat_ofNat, Nat.mod_eq_of_lt hlen32]
    rw [← ht]
    refine leaveValidate_inv (h.withWork _ _) hc ?_ ?_
    · show o.data.val < 2 ^ (BitVec.ofNat 32 o.data.len).toNat
      rw [hN]; exact hv
    · show (BitVec.ofNat 32 o.data.len).toNat ≤ _
      rw [hN, hlen]
      exact le_of_wordCount_le (hwords.trans h.queues.data)

/-- Phase PAD (R237). -/
theorem padStep_inv (h : s.Accepted k) (hp : s.seq.phase = .pad) (hstage : s.StageOk k)
    (hstep : advanceOutcome k (exec (selectPadding k) s) = .next t) : t.Inv := by
  obtain ⟨hd, hv, h8, hle⟩ := (stageOk_pad hp).1 hstage
  rw [exec_selectPadding_enc hd h8, advanceOutcome_next,
    advance_pad (s := padInput k.padding k.cipher s) hp] at hstep
  injection hstep with ht
  obtain ⟨hpv, hpm, -, hple⟩ := padValue_spec k.padding k.cipher hv h8
  have hmax : (padValue k.padding k.cipher s.work.input).len ≤ maxBits := padded_le_maxBits hle hple
  have hinput := setInput_input s.work _ (hmax.trans_lt maxBits_lt)
  have hN : (padInput k.padding k.cipher s).work.ibufN.toNat = (padValue k.padding k.cipher s.work.input).len :=
    congrArg BitValue.len hinput
  have hvalid : (padInput k.padding k.cipher s).work.input.Valid := hinput.symm ▸ hpv
  exact ht ▸ enterMode_inv (h.withWork _ rfl rfl rfl) hvalid (by rw [hN]; exact hpm) (hN.le.trans hmax)

/-- Phase MODE, one block: the widths are right, so that no unit raises an error of its own (R246, R281). -/
theorem modeStep_inv (h : s.Accepted k) (hp : s.seq.phase = .mode) (hr : s.seq.blk.toNat < s.work.nblk.toNat)
    (hstage : s.StageOk k) (hstep : advanceOutcome k (exec (selectMode k) s) = .next t) : t.Inv := by
  obtain ⟨u, hu, hstores⟩ := modeStep_storesBlock k.dir h.keyN h.ivN
  have hpu : u.seq.phase = .mode := by
    obtain ⟨y, w, rfl⟩ := hstores
    exact hp
  rw [exec_selectMode, hu, settle_ok, advanceOutcome_next, advance_mode hpu] at hstep
  injection hstep with ht
  exact ht ▸ leaveBlock_inv h hp hr hstage hstores

/-- Phase UNPAD (R238). -/
theorem unpadStep_inv (h : s.Accepted k) (hp : s.seq.phase = .unpad) (hstage : s.StageOk k)
    (hstep : advanceOutcome k (exec (selectPadding k) s) = .next t) : t.Inv := by
  obtain ⟨hd, -, hm, hle⟩ := (stageOk_unpad hp).1 hstage
  rw [exec_selectPadding_dec hd] at hstep
  cases hun : unpadOutput k.padding k.cipher s with
  | error e =>
    obtain ⟨-, rfl⟩ := unpadOutput_eq_error.1 hun
    rw [hun] at hstep
    injection hstep with ht
    exact ht ▸ raise_inv h.inFlight.queues (by decide)
  | ok u =>
    obtain ⟨v, hval, rfl⟩ := unpadOutput_eq_ok.1 hun
    obtain ⟨hvv, hvle⟩ := unpadValue_spec hm hval
    have hmax : v.len ≤ maxBits := hvle.trans hle
    have houtput := setOutput_output s.work v (hmax.trans_lt maxBits_lt)
    have hvalid : (s.work.setOutput v).output.Valid := houtput.symm ▸ hvv
    have hN : (s.work.setOutput v).obufN.toNat = v.len := congrArg BitValue.len houtput
    rw [hun, settle_ok, advanceOutcome_next,
      advance_unpad (s := { s with work := s.work.setOutput v }) hp] at hstep
    injection hstep with ht
    rw [← ht]
    exact State.Accepted.inv_of_not_mode (h.withWork _ rfl rfl rfl) (.inr (.inr rfl)) rfl
      ((stageOk_encode rfl).2 ⟨hvalid, hN.le.trans hmax⟩)

/-- Phase ENCODE (R240). -/
theorem encodeStep_inv (h : s.Accepted k) (hp : s.seq.phase = .encode) (hstage : s.StageOk k)
    (hstep : advanceOutcome k (exec (selectEncode k) s) = .next t) : t.Inv := by
  obtain ⟨-, hle⟩ := (stageOk_encode hp).1 hstage
  rw [exec_selectEncode, advanceOutcome_next, advance_encode (s := publish s.work.output s) hp] at hstep
  injection hstep with ht
  exact ht ▸ complete_publish_inv h.inFlight.queues hle

/-- In a phase after VALIDATE the sequencer runs what its reader selects under the accepted control word. -/
theorem State.Accepted.sequencerStep_eq (h : s.Accepted k) {r : Reader} {i : Instr} (hr : phaseReader s.seq.phase = some r)
    (hi : ∀ w, decodeControl w = .ok k → decodeWord r w = .ok i) :
    sequencerStep s = advanceOutcome k (exec i s) :=
  sequencerStep_of_ok hr (hi _ h.ctrll) h.ctrll

theorem sequencerStep_inv (h : s.Inv) (hstep : sequencerStep s = .next t) : t.Inv := by
  have hsame : phaseReader s.seq.phase = none → t.Inv := fun hr => by
    rw [sequencerStep_of_none hr] at hstep
    injection hstep with ht
    exact ht ▸ h
  cases hp : s.seq.phase with
  | idle => exact hsame (by rw [hp]; rfl)
  | done => exact hsame (by rw [hp]; rfl)
  | error => exact hsame (by rw [hp]; rfl)
  | validate =>
    have hr : phaseReader s.seq.phase = some .bbDecoder := by rw [hp]; rfl
    cases hc : decodeControl s.work.ctrll with
    | error e =>
      rw [sequencerStep_of_error hr hc] at hstep
      injection hstep with ht
      exact ht ▸ raise_inv h.queues (by decide)
    | ok k =>
      rw [sequencerStep_of_ok hr (i := selectDecode k) (by rw [decodeWord, hc]; rfl) hc] at hstep
      exact validateStep_inv (h.inFlight (by rw [hp]; rfl)) hp hc hstep
  | pad =>
    obtain ⟨k, hk, hstage⟩ := h.accepted (by simp [hp])
    rw [hk.sequencerStep_eq (by rw [hp]; rfl) (i := selectPadding k) fun w hw => by rw [decodeWord, hw]; rfl] at hstep
    exact padStep_inv hk hp hstage hstep
  | mode =>
    obtain ⟨k, hk, hstage⟩ := h.accepted (by simp [hp])
    rw [hk.sequencerStep_eq (by rw [hp]; rfl) (i := selectMode k) fun w hw => by rw [decodeWord, hw]; rfl] at hstep
    exact modeStep_inv hk hp (h.phase.blkRange hp) hstage hstep
  | unpad =>
    obtain ⟨k, hk, hstage⟩ := h.accepted (by simp [hp])
    rw [hk.sequencerStep_eq (by rw [hp]; rfl) (i := selectPadding k) fun w hw => by rw [decodeWord, hw]; rfl] at hstep
    exact unpadStep_inv hk hp hstage hstep
  | encode =>
    obtain ⟨k, hk, hstage⟩ := h.accepted (by simp [hp])
    rw [hk.sequencerStep_eq (by rw [hp]; rfl) (i := selectEncode k) fun w hw => by rw [decodeWord, hw]; rfl] at hstep
    exact encodeStep_inv hk hp hstage hstep

/-- The request as one step ends in DONE or ERROR (R245). -/
theorem finishRequest_inv (hq : s.QueuesFit) (k : Control) : (finishRequest s (runLegal suite k s.request)).Inv := by
  cases hrun : runLegal suite k s.request with
  | ok out => exact complete_publish_inv hq (runLegal_len_le hq.data hrun)
  | error e => exact raise_inv hq (runLegal_error_code hrun)

theorem requestStep_inv (h : s.Inv) (hstep : requestStep s = .next t) : t.Inv := by
  unfold requestStep at hstep
  split at hstep
  · cases hc : decodeControl s.work.ctrll with
    | error e =>
      rw [fetch, decodeWord, hc] at hstep
      injection hstep with ht
      exact ht ▸ raise_inv h.queues (by decide)
    | ok k =>
      rw [fetch, decodeWord, hc] at hstep
      replace hstep : exec (selectRun k) s = .next t := hstep
      rw [exec_selectRun] at hstep
      injection hstep with ht
      exact ht ▸ finishRequest_inv h.queues k
  · exact sequencerStep_inv h hstep

/-! #### The host's accesses -/

theorem writeReg_queuesFit (h : s.QueuesFit) (v : Word) (r : Reg) : (writeReg s v r).QueuesFit := by
  cases r with
  | keyIn => exact ⟨pushWord_length_le h.key v, h.iv, h.data⟩
  | ivIn => exact ⟨h.key, pushWord_length_le h.iv v, h.data⟩
  | dataIn => exact ⟨h.key, h.iv, pushWord_length_le h.data v⟩
  | _ => exact ⟨h.key, h.iv, h.data⟩

/-- A register write keeps the invariant: it changes none of the fields the invariant reads but the queues. -/
theorem portWrite_inv (h : s.Inv) (off : BitVec 32) (v : Word) : (portWrite s off v).Inv := by
  unfold portWrite
  split
  · exact h.frame (writeReg_queuesFit h.queues v _) (writeReg_work ..) (writeReg_seq ..) (writeReg_outq ..)
      (writeReg_outSize ..) (writeReg_errCode ..)
  · exact h

/-- START in IDLE starts a request (R266). -/
theorem acceptStart_inv (h : s.Inv) (hp : s.seq.phase = .idle) : (acceptStart s).Inv := by
  obtain ⟨houtq, hsize⟩ := h.phase.noResponse (by rw [hp]; decide)
  have hflight : s.InFlight := ⟨h.queues, houtq, hsize, h.phase.noError (by rw [hp]; decide)⟩
  exact (hflight.withWork _ _).inv rfl (fun _ => rfl) (fun hm => by cases hm) fun hm => by simp at hm

theorem commandWrite_inv (h : s.Inv) {v : Word} (hstep : commandWrite v s = .next t) : t.Inv := by
  unfold commandWrite at hstep
  split at hstep
  · rename_i i hi
    obtain rfl | rfl := decodeWord_command hi
    · injection hstep with ht
      subst ht
      split
      · exact acceptStart_inv h ‹_›
      · exact h
    · injection hstep with ht
      subst ht
      split
      · exact h
      · exact clearAll_inv s
  · injection hstep with ht
    exact ht ▸ h

/-! #### The step -/

/-- What the core keeps of the world outside it plays no part in the invariant (log entry 1). -/
theorem State.Inv.withOutside (h : s.Inv) (inbox : List Event) (replies : List Word) :
    ({ s with inbox := inbox, replies := replies } : State).Inv :=
  h.frame ⟨h.queues.key, h.queues.iv, h.queues.data⟩ rfl rfl rfl rfl rfl

theorem handle_inv (h : s.Inv) {e : Event} (hstep : handle e s = .next t) : t.Inv := by
  cases e with
  | read off bytes =>
    simp only [handle, hostRead] at hstep
    split at hstep
    · cases hstep
    · injection hstep with ht
      exact ht ▸ h.withOutside _ _
  | write off bytes v =>
    simp only [handle, hostWrite] at hstep
    split at hstep
    · cases hstep
    · split at hstep
      · exact commandWrite_inv h hstep
      · injection hstep with ht
        exact ht ▸ portWrite_inv h off v
  | reset =>
    injection hstep with ht
    exact ht ▸ clearAll_inv s
  | sequencerStep => exact sequencerStep_inv h hstep
  | runRequest => exact requestStep_inv h hstep

theorem step_inv (h : s.Inv) (hstep : step s = .next t) : t.Inv := by
  cases hin : s.inbox with
  | nil => exact sequencerStep_inv h (step_of_nil hin ▸ hstep)
  | cons e rest => exact handle_inv (h.withOutside rest s.replies) (step_of_cons hin ▸ hstep)

end

/-- Settles O59, event by event and, for the sequencer, phase by phase. -/
theorem stepKeepsInv : Obligations.StepKeepsInv :=
  fun _ _ h hstep => step_inv h hstep

end Sys2Proof.Machine
end

section
/-! PROOF of O50, O55, O47, O51 and O58. The registers as the host reads and writes them (spec/10_state.md R21 to R30, R50):
what one register reads after a write to another, which offsets name which register, and the response window. -/
namespace Sys2Proof.Machine

/-! #### Reset -/

theorem clearAll_reset : clearAll State.reset = State.reset := rfl

/-- Settles O58: reset is a fixed point of CLEAR, which leads to the invariant from every state. -/
theorem resetHasInv : Obligations.ResetHasInv := by
  have h := clearAll_inv State.reset
  rwa [clearAll_reset] at h

/-- After reset only CAP reads other than 0 (R50). -/
theorem readReg_reset {r : Reg} (h : r ≠ .cap) : readReg State.reset r = 0#32 := by
  cases r with
  | cap => exact absurd rfl h
  | _ => rfl

theorem regAt_eq_cap_iff {off : BitVec 32} : regAt off = .cap ↔ off = 0x03C#32 := by
  obtain ⟨-, -, -, -, -, -, -, -, hcap⟩ := offset_of_regAt (off := off)
  exact ⟨hcap, fun h => h ▸ rfl⟩

/-- Settles O47: CAP is found at its one offset, and every other register reads 0 in the reset state. -/
theorem resetValues : Obligations.ResetValues := by
  refine ⟨fun off => ?_, rfl, rfl, rfl, rfl, rfl, rfl⟩
  split
  case isTrue hoff =>
    rw [portRead, regAt_eq_cap_iff.2 hoff]
    rfl
  case isFalse hoff => exact readReg_reset (mt regAt_eq_cap_iff.1 hoff)

/-! #### A write in IDLE -/

/-- A carried write in IDLE to an offset other than CMD's is the write of the register found there (R63). -/
theorem step_of_write_idle {s : State} {off : BitVec 32} {v : Word} {rest : List Event} (hidle : s.seq.phase = .idle)
    (hin : s.inbox = .write off 4 v :: rest) (ha : off.toNat % 4 = 0) (hcmd : regAt off ≠ .cmd) :
    step s = .next (writeReg { s with inbox := rest } v (regAt off)) := by
  have hidle' : ({ s with inbox := rest } : State).seq.phase = .idle := hidle
  rw [step_of_write hin ha, if_neg hcmd, portWrite_of_idle hidle']

/-- Settles O51: the write of a push port is `pushWord` on its queue. -/
theorem pushAppendsWhileRoom : Obligations.PushAppendsWhileRoom := fun _ _ _ hidle =>
  ⟨fun hin => step_of_write_idle hidle hin rfl (by decide),
    fun hin => step_of_write_idle hidle hin rfl (by decide),
    fun hin => step_of_write_idle hidle hin rfl (by decide), rfl, rfl, rfl⟩

/-- The registers that store the word written and read it back (R21, R25). -/
def Reg.Stored (r : Reg) : Prop :=
  r = .ctrl ∨ r = .keySize ∨ r = .ivSize ∨ r = .dataSize

theorem readReg_writeReg_same {r : Reg} (h : r.Stored) (s : State) (v : Word) : readReg (writeReg s v r) r = v := by
  obtain rfl | rfl | rfl | rfl := h <;> rfl

/-- A stored register is seen at its own offset only. -/
theorem readReg_writeReg_of_ne {r r' : Reg} (h : r.Stored) (hne : r' ≠ r) (s : State) (v : Word) :
    readReg (writeReg s v r) r' = readReg s r' := by
  cases r' with
  | ctrl | keySize | ivSize | dataSize => obtain rfl | rfl | rfl | rfl := h <;> simp [readReg, writeReg] at hne ⊢
  | _ => obtain rfl | rfl | rfl | rfl := h <;> rfl

theorem writeReg_frame_of_stored {r : Reg} (h : r.Stored) (s : State) (v : Word) :
    writeReg s v r = { s with
      ctrl := (writeReg s v r).ctrl, keySize := (writeReg s v r).keySize, ivSize := (writeReg s v r).ivSize
      dataSize := (writeReg s v r).dataSize } := by
  obtain rfl | rfl | rfl | rfl := h <;> rfl

/-- The world outside the core is no register (log entry 1). -/
theorem readReg_withInbox (s : State) (rest : List Event) (r : Reg) :
    readReg { s with inbox := rest } r = readReg s r := by
  cases r <;> rfl

/-- Each stored register stands at one offset (R61), so that no other offset shares it. -/
theorem regAt_ne_of_ne {off off' : BitVec 32} (h : (regAt off).Stored) (hne : off' ≠ off) : regAt off' ≠ regAt off := by
  intro heq
  obtain ⟨hctrl, -, hkey, hiv, hdata, -⟩ := offset_of_regAt (off := off)
  obtain ⟨hctrl', -, hkey', hiv', hdata', -⟩ := offset_of_regAt (off := off')
  apply hne
  obtain hr | hr | hr | hr := h
  · rw [hctrl hr, hctrl' (heq.trans hr)]
  · rw [hkey hr, hkey' (heq.trans hr)]
  · rw [hiv hr, hiv' (heq.trans hr)]
  · rw [hdata hr, hdata' (heq.trans hr)]

/-- Settles O50: the write of a stored register, read back through the port. -/
theorem registerWriteReadsBack : Obligations.RegisterWriteReadsBack := by
  intro s off v rest hoff hin hidle
  have hstored : (regAt off).Stored := by
    obtain rfl | rfl | rfl | rfl := hoff
    exacts [.inl rfl, .inr (.inl rfl), .inr (.inr (.inl rfl)), .inr (.inr (.inr rfl))]
  have haligned : off.toNat % 4 = 0 := by obtain rfl | rfl | rfl | rfl := hoff <;> rfl
  have hcmd : regAt off ≠ .cmd := by obtain h | h | h | h := hstored <;> rw [h] <;> decide
  refine ⟨_, step_of_write_idle hidle hin haligned hcmd, ?_, fun off' hne => ?_, ?_⟩
  · exact readReg_writeReg_same hstored _ v
  · exact (readReg_writeReg_of_ne hstored (regAt_ne_of_ne hstored hne) _ v).trans (readReg_withInbox s rest _)
  · exact writeReg_frame_of_stored hstored { s with inbox := rest } v

/-! #### The response window -/

/-- The words of the OUT window stand at every fourth offset from `0x1000` (R61). -/
theorem regAt_outWord {k : Nat} (h : k < Config.outCapWords) :
    regAt (BitVec.ofNat 32 (0x1000 + 4 * k)) = .out k := by
  have hlt : 0x1000 + 4 * k < 2 ^ 32 := by
    unfold Config.outCapWords Config.dataCapWords at h
    omega
  unfold regAt
  rw [BitVec.toNat_ofNat, Nat.mod_eq_of_lt hlt]
  split <;> try omega
  rw [Nat.add_sub_cancel_left, Nat.mul_div_cancel_left k (by decide), if_pos ⟨Nat.le_add_right _ _, h⟩]

theorem outWords_of_done {s : State} (h : s.seq.phase = .done) : outWords s = wordCount s.outSize.toNat :=
  if_pos h

theorem outWords_of_not_done {s : State} (h : s.seq.phase ≠ .done) : outWords s = 0 :=
  if_neg h

theorem outWindow_of_not_done {s : State} (h : s.seq.phase ≠ .done) (k : Nat) : outWindow s k = 0#32 :=
  if_neg fun hk => h hk.1

/-- In DONE, where the buffer holds as many words as `OUT_WORDS` says, the window shows the buffer and 0 above it (R30). -/
theorem outWindow_of_done {s : State} (h : s.seq.phase = .done) (hlen : s.outq.length = outWords s) (k : Nat) :
    outWindow s k = if hk : k < s.outq.length then s.outq[k] else 0#32 := by
  unfold outWindow
  rw [← hlen]
  split
  case isTrue hk => rw [dif_pos hk.2, List.getD_eq_getElem _ _ hk.2]
  case isFalse hk => rw [dif_neg fun hlt => hk ⟨h, hlt⟩]

/-- Outside DONE the whole window reads 0 (R30). -/
theorem portRead_window_of_not_done {s : State} (h : s.seq.phase ≠ .done) {off : BitVec 32} (hoff : 0x1000 ≤ off.toNat) :
    portRead s off = 0#32 := by
  unfold portRead
  obtain ⟨k, hk⟩ | hk := regAt_window hoff
  · rw [hk]
    exact outWindow_of_not_done h k
  · rw [hk]
    rfl

/-- Settles O55, register by register; the invariant gives the length of the output buffer. -/
theorem responseRegisters : Obligations.ResponseRegisters := by
  intro s
  refine ⟨fun hdone => ⟨if_pos hdone, congrArg (BitVec.ofNat 32) (outWords_of_done hdone)⟩, fun hinv hdone => ?_,
    fun hnot => ⟨if_neg hnot, congrArg (BitVec.ofNat 32) (outWords_of_not_done hnot),
      fun _ hoff => portRead_window_of_not_done hnot hoff⟩, fun herror => if_pos herror, fun hnot => if_neg hnot⟩
  obtain ⟨hlen, -⟩ := hinv.phase.response hdone
  refine ⟨hlen, fun k hk => ?_⟩
  rw [portRead, regAt_outWord hk]
  exact outWindow_of_done hdone (hlen.trans (outWords_of_done hdone).symm) k

end Sys2Proof.Machine
end

section
/-! PROOF of O60, O52, O43, O48, O49 and O53. What one event of the host does: the carried accesses and the refused ones (R66),
the commands by value (R266 to R268), the registers that ignore a write (R63, R67), and that from the invariant every carried
event has a next state. -/
namespace Sys2Proof.Machine

/-! #### Accesses -/

/-- An access is refused at the port exactly when it is misaligned or not of 4 bytes (R66). -/
theorem exists_accessRefusal_iff {off : BitVec 32} {n : Nat} :
    (∃ r, accessRefusal off n = some r) ↔ n ≠ 4 ∨ off.toNat % 4 ≠ 0 := by
  rw [← Option.ne_none_iff_exists', ne_eq, accessRefusal_eq_none, not_and_or]

/-- A carried read returns the register's value and removes the event (R62). -/
theorem step_of_read {s : State} {off : BitVec 32} {rest : List Event} (h : s.inbox = .read off 4 :: rest)
    (ha : off.toNat % 4 = 0) : step s = .next { s with inbox := rest, replies := s.replies ++ [portRead s off] } := by
  rw [step_of_cons h]
  simp only [handle, hostRead, accessRefusal_eq_none.2 ⟨rfl, ha⟩, portRead, readReg_withInbox]

/-- Settles O49: the port gives a bad access a refusal before it looks at the register. -/
theorem badAccessRefused : Obligations.BadAccessRefused := by
  intro s off n v rest hbad
  obtain ⟨r, hr⟩ := exists_accessRefusal_iff.2 hbad
  refine ⟨fun hin => ⟨r, ?_⟩, fun hin => ⟨r, ?_⟩⟩
  · rw [step_of_cons hin, handle, hostRead, hr]
  · rw [step_of_cons hin, handle, hostWrite, hr]

/-! #### Commands -/

theorem commandWrite_of_ok {v : Word} {i : Instr} (h : decodeWord .command v = .ok i) (s : State) :
    commandWrite v s = exec i s := by
  rw [commandWrite, h]

/-- A word written to CMD that is no command has no effect (R268). -/
theorem commandWrite_of_ne {v : Word} (h1 : v ≠ 1#32) (h2 : v ≠ 2#32) (s : State) : commandWrite v s = .next s := by
  rw [commandWrite, decodeWord, decodeCommand, if_neg h1, if_neg h2]

/-- A word written to CMD starts a request in IDLE, resets the core outside BUSY, or has no effect (R266 to R268). -/
theorem commandWrite_cases (v : Word) (s : State) :
    (s.seq.phase = .idle ∧ commandWrite v s = .next (acceptStart s)) ∨
      (s.seq.phase.busy = false ∧ commandWrite v s = .next (clearAll s)) ∨ commandWrite v s = .next s := by
  cases hv : decodeWord .command v with
  | error e => exact .inr (.inr (by rw [commandWrite, hv]))
  | ok i =>
    rw [commandWrite_of_ok hv]
    obtain rfl | rfl := decodeWord_command hv
    · rw [exec, execStart]
      split
      · exact .inl ⟨‹_›, rfl⟩
      · exact .inr (.inr rfl)
    · rw [exec, execClear]
      cases hb : s.seq.phase.busy with
      | true => exact .inr (.inr rfl)
      | false => exact .inr (.inl ⟨rfl, rfl⟩)

theorem not_idle_of_busy {p : Phase} (h : p.busy = true) : p ≠ .idle := by
  rintro rfl
  cases h

/-- While a request runs no command has an effect (R266, R267). -/
theorem commandWrite_of_busy {s : State} (h : s.seq.phase.busy = true) (v : Word) : commandWrite v s = .next s := by
  obtain ⟨hidle, -⟩ | ⟨hfree, -⟩ | heq := commandWrite_cases v s
  · exact absurd hidle (not_idle_of_busy h)
  · rw [h] at hfree
    cases hfree
  · exact heq

/-- Settles O53: a read only returns a word, and in BUSY neither a command nor a register write has an effect. -/
theorem busyIgnoresTheHost : Obligations.BusyIgnoresTheHost := by
  intro s e rest hbusy hin haccess hcarried
  cases e with
  | read off n =>
    obtain ⟨rfl, ha⟩ := hcarried
    exact ⟨_, step_of_read hin ha⟩
  | write off n v =>
    obtain ⟨rfl, ha⟩ := hcarried
    refine ⟨s.replies, ?_⟩
    rw [step_of_write hin ha, commandWrite_of_busy (s := { s with inbox := rest }) hbusy,
      portWrite_of_not_idle (s := { s with inbox := rest }) (not_idle_of_busy hbusy), ite_self]
  | reset | sequencerStep | runRequest => cases haccess

/-! #### The address map above the registers -/

/-- From `0x040` on an offset is a word of the OUT window or unmapped (R61, R67). -/
theorem regAt_of_high {off : BitVec 32} (h : 0x040 ≤ off.toNat) :
    regAt off = if 0x1000 ≤ off.toNat ∧ (off.toNat - 0x1000) / 4 < Config.outCapWords
      then .out ((off.toNat - 0x1000) / 4) else .unmapped := by
  unfold regAt
  split <;> try omega
  rfl

theorem regAt_eq_cmd_iff {off : BitVec 32} : regAt off = .cmd ↔ off = 0x004#32 := by
  obtain ⟨-, hcmd, -⟩ := offset_of_regAt (off := off)
  exact ⟨hcmd, fun h => h ▸ rfl⟩

/-! #### Reads -/

/-- `STATUS` as the table of R23 gives it. -/
theorem portRead_status (s : State) : portRead s 0x008#32 = match s.seq.phase with
    | .idle => 0#32
    | .validate | .pad | .mode | .unpad | .encode => 1#32
    | .done => 2#32
    | .error => 3#32 := by
  change (statusCode s.seq.phase).setWidth 32 = _
  cases s.seq.phase <;> rfl

theorem portRead_outWords (s : State) : portRead s 0x02C#32 =
    if s.seq.phase = .done then BitVec.ofNat 32 (cdiv (cdiv s.outSize.toNat 8) 4) else 0#32 := by
  change BitVec.ofNat 32 (outWords s) = _
  split
  · rw [outWords_of_done ‹_›]
    rfl
  · rw [outWords_of_not_done ‹_›]

/-- The offsets between the registers and the OUT window, and those above the window, read 0 (R67). -/
theorem portRead_gap (s : State) {off : BitVec 32}
    (h : (0x040 ≤ off.toNat ∧ off.toNat < 0x1000) ∨ 0x1000 + 4 * Config.outCapWords ≤ off.toNat) : portRead s off = 0#32 := by
  have hunmapped : regAt off = .unmapped := by
    rw [regAt_of_high (by omega), if_neg (by omega)]
  rw [portRead, hunmapped]
  rfl

/-- Settles O48: the step is the read, and each register is found at its offset. -/
theorem hostReadReturnsRegister : Obligations.HostReadReturnsRegister :=
  ⟨fun _ _ _ hin ha => step_of_read hin ha, fun s => ⟨rfl, rfl, portRead_status s, rfl, rfl, rfl, rfl, rfl, rfl, rfl, rfl,
    portRead_outWords s, rfl, rfl, rfl, rfl, fun _ _ h => portRead_gap s h⟩⟩

/-! #### Writes that are ignored -/

/-- The registers that a write can reach (R63): `CMD`, those that store the word and the three push ports. -/
def Reg.writable : Reg → Bool
  | .cmd | .ctrl | .keySize | .ivSize | .dataSize | .keyIn | .ivIn | .dataIn => true
  | .status | .err | .outSize | .outWords | .keyWc | .ivWc | .dataWc | .cap | .out _ | .unmapped => false

theorem writeReg_of_not_writable {r : Reg} (h : r.writable = false) (s : State) (v : Word) : writeReg s v r = s := by
  cases r with
  | cmd | ctrl | keySize | ivSize | dataSize | keyIn | ivIn | dataIn => cases h
  | _ => rfl

/-- A carried write to a register that no write reaches only removes the event, in every phase. -/
theorem step_of_write_not_writable {s : State} {off : BitVec 32} {v : Word} {rest : List Event}
    (hin : s.inbox = .write off 4 v :: rest) (ha : off.toNat % 4 = 0) (h : (regAt off).writable = false) :
    step s = .next { s with inbox := rest } := by
  have hcmd : regAt off ≠ .cmd := fun hc => by rw [hc] at h; cases h
  rw [step_of_write hin ha, if_neg hcmd, portWrite, writeReg_of_not_writable h, ite_self]

/-- No write reaches the offsets of `STATUS`, `ERR`, `OUT_SIZE`, `OUT_WORDS`, the word counts and `CAP` (R61, R63). -/
theorem writable_of_readOnly {off : BitVec 32}
    (h : off ∈ [0x008#32, 0x00C#32, 0x01C#32, 0x02C#32, 0x030#32, 0x034#32, 0x038#32, 0x03C#32]) :
    (regAt off).writable = false := by
  simp only [List.mem_cons, List.not_mem_nil, or_false] at h
  obtain rfl | rfl | rfl | rfl | rfl | rfl | rfl | rfl := h <;> rfl

theorem writable_of_high {off : BitVec 32} (h : 0x040 ≤ off.toNat) : (regAt off).writable = false := by
  rw [regAt_of_high h]
  split <;> rfl

/-- Settles O52: outside IDLE the port drops the write, the read-only and unmapped offsets drop it in every phase, and at CMD
every word but the two commands is dropped. -/
theorem ignoredWrites : Obligations.IgnoredWrites := by
  intro s off v rest hin ha hcase
  obtain ⟨hidle, hoff⟩ | hro | hhigh | ⟨hoff, h1, h2⟩ := hcase
  · rw [step_of_write hin ha, if_neg (mt regAt_eq_cmd_iff.1 hoff),
      portWrite_of_not_idle (s := { s with inbox := rest }) hidle]
  · exact step_of_write_not_writable hin ha (writable_of_readOnly hro)
  · exact step_of_write_not_writable hin ha (writable_of_high hhigh)
  · rw [step_of_write hin ha, if_pos (regAt_eq_cmd_iff.2 hoff), commandWrite_of_ne h1 h2]

/-! #### The decoded instruction -/

theorem requestStep_of_validate {s : State} {i : Instr} (hp : s.seq.phase = .validate) (hi : fetch .pipeline s = .ok i) :
    requestStep s = exec i s := by
  rw [requestStep, if_pos hp, hi]

theorem requestStep_of_not_validate {s : State} (hp : s.seq.phase ≠ .validate) : requestStep s = sequencerStep s :=
  if_neg hp

/-- Settles O43, one part for each of the three places an instruction is fetched from. -/
theorem stepRunsDecodedInstruction : Obligations.StepRunsDecodedInstruction := by
  refine fun s => ⟨fun r i k hin hr hi hk => ?_, fun v i rest hin hi => ?_, fun i rest hin hp hi => ?_⟩
  · rw [step_of_nil hin, sequencerStep_of_ok hr hi hk]
    rfl
  · rw [step_of_write hin rfl, if_pos (regAt_eq_cmd_iff.2 rfl), commandWrite_of_ok hi]
  · rw [step_of_cons hin]
    exact requestStep_of_validate (s := { s with inbox := rest }) hp hi

/-! #### Progress -/

/-- A unit's reader finds in a legal control word the operation it selects from the fields (R93). -/
theorem decodeWord_of_control {r : Reader} {w : Word} {select : Control → Instr} {k : Control}
    (hr : decodeWord r w = (decodeControl w).map select) (hk : decodeControl w = .ok k) :
    decodeWord r w = .ok (select k) := by
  rw [hr, hk]
  rfl

section
variable {s : State}

/-- The control word that the invariant speaks of is the one in `CTRLL`. -/
theorem State.Inv.stageOk (h : s.Inv)
    (hp : s.seq.phase = .pad ∨ s.seq.phase = .mode ∨ s.seq.phase = .unpad ∨ s.seq.phase = .encode) {k : Control}
    (hk : decodeControl s.work.ctrll = .ok k) : s.StageOk k := by
  obtain ⟨k', haccepted, hstage⟩ := h.accepted hp
  have heq : k' = k := Except.ok.inj (haccepted.ctrll.symm.trans hk)
  exact heq ▸ hstage

/-- No unit refuses the operation its phase reads: it answers with a state or an error, which is a state too, and phase PAD hands
the padding engine whole bytes where its scheme needs them (R140, R235). -/
theorem State.Inv.exec_fetched_next (h : s.Inv) {p : Phase} {r : Reader} {k : Control} (hp : s.seq.phase = p)
    (hr : phaseReader p = some r) (hk : decodeControl s.work.ctrll = .ok k) :
    ∃ i t, decodeWord r s.work.ctrll = .ok i ∧ exec i s = .next t := by
  cases p with
  | idle | done | error => cases hr
  | validate =>
    cases hr
    obtain ⟨t, ht⟩ := settle_next s (decodeRequest k.mode s)
    exact ⟨selectDecode k, t, decodeWord_of_control rfl hk, (exec_selectDecode k s).trans ht⟩
  | pad =>
    cases hr
    obtain ⟨hd, -, h8, -⟩ := (stageOk_pad hp).1 (h.stageOk (by simp [hp]) hk)
    exact ⟨selectPadding k, _, decodeWord_of_control rfl hk, exec_selectPadding_enc hd h8⟩
  | mode =>
    cases hr
    obtain ⟨t, ht⟩ := settle_next s (modeStep k.mode k.dir k.cipher s)
    exact ⟨selectMode k, t, decodeWord_of_control rfl hk, (exec_selectMode k s).trans ht⟩
  | unpad =>
    cases hr
    obtain ⟨hd, -⟩ := (stageOk_unpad hp).1 (h.stageOk (by simp [hp]) hk)
    obtain ⟨t, ht⟩ := settle_next s (unpadOutput k.padding k.cipher s)
    exact ⟨selectPadding k, t, decodeWord_of_control rfl hk, (exec_selectPadding_dec hd).trans ht⟩
  | encode =>
    cases hr
    exact ⟨selectEncode k, _, decodeWord_of_control rfl hk, exec_selectEncode k s⟩

theorem State.Inv.sequencerStep_next (h : s.Inv) : ∃ t, sequencerStep s = .next t := by
  cases hr : phaseReader s.seq.phase with
  | none => exact ⟨_, sequencerStep_of_none hr⟩
  | some r =>
    cases hk : decodeControl s.work.ctrll with
    | error e => exact ⟨_, sequencerStep_of_error hr hk⟩
    | ok k =>
      obtain ⟨i, t, hi, ht⟩ := h.exec_fetched_next rfl hr hk
      exact ⟨advance k t, by rw [sequencerStep_of_ok hr hi hk, ht, advanceOutcome_next]⟩

theorem State.Inv.requestStep_next (h : s.Inv) : ∃ t, requestStep s = .next t := by
  by_cases hp : s.seq.phase = .validate
  · cases hk : decodeControl s.work.ctrll with
    | error e => exact ⟨raise .unsupportedConfiguration s, by rw [requestStep, if_pos hp, fetch, decodeWord, hk]; rfl⟩
    | ok k =>
      have hi : fetch .pipeline s = .ok (selectRun k) := decodeWord_of_control rfl hk
      exact ⟨_, (requestStep_of_validate hp hi).trans (exec_selectRun k s)⟩
  · rw [requestStep_of_not_validate hp]
    exact h.sequencerStep_next

theorem commandWrite_next (v : Word) (s : State) : ∃ t, commandWrite v s = .next t := by
  obtain ⟨-, h⟩ | ⟨-, h⟩ | h := commandWrite_cases v s <;> exact ⟨_, h⟩

/-- The core never stalls or refuses an event the port carries (R260, R289). -/
theorem State.Inv.handle_next (h : s.Inv) {e : Event} (he : e.Carried) : ∃ t, handle e s = .next t := by
  cases e with
  | read off n => exact ⟨_, by rw [handle, hostRead, accessRefusal_eq_none.2 he]⟩
  | write off n v =>
    rw [handle, hostWrite, accessRefusal_eq_none.2 he]
    dsimp only
    split
    · exact commandWrite_next v s
    · exact ⟨_, rfl⟩
  | reset => exact ⟨_, rfl⟩
  | sequencerStep => exact h.sequencerStep_next
  | runRequest => exact h.requestStep_next

end

/-- Settles O60: the next event is a carried one, or none is to come and the sequencer has a step. -/
theorem invStatesStep : Obligations.InvStatesStep := by
  intro s h hcarried
  cases hin : s.inbox with
  | nil =>
    rw [step_of_nil hin]
    exact h.sequencerStep_next
  | cons e rest =>
    rw [step_of_cons hin]
    exact (h.withOutside rest s.replies).handle_next (hcarried e rest hin)

end Sys2Proof.Machine
end

section
/-! PROOF of O1, O2, O3 and O4. Decoder and encoder undo each other (spec/30_encoding.md R90 to R95): a control word is its
fields put together, each unit's selection of R93 keeps the reader and the control word, so that what is read from a word encodes
to that word and what is encoded is read back. -/
namespace Sys2Proof

/-! #### The fields of a control word -/

/-- A control word is its fields, the reserved bits first (R90). -/
theorem append_controlFields (w : Word) :
    w.extractLsb' 7 25 ++ w.extractLsb' 6 1 ++ w.extractLsb' 4 2 ++ w.extractLsb' 2 2 ++ w.extractLsb' 0 2 = w := by
  rw [BitVec.extractLsb'_append_extractLsb'_eq_extractLsb' (by rfl : 7 = 6 + 1),
    BitVec.extractLsb'_append_extractLsb'_eq_extractLsb' (by rfl : 6 = 4 + 2),
    BitVec.extractLsb'_append_extractLsb'_eq_extractLsb' (by rfl : 4 = 2 + 2),
    BitVec.extractLsb'_append_extractLsb'_eq_extractLsb' (by rfl : 2 = 0 + 2), BitVec.extractLsb'_eq_self]

/-- Code 3 is the one reserved cipher code (R91). -/
theorem exists_decodeCipher (f : BitVec 2) : (∃ c, decodeCipher f = some c) ↔ f ≠ 3#2 := by
  rw [← Option.isSome_iff_exists]
  revert f
  decide

/-- Code 3 is the one reserved mode code (R91). -/
theorem exists_decodeMode (f : BitVec 2) : (∃ m, decodeMode f = some m) ↔ f ≠ 3#2 := by
  rw [← Option.isSome_iff_exists]
  revert f
  decide

/-- What a control word must hold to be read as `k` (R90, R92). -/
theorem decodeControl_eq_ok {w : Word} {k : Control} :
    decodeControl w = .ok k ↔ w.extractLsb' 7 25 = 0#25 ∧
      decodeCipher (w.extractLsb' 0 2) = some k.cipher ∧ decodeMode (w.extractLsb' 2 2) = some k.mode ∧
      decodeScheme (w.extractLsb' 4 2) = k.padding ∧ decodeDirection (w.extractLsb' 6 1) = k.dir := by
  obtain ⟨c, m, p, d⟩ := k
  unfold decodeControl
  by_cases hrsvd : w.extractLsb' 7 25 = 0#25
  · cases hc : decodeCipher (w.extractLsb' 0 2) with
    | none => simp [hrsvd]
    | some c' => cases hm : decodeMode (w.extractLsb' 2 2) <;> simp [hrsvd]
  · simp [hrsvd]

/-- A legal control word is the one with the fields read from it: no two words mean the same (R90, R92). -/
theorem encodeControl_of_decode {w : Word} {k : Control} (h : decodeControl w = .ok k) : encodeControl k = w := by
  obtain ⟨hrsvd, hcipher, hmode, hpadding, hdir⟩ := decodeControl_eq_ok.1 h
  rw [encodeControl, encodeCipher_of_decode hcipher, encodeMode_of_decode hmode, ← hpadding, ← hdir, encodeScheme_decode,
    encodeDirection_decode, ← hrsvd, append_controlFields]

/-- The condition of R92 on a control word. -/
theorem exists_decodeControl (w : Word) :
    (∃ k, decodeControl w = .ok k) ↔
      w.extractLsb' 7 25 = 0#25 ∧ w.extractLsb' 0 2 ≠ 3#2 ∧ w.extractLsb' 2 2 ≠ 3#2 := by
  rw [← exists_decodeCipher, ← exists_decodeMode]
  constructor
  · rintro ⟨k, hk⟩
    obtain ⟨hrsvd, hcipher, hmode, -, -⟩ := decodeControl_eq_ok.1 hk
    exact ⟨hrsvd, ⟨_, hcipher⟩, ⟨_, hmode⟩⟩
  · rintro ⟨hrsvd, ⟨c, hcipher⟩, ⟨m, hmode⟩⟩
    exact ⟨⟨c, m, _, _⟩, decodeControl_eq_ok.2 ⟨hrsvd, hcipher, hmode, rfl, rfl⟩⟩

/-! #### The operation a unit selects -/

/-- The instruction is a well-formed one and stands for the control word `k`, read by `r` (R93). -/
def Instr.Names (i : Instr) (r : Reader) (k : Control) : Prop :=
  i.wellFormed = true ∧ encode i = (r, encodeControl k)

theorem selectRun_names (k : Control) : (selectRun k).Names .pipeline k := by
  obtain ⟨c, m, p, d⟩ := k
  cases d <;> exact ⟨rfl, rfl⟩

theorem selectDecode_names (k : Control) : (selectDecode k).Names .bbDecoder k := ⟨rfl, rfl⟩

theorem selectEncode_names (k : Control) : (selectEncode k).Names .bbEncoder k := ⟨rfl, rfl⟩

theorem selectPadding_names (k : Control) : (selectPadding k).Names .padding k := by
  obtain ⟨c, m, p, d⟩ := k
  cases d <;> cases p <;> exact ⟨rfl, rfl⟩

theorem selectMode_names (k : Control) : (selectMode k).Names .modes k := by
  obtain ⟨c, m, p, d⟩ := k
  cases d <;> cases m <;> exact ⟨rfl, rfl⟩

/-- `decrypt_block` is selected in decryption only, so that its instruction need not carry the direction (R93). -/
theorem dir_of_not_selectsEncrypt {d : Direction} {m : Mode} (h : selectsEncrypt d m = false) : d = .dec := by
  cases d with
  | dec => rfl
  | enc => cases h

theorem selectCipher_names (k : Control) : (selectCipher k).Names .cipher k := by
  obtain ⟨c, m, p, d⟩ := k
  cases h : selectsEncrypt d m with
  | true =>
    rw [selectCipher, if_pos h]
    cases c <;> exact ⟨h, rfl⟩
  | false =>
    obtain rfl := dir_of_not_selectsEncrypt h
    rw [selectCipher, if_neg (Bool.eq_false_iff.1 h)]
    cases c <;> exact ⟨congrArg not h, rfl⟩

/-! #### Words to instructions and back -/

/-- What a unit reads from a word names the reader and the word, when the operations it selects do. -/
theorem names_of_decodeWord {r : Reader} {w : Word} {i : Instr} {select : Control → Instr}
    (hselect : ∀ k, (select k).Names r k) (h : (decodeControl w).map select = .ok i) :
    i.wellFormed = true ∧ encode i = (r, w) := by
  cases hk : decodeControl w with
  | error e =>
    rw [hk] at h
    cases h
  | ok k =>
    rw [hk] at h
    obtain rfl : select k = i := Except.ok.inj h
    rw [← encodeControl_of_decode hk]
    exact hselect k

/-- The two command words (R95). -/
theorem encode_of_decodeCommand {w : Word} {i : Instr} (h : decodeCommand w = .ok i) :
    i.wellFormed = true ∧ encode i = (.command, w) := by
  unfold decodeCommand at h
  split at h
  next hstart =>
    obtain rfl := Except.ok.inj h
    exact ⟨rfl, congrArg _ hstart.symm⟩
  next =>
    split at h
    next hclear =>
      obtain rfl := Except.ok.inj h
      exact ⟨rfl, congrArg _ hclear.symm⟩
    next => cases h

/-- A unit reads from the word with the fields `k` the operation it selects for `k` (R93). -/
theorem decodeWord_encodeControl {r : Reader} (select : Control → Instr) (k : Control)
    (hr : ∀ w, decodeWord r w = (decodeControl w).map select) : decodeWord r (encodeControl k) = .ok (select k) :=
  Machine.decodeWord_of_control (hr _) (decodeControl_encodeControl k)

/-- The reader of a well-formed instruction finds it in its word; only the cipher unit, which chooses between `encrypt_block` and
`decrypt_block`, needs the instruction to be well formed (R93). -/
theorem decodeWord_encode {i : Instr} (h : i.wellFormed = true) : decodeWord (encode i).1 (encode i).2 = .ok i := by
  cases i with
  | start | clear => rfl
  | runEnc | runDec => exact decodeWord_encodeControl selectRun _ fun _ => rfl
  | bbDecode => exact decodeWord_encodeControl selectDecode _ fun _ => rfl
  | bbEncode => exact decodeWord_encodeControl selectEncode _ fun _ => rfl
  | padZero | padX923 | padPkcs7 | padRfc1321 | unpadZero | unpadX923 | unpadPkcs7 | unpadRfc1321 =>
    exact decodeWord_encodeControl selectPadding _ fun _ => rfl
  | ecbEnc | cbcEnc | ctrEnc | ecbDec | cbcDec | ctrDec => exact decodeWord_encodeControl selectMode _ fun _ => rfl
  | encblkSdes | encblkLucifer | encblkSp96 =>
    exact (decodeWord_encodeControl selectCipher _ fun _ => rfl).trans (congrArg Except.ok (if_pos h))
  | decblkSdes m | decblkLucifer m | decblkSp96 m =>
    have hdec : ¬ selectsEncrypt .dec m = true := by simpa [Instr.wellFormed] using h
    exact (decodeWord_encodeControl selectCipher _ fun _ => rfl).trans (congrArg Except.ok (if_neg hdec))

/-- The decoder reads the word made of the first four bytes and leaves the rest (R10, R65 a). -/
theorem decodeBytes_bytesOfWord (r : Reader) (w : Word) (rest : List Byte) :
    decodeBytes r (bytesOfWord w ++ rest) = (decodeWord r w).map fun i => (i, rest) := by
  simp [bytesOfWord, decodeBytes]

/-! #### The statements -/

/-- Settles O1: the bytes are those of the instruction's word, and its reader finds it there. -/
theorem decodeBytesOfEncode : Obligations.DecodeBytesOfEncode := by
  intro i rest hi
  rw [encodeBytes, decodeBytes_bytesOfWord, decodeWord_encode hi]
  rfl

/-- Settles O2, reader by reader. -/
theorem encodeOfDecodeWord : Obligations.EncodeOfDecodeWord := by
  intro r w i h
  cases r with
  | command => exact encode_of_decodeCommand h
  | pipeline => exact names_of_decodeWord selectRun_names h
  | bbDecoder => exact names_of_decodeWord selectDecode_names h
  | bbEncoder => exact names_of_decodeWord selectEncode_names h
  | padding => exact names_of_decodeWord selectPadding_names h
  | modes => exact names_of_decodeWord selectMode_names h
  | cipher => exact names_of_decodeWord selectCipher_names h

/-- Settles O3: the condition word by word, and the count of the words of 7 bits, all there are without reserved bits. -/
theorem legalControlWords : Obligations.LegalControlWords :=
  ⟨exists_decodeControl, by decide⟩

/-- Settles O4: each word is evaluated. -/
theorem sampleWordsDecode : Obligations.SampleWordsDecode :=
  ⟨rfl, rfl, rfl, rfl, rfl, rfl, rfl, rfl, rfl⟩

end Sys2Proof
end

section
/-! PROOF of O5, O6, O7 and O9. The BitBuffer unit (spec/40_bitbuffer.md R120 to R122, spec/44_pipeline.md R240): bytes and words are
limbs of one integer, so that a word is its four bytes and what `decode` reads is that integer below the bit length. -/
namespace Sys2Proof.Machine

/-! #### Bytes and words as limbs of the integer -/

/-- Limb `k` read off an integer, also past the last limb stored, when the limbs reach all its bits. -/
theorem getD_map_shift {w n m x : Nat} (hw : 0 < w) (hx : x < 2 ^ n) (hm : n ≤ w * m) (k : Nat) :
    ((List.range m).map fun i => BitVec.ofNat w (x >>> (w * i))).getD k 0#w = BitVec.ofNat w (x >>> (w * k)) := by
  rw [← ofNat_shift_limbsToNat hw, limbsToNat_map_shift hw hx hm]

/-- Byte `i` of a valid BitValue, absent bytes counting as zero (R9). -/
theorem bytes_getD {v : BitValue} (hv : v.Valid) (i : Nat) :
    v.bytes.getD i 0#8 = BitVec.ofNat 8 (v.val >>> (8 * i)) :=
  getD_map_shift (by decide) hv (le_byteCount v.len) i

/-- Word `k` of an encoded valid BitValue, absent words counting as zero (R120). -/
theorem encodeWords_getD {v : BitValue} (hv : v.Valid) (k : Nat) :
    (encodeWords v).getD k 0#32 = BitVec.ofNat 32 (v.val >>> (32 * k)) :=
  getD_map_shift (by decide) hv (le_wordCount v.len) k

/-- The low 32 bits of a number are its four low bytes. -/
theorem mod_word_eq_bytes (y : Nat) :
    y % 2 ^ 32 = y >>> (8 * 0) % 2 ^ 8 + 2 ^ 8 * (y >>> (8 * 1) % 2 ^ 8) + 2 ^ 16 * (y >>> (8 * 2) % 2 ^ 8) +
      2 ^ 24 * (y >>> (8 * 3) % 2 ^ 8) := by
  simp only [Nat.shiftRight_eq_div_pow]
  omega

/-- Byte `j` of word `k` is byte `4k + j` of the integer (R120). -/
theorem shiftRight_byteOfWord (x k j : Nat) : x >>> (8 * (4 * k + j)) = (x >>> (32 * k)) >>> (8 * j) := by
  rw [← Nat.shiftRight_add]
  congr 1
  omega

/-! #### What decode reads -/

/-- `decode` fails exactly on too few words (R121). -/
theorem decodeWords_eq_none {ws : List Word} {n : Nat} : decodeWords ws n = none ↔ ws.length < wordCount n := by
  simp [decodeWords]

/-- Bit `i` of a decoded value: below the bit length that of the words, above it zero (R121). -/
theorem testBit_decodeWords {ws : List Word} {n : Nat} {v : BitValue} (h : decodeWords ws n = some v) (i : Nat) :
    v.val.testBit i = (decide (i < n) && (ws.getD (i / 32) 0#32).getLsbD (i % 32)) := by
  obtain ⟨-, rfl⟩ := decodeWords_eq_some.1 h
  rw [Nat.testBit_mod_two_pow, wordsToNat_eq_limbs, testBit_limbsToNat (by decide)]
  by_cases hi : i < n
  · have hword : i / 32 < wordCount n := by
      have := le_wordCount n
      omega
    simp [List.getD_eq_getElem?_getD, List.getElem?_take_of_lt hword]
  · simp [hi]

/-! #### Canonical words -/

/-- The bits of a word sequence at or above `n` are zero exactly when its integer is below `2^n` (R122). -/
theorem wordsToNat_lt_iff {ws : List Word} {n : Nat} :
    wordsToNat ws < 2 ^ n ↔ ∀ b, n ≤ b → (ws.getD (b / 32) 0#32).getLsbD (b % 32) = false := by
  simp only [wordsToNat_eq_limbs, ← testBit_limbsToNat (by decide : 0 < 32)]
  exact ⟨fun h b hb => Nat.testBit_lt_two_pow (h.trans_le (Nat.pow_le_pow_right (by decide) hb)),
    Nat.lt_pow_two_of_testBit _⟩

/-- Encoding the integer of as many words as the length takes gives the words back. -/
theorem encodeWords_wordsToNat {ws : List Word} {n : Nat} (h : ws.length = wordCount n) :
    encodeWords ⟨n, wordsToNat ws⟩ = ws := by
  refine List.ext_getElem (by simp [h]) fun i _ hi => ?_
  have hword := ofNat_shift_limbsToNat (by decide : 0 < 32) ws i
  simp [encodeWords, wordsToNat_eq_limbs, hword, hi]

/-- `decode` undoes `encode` on valid BitValues (R122). -/
theorem decodeWords_encodeWords {v : BitValue} (hv : v.Valid) : decodeWords (encodeWords v) v.len = some v := by
  have hall : (encodeWords v).take (wordCount v.len) = encodeWords v :=
    List.take_of_length_le (encodeWords_length v).le
  refine decodeWords_eq_some.2 ⟨(encodeWords_length v).ge, ?_⟩
  rw [hall, wordsToNat_encodeWords hv, Nat.mod_eq_of_lt hv]

/-- The words that `encode` gives back after `decode`: as many as the length takes, with an integer below `2^n` (R122). -/
theorem encodeWords_of_decodeWords_iff {ws : List Word} {n : Nat} :
    (∃ v, decodeWords ws n = some v ∧ encodeWords v = ws) ↔ ws.length = wordCount n ∧ wordsToNat ws < 2 ^ n := by
  constructor
  · rintro ⟨v, hdec, rfl⟩
    have hlen := decodeWords_len hdec
    have hv := decodeWords_valid hdec
    exact ⟨by rw [encodeWords_length, hlen], by rwa [wordsToNat_encodeWords hv, ← hlen]⟩
  · rintro ⟨hlen, hlt⟩
    have henc := encodeWords_wordsToNat hlen
    have hdec := decodeWords_encodeWords (v := ⟨n, wordsToNat ws⟩) hlt
    rw [henc] at hdec
    exact ⟨⟨n, wordsToNat ws⟩, hdec, henc⟩

/-! #### The response -/

/-- Publishing the output registers copies `OBUFN` to `OUT_SIZE` as it stands (R240). -/
theorem publish_output (s : State) :
    publish s.work.output s =
      { s with outq := encodeWords ⟨s.work.obufN.toNat, s.work.obuf⟩, outSize := s.work.obufN } := by
  simp only [publish, Work.output, BitVec.ofNat_toNat, BitVec.setWidth_eq]

/-! #### The statements -/

/-- Settles O5: the words of a length are canonical exactly when their integer fits it. -/
theorem bitBufferRoundTrip : Obligations.BitBufferRoundTrip :=
  ⟨fun _ hv => decodeWords_encodeWords hv, fun _ _ _ => by rw [encodeWords_of_decodeWords_iff, wordsToNat_lt_iff]⟩

/-- Settles O6: the bits of the decoded integer below and above the length. -/
theorem decodeWordsBits : Obligations.DecodeWordsBits := by
  refine fun ws n => ⟨decodeWords_eq_none, fun v h => ⟨decodeWords_len h, fun i hi => ?_, fun i hi => ?_⟩⟩
  · simp [testBit_decodeWords h, hi]
  · simp [testBit_decodeWords h, Nat.not_lt.2 hi]

/-- Settles O7: word and bytes are read off the same integer, and a word is its four bytes. -/
theorem encodeWordsFromBytes : Obligations.EncodeWordsFromBytes := by
  refine fun v hv => ⟨encodeWords_length v, fun k _ => ?_⟩
  have hbyte : ∀ j, (v.bytes.getD (4 * k + j) 0#8).toNat = (v.val >>> (32 * k)) >>> (8 * j) % 2 ^ 8 := fun j => by
    rw [bytes_getD hv, BitVec.toNat_ofNat, shiftRight_byteOfWord]
  rw [encodeWords_getD hv, BitVec.toNat_ofNat, mod_word_eq_bytes, ← hbyte 0, ← hbyte 1, ← hbyte 2, ← hbyte 3,
    Nat.add_zero]

/-- Settles O9: `BB.ENCODE` publishes the output registers. -/
theorem bbEncodePublishes : Obligations.BbEncodePublishes := fun c m p d s =>
  (exec_selectEncode ⟨c, m, p, d⟩ s).trans (congrArg _ (publish_output s))

end Sys2Proof.Machine
end

section
/-! PROOF of O15 to O20 and O10 to O14. The padding engine (spec/41_padding.md R140 to R152): what each unpadding function accepts,
that it undoes padding, and the eight operations on `IBUF` and `OBUF`. -/
namespace Sys2Proof.Machine

/-! #### A final byte that counts the pad -/

/-- `b` is whole blocks: the data `r`, then a pad of `k` bytes, which are the fill `f` and the byte `k` (R144, R146). -/
structure EndsInPad (bs : Nat) (b r f : List Byte) (k : Nat) : Prop where
  split : b = r ++ f ++ [BitVec.ofNat 8 k]
  fill_length : f.length + 1 = k
  le_block : k ≤ bs
  whole : b.length % bs = 0

@[simp] theorem lastByte_concat (xs : List Byte) (x : Byte) : lastByte (xs ++ [x]) = x.toNat := by
  simp [lastByte]

/-- The last byte of a sequence that ends in a pad is the pad's length, if a byte can hold it. -/
theorem EndsInPad.lastByte_eq {bs : Nat} {b r f : List Byte} {k : Nat} (h : EndsInPad bs b r f k) (hbs : bs ≤ 255) :
    lastByte b = k := by
  have hk : k < 2 ^ 8 := by have := h.le_block; omega
  rw [h.split, lastByte_concat, BitVec.toNat_ofNat, Nat.mod_eq_of_lt hk]

/-- The cut that both unpadding functions make separates the data from the pad. -/
theorem EndsInPad.cut {bs : Nat} {b r f : List Byte} {k : Nat} (h : EndsInPad bs b r f k) (hbs : bs ≤ 255) :
    b.take (b.length - lastByte b) = r ∧ b.drop (b.length - lastByte b) = f ++ [BitVec.ofNat 8 k] := by
  have hcut : b.length - lastByte b = r.length := by
    have := h.fill_length
    rw [h.lastByte_eq hbs, h.split]
    simp only [List.length_append, List.length_singleton]
    omega
  rw [hcut, h.split, List.append_assoc]
  exact ⟨List.take_left, List.drop_left⟩

/-- The checks that R144 and R146 share accept exactly the sequences that end in a pad, whatever its fill. -/
theorem padLengthOk_iff_endsInPad {bs : Nat} {b : List Byte} (hbs : bs ≤ 255) :
    padLengthOk bs b = true ↔ ∃ r f k, EndsInPad bs b r f k := by
  rw [padLengthOk_iff]
  constructor
  · rintro ⟨hne, hwhole, hpos, hle⟩
    obtain rfl | ⟨xs, x, rfl⟩ := List.eq_nil_or_concat b
    · exact absurd rfl hne
    · rw [List.concat_eq_append, lastByte_concat] at *
      have hblock : bs ≤ (xs ++ [x]).length :=
        Nat.le_of_dvd (List.length_pos_of_ne_nil hne) (Nat.dvd_of_mod_eq_zero hwhole)
      rw [List.length_append, List.length_singleton] at hblock
      refine ⟨xs.take (xs.length - (x.toNat - 1)), xs.drop (xs.length - (x.toNat - 1)), x.toNat, ?_, ?_, hle, hwhole⟩
      · rw [List.take_append_drop, BitVec.ofNat_toNat, BitVec.setWidth_eq]
      · rw [List.length_drop]; omega
  · rintro ⟨r, f, k, h⟩
    have hpos := h.fill_length
    rw [h.lastByte_eq hbs]
    exact ⟨by rw [h.split]; simp, h.whole, by omega, h.le_block⟩

/-- Of a sequence that ends in a pad ANSI X9.23 asks that the fill be zero (R144). -/
theorem EndsInPad.unpadX923_eq_some {bs : Nat} {b r f : List Byte} {k : Nat} (h : EndsInPad bs b r f k) (hbs : bs ≤ 255)
    {r' : List Byte} : unpadX923 bs b = some r' ↔ f = List.replicate (k - 1) 0#8 ∧ r' = r := by
  have hok : padLengthOk bs b = true := (padLengthOk_iff_endsInPad hbs).2 ⟨r, f, k, h⟩
  have hlen : f.length = k - 1 := by have := h.fill_length; omega
  obtain ⟨htake, hdrop⟩ := h.cut hbs
  rw [Machine.unpadX923_eq_some, htake, hdrop, List.dropLast_concat]
  simp [hok, List.eq_replicate_iff, hlen]

/-- Of a sequence that ends in a pad PKCS #7 asks that the fill repeat the pad length (R146). -/
theorem EndsInPad.unpadPkcs7_eq_some {bs : Nat} {b r f : List Byte} {k : Nat} (h : EndsInPad bs b r f k) (hbs : bs ≤ 255)
    {r' : List Byte} :
    unpadPkcs7 bs b = some r' ↔ f = List.replicate (k - 1) (BitVec.ofNat 8 k) ∧ r' = r := by
  have hok : padLengthOk bs b = true := (padLengthOk_iff_endsInPad hbs).2 ⟨r, f, k, h⟩
  have hlen : f.length = k - 1 := by have := h.fill_length; omega
  have hk : k < 2 ^ 8 := by have := h.le_block; omega
  have hbyte : ∀ x : Byte, x.toNat = k ↔ x = BitVec.ofNat 8 k := fun x => by
    rw [← BitVec.toNat_inj, BitVec.toNat_ofNat, Nat.mod_eq_of_lt hk]
  obtain ⟨htake, hdrop⟩ := h.cut hbs
  rw [Machine.unpadPkcs7_eq_some, htake, hdrop, h.lastByte_eq hbs]
  simp only [List.all_append, Bool.and_eq_true, List.all_eq_true, beq_iff_eq, hbyte]
  simp [hok, List.eq_replicate_iff, hlen]

/-- The sequences that end in a pad with one fill byte, in the words of the spec. -/
theorem endsInPad_replicate_iff {bs : Nat} {b r : List Byte} {k : Nat} {x : Byte} :
    EndsInPad bs b r (List.replicate (k - 1) x) k ↔
      1 ≤ k ∧ k ≤ bs ∧ b.length % bs = 0 ∧ b = r ++ List.replicate (k - 1) x ++ [BitVec.ofNat 8 k] := by
  constructor
  · rintro ⟨hsplit, hfill, hle, hwhole⟩
    exact ⟨hfill ▸ Nat.le_add_left 1 _, hle, hwhole, hsplit⟩
  · rintro ⟨hpos, hle, hwhole, hsplit⟩
    exact ⟨hsplit, by rw [List.length_replicate, Nat.sub_add_cancel hpos], hle, hwhole⟩

/-- What `unpad_x923` accepts and returns, in the words of R144. -/
theorem unpadX923_eq_some_iff {bs : Nat} {b r : List Byte} (hbs : bs ≤ 255) :
    unpadX923 bs b = some r ↔ ∃ k, 1 ≤ k ∧ k ≤ bs ∧ b.length % bs = 0 ∧
      b = r ++ List.replicate (k - 1) 0#8 ++ [BitVec.ofNat 8 k] := by
  simp only [← endsInPad_replicate_iff]
  refine ⟨fun h => ?_, fun ⟨k, hpad⟩ => (hpad.unpadX923_eq_some hbs).2 ⟨rfl, rfl⟩⟩
  obtain ⟨hok, -, -⟩ := unpadX923_eq_some.1 h
  obtain ⟨r', f, k, hpad⟩ := (padLengthOk_iff_endsInPad hbs).1 hok
  obtain ⟨rfl, rfl⟩ := (hpad.unpadX923_eq_some hbs).1 h
  exact ⟨k, hpad⟩

/-- A pad of `k` equal bytes is a fill of `k - 1` of them and the last one. -/
theorem endsInPad_pkcs7_iff {bs : Nat} {b r : List Byte} {k : Nat} :
    EndsInPad bs b r (List.replicate (k - 1) (BitVec.ofNat 8 k)) k ↔
      1 ≤ k ∧ k ≤ bs ∧ b.length % bs = 0 ∧ b = r ++ List.replicate k (BitVec.ofNat 8 k) := by
  rw [endsInPad_replicate_iff]
  refine and_congr_right fun hpos => ?_
  rw [List.append_assoc, ← List.replicate_succ', Nat.sub_add_cancel hpos]

/-- What `unpad_pkcs7` accepts and returns, in the words of R146. -/
theorem unpadPkcs7_eq_some_iff {bs : Nat} {b r : List Byte} (hbs : bs ≤ 255) :
    unpadPkcs7 bs b = some r ↔ ∃ k, 1 ≤ k ∧ k ≤ bs ∧ b.length % bs = 0 ∧
      b = r ++ List.replicate k (BitVec.ofNat 8 k) := by
  simp only [← endsInPad_pkcs7_iff]
  refine ⟨fun h => ?_, fun ⟨k, hpad⟩ => (hpad.unpadPkcs7_eq_some hbs).2 ⟨rfl, rfl⟩⟩
  obtain ⟨hok, -, -⟩ := unpadPkcs7_eq_some.1 h
  obtain ⟨r', f, k, hpad⟩ := (padLengthOk_iff_endsInPad hbs).1 hok
  obtain ⟨rfl, rfl⟩ := (hpad.unpadPkcs7_eq_some hbs).1 h
  exact ⟨k, hpad⟩

/-! #### The marker bit -/

/-- What `unpad_rfc1321` accepts and returns: the marker is the highest set bit, and stands in the last block (R148). -/
theorem unpadRfc1321_eq_some_iff {B : Nat} {v u : BitValue} :
    unpadRfc1321 B v = some u ↔ v.len ≠ 0 ∧ v.len % B = 0 ∧ ∃ i, (v.len - B ≤ i ∧ i < v.len ∧ v.val.testBit i = true ∧
      ∀ j, i < j → j < v.len → v.val.testBit j = false) ∧ u = ⟨i, v.val % 2 ^ i⟩ := by
  rw [unpadRfc1321_eq_some]
  refine and_congr_right fun hne => and_congr_right fun hwhole => ?_
  have hle : B ≤ v.len := Nat.le_of_dvd (Nat.pos_of_ne_zero hne) (Nat.dvd_of_mod_eq_zero hwhole)
  simp only [scanMarker_eq_some, Nat.sub_add_cancel hle]

/-- RFC 1321 padding reaches the next multiple of the block size strictly above the length (R147). -/
theorem padRfc1321_len_bounds {B : Nat} (hB : 1 ≤ B) (v : BitValue) :
    (padRfc1321 B v).len % B = 0 ∧ v.len < (padRfc1321 B v).len ∧ (padRfc1321 B v).len ≤ v.len + B := by
  have hdiv := Nat.div_add_mod' v.len B
  have hmod := Nat.mod_lt v.len hB
  rw [padRfc1321_len]
  refine ⟨Nat.mul_mod_left _ _, ?_, ?_⟩ <;> rw [Nat.succ_mul] <;> omega

/-- Above a valid BitValue the marker is the highest set bit (R147). -/
theorem testBit_padRfc1321 {B : Nat} {v : BitValue} (hv : v.Valid) :
    (padRfc1321 B v).val.testBit v.len = true ∧ ∀ j, v.len < j → (padRfc1321 B v).val.testBit j = false := by
  have hval : v.val < 2 ^ v.len := hv
  rw [padRfc1321_val, Nat.add_comm]
  refine ⟨by rw [Nat.testBit_two_pow_add_eq, Nat.testBit_lt_two_pow hval]; rfl, fun j hj => ?_⟩
  have hpow : 2 ^ (v.len + 1) ≤ 2 ^ j := Nat.pow_le_pow_right (by decide) hj
  rw [pow_succ] at hpow
  exact Nat.testBit_lt_two_pow (by omega)

/-! #### Unpadding undoes padding (R149) -/

theorem unpadX923_padX923 {bs : Nat} (hpos : 1 ≤ bs) (hbs : bs ≤ 255) (b : List Byte) :
    unpadX923 bs (padX923 bs b) = some b := by
  obtain ⟨hk, hle⟩ := padLength_bounds hpos b.length
  exact (unpadX923_eq_some_iff hbs).2
    ⟨padLength bs b.length, hk, hle, by rw [padX923_length hpos, add_padLength_mod hpos], rfl⟩

theorem unpadPkcs7_padPkcs7 {bs : Nat} (hpos : 1 ≤ bs) (hbs : bs ≤ 255) (b : List Byte) :
    unpadPkcs7 bs (padPkcs7 bs b) = some b := by
  obtain ⟨hk, hle⟩ := padLength_bounds hpos b.length
  exact (unpadPkcs7_eq_some_iff hbs).2
    ⟨padLength bs b.length, hk, hle, by rw [padPkcs7_length, add_padLength_mod hpos], rfl⟩

theorem unpadRfc1321_padRfc1321 {B : Nat} (hB : 1 ≤ B) {v : BitValue} (hv : v.Valid) :
    unpadRfc1321 B (padRfc1321 B v) = some v := by
  obtain ⟨hwhole, hlt, hle⟩ := padRfc1321_len_bounds hB v
  obtain ⟨hmarker, habove⟩ := testBit_padRfc1321 (B := B) hv
  have hval : (padRfc1321 B v).val % 2 ^ v.len = v.val := by
    rw [padRfc1321_val, Nat.add_mod_right, Nat.mod_eq_of_lt hv]
  exact unpadRfc1321_eq_some_iff.2
    ⟨by omega, hwhole, v.len, ⟨by omega, hlt, hmarker, fun j hj _ => habove j hj⟩, by rw [hval]⟩

/-! #### The operations -/

theorem blockBytes_le (c : Cipher) : blockBytes c ≤ 255 := by
  cases c <;> decide

/-- An `UNPAD` operation whose scheme accepts `OBUF` replaces it and changes nothing else (R246). -/
theorem exec_unpad_of_some {p : Scheme} {c : Cipher} {s : State} {v : BitValue} (m : Mode)
    (h : unpadValue p c s.work.output = some v) :
    exec (selectPadding ⟨c, m, p, .dec⟩) s = .next { s with work := s.work.setOutput v } := by
  rw [exec_selectPadding_dec rfl, unpadOutput_eq_ok.2 ⟨v, h, rfl⟩, settle_ok]

/-- An `UNPAD` operation whose scheme does not accept `OBUF` raises `PaddingError` (R246). -/
theorem exec_unpad_of_none {p : Scheme} {c : Cipher} {s : State} (m : Mode) (h : unpadValue p c s.work.output = none) :
    exec (selectPadding ⟨c, m, p, .dec⟩) s = .next (raise .paddingError s) := by
  rw [exec_selectPadding_dec rfl, unpadOutput_eq_error.2 ⟨h, rfl⟩, settle_error]

/-- A byte-granular `UNPAD` operation, by the sequences `T` that its scheme accepts: it leaves the data before the pad, or
raises `PaddingError` where there is no pad. -/
theorem exec_unpad_of_iff {p : Scheme} {c : Cipher} {s : State} {unpad : List Byte → Option (List Byte)}
    {T : List Byte → Nat → Prop} (m : Mode)
    (hvalue : unpadValue p c s.work.output = (unpad s.work.output.bytes).map .ofBytes)
    (haccepts : ∀ r, unpad s.work.output.bytes = some r ↔ ∃ k, T r k) :
    (∀ r k, T r k → exec (selectPadding ⟨c, m, p, .dec⟩) s = .next { s with work := s.work.setOutput (.ofBytes r) }) ∧
      ((¬ ∃ r k, T r k) → exec (selectPadding ⟨c, m, p, .dec⟩) s = .next (raise .paddingError s)) := by
  refine ⟨fun r k hT => exec_unpad_of_some m ?_, fun hno => exec_unpad_of_none m ?_⟩
  · rw [hvalue, (haccepts r).2 ⟨k, hT⟩, Option.map_some]
  · rw [hvalue, Option.map_eq_none_iff, Option.eq_none_iff_forall_ne_some]
    exact fun r hr => hno ⟨r, (haccepts r).1 hr⟩

/-- A byte-granular `PAD` of whole bytes replaces `IBUF` and changes nothing else (R140). -/
theorem exec_pad_of_bytes (p : Scheme) (c : Cipher) (m : Mode) {s : State} (h8 : s.work.ibufN.toNat % 8 = 0) :
    exec (selectPadding ⟨c, m, p, .enc⟩) s = .next (padInput p c s) :=
  exec_selectPadding_enc rfl fun _ => h8

/-! #### The statements -/

/-- Settles O19: the round trips and the lengths of each scheme. -/
theorem paddingReversible : Obligations.PaddingReversible := by
  refine ⟨fun bs b hpos hbs => ?_, fun B v hB hv => ?_⟩
  · obtain ⟨hk, hle⟩ := padLength_bounds hpos b.length
    have hzero := Nat.mod_lt (bs - b.length % bs) hpos
    have hwhole := add_padLength_mod hpos b.length
    refine ⟨unpadX923_padX923 hpos hbs b, unpadPkcs7_padPkcs7 hpos hbs b, padZero_length_mod hpos b, ?_⟩
    rw [padX923_length hpos, padPkcs7_length, padZero_length]
    omega
  · obtain ⟨hwhole, hlt, hle⟩ := padRfc1321_len_bounds hB v
    exact ⟨unpadRfc1321_padRfc1321 hB hv, padRfc1321_valid hB hv, hwhole, hlt, hle⟩

/-- Settles O20: what zero unpadding returns never ends in a zero byte, and such a sequence it gives back. -/
theorem zeroPaddingLoss : Obligations.ZeroPaddingLoss := by
  refine fun bs b _ => ⟨fun h => ?_, fun h => unpadZero_append_zeros h _⟩
  obtain ⟨-, -, hlast⟩ := unpadZero_spec (padZero bs b)
  rwa [h] at hlast

/-- Settles O15: zero unpadding accepts every byte sequence. -/
theorem unpadZeroStrips : Obligations.UnpadZeroStrips := by
  intro c m s
  obtain ⟨j, hsplit, hlast⟩ := unpadZero_spec s.work.output.bytes
  exact ⟨unpadZero s.work.output.bytes, j, hsplit, hlast, exec_unpad_of_some (p := .zero) m rfl⟩

/-- Settles O16, from the exact condition under which `unpad_x923` returns. -/
theorem unpadX923RemovesOrRaises : Obligations.UnpadX923RemovesOrRaises := by
  intro c m s
  obtain ⟨hremoves, hraises⟩ := exec_unpad_of_iff (p := .x923) (unpad := unpadX923 (blockBytes c)) m rfl
    fun r => unpadX923_eq_some_iff (b := s.work.output.bytes) (blockBytes_le c)
  exact ⟨fun r k hpos hle hwhole hsplit => hremoves r k ⟨hpos, hle, hwhole, hsplit⟩, hraises⟩

/-- Settles O17, from the exact condition under which `unpad_pkcs7` returns. -/
theorem unpadPkcs7RemovesOrRaises : Obligations.UnpadPkcs7RemovesOrRaises := by
  intro c m s
  obtain ⟨hremoves, hraises⟩ := exec_unpad_of_iff (p := .pkcs7) (unpad := unpadPkcs7 (blockBytes c)) m rfl
    fun r => unpadPkcs7_eq_some_iff (b := s.work.output.bytes) (blockBytes_le c)
  exact ⟨fun r k hpos hle hwhole hsplit => hremoves r k ⟨hpos, hle, hwhole, hsplit⟩, hraises⟩

/-- Settles O18: a marker is accepted, and each of the three failures contradicts what `unpad_rfc1321` accepts. -/
theorem unpadRfc1321FindsMarker : Obligations.UnpadRfc1321FindsMarker := by
  refine fun c m s => ⟨fun i hpos hwhole hlo hi hbit habove => ?_, fun hfail => ?_⟩
  · exact exec_unpad_of_some (p := .rfc1321) m
      (unpadRfc1321_eq_some_iff.2 ⟨hpos.ne', hwhole, i, ⟨hlo, hi, hbit, habove⟩, rfl⟩)
  · have hnone : unpadRfc1321 (blockBits c) s.work.output = none := by
      refine Option.eq_none_iff_forall_ne_some.2 fun u hu => ?_
      obtain ⟨hne, hwhole, i, ⟨hlo, hi, hbit, -⟩, -⟩ := unpadRfc1321_eq_some_iff.1 hu
      obtain hempty | hpartial | hzero := hfail
      · exact hne hempty
      · exact hpartial hwhole
      · exact Bool.false_ne_true ((hzero i hlo hi).symm.trans hbit)
    exact exec_unpad_of_none (p := .rfc1321) m hnone

/-- Settles O10: the bytes that `pad_zero` gives. -/
theorem padZeroAppends : Obligations.PadZeroAppends := fun c m _ h8 =>
  ⟨_, _, rfl, rfl, exec_pad_of_bytes .zero c m h8⟩

/-- Settles O11: the bytes that `pad_x923` gives, and the bounds of the pad length. -/
theorem padX923Appends : Obligations.PadX923Appends := by
  intro c m s h8
  obtain ⟨hpos, hle⟩ := padLength_bounds (blockBytes_pos c) s.work.input.bytes.length
  exact ⟨_, _, rfl, hpos, hle, rfl, exec_pad_of_bytes .x923 c m h8⟩

/-- Settles O12: the bytes that `pad_pkcs7` gives, and the bounds of the pad length. -/
theorem padPkcs7Appends : Obligations.PadPkcs7Appends := by
  intro c m s h8
  obtain ⟨hpos, hle⟩ := padLength_bounds (blockBytes_pos c) s.work.input.bytes.length
  exact ⟨_, _, rfl, hpos, hle, rfl, exec_pad_of_bytes .pkcs7 c m h8⟩

/-- Settles O13: the length that `pad_rfc1321` reaches, on every operand. -/
theorem padRfc1321SetsMarker : Obligations.PadRfc1321SetsMarker := by
  intro c m s
  obtain ⟨hwhole, hlt, hle⟩ := padRfc1321_len_bounds (blockBits_pos c) s.work.input
  exact ⟨_, hwhole, hlt, hle, exec_selectPadding_enc (k := ⟨c, m, .rfc1321, .enc⟩) rfl nofun⟩

/-- Settles O14: the three operations share the refusal. -/
theorem padRefusesPartialBytes : Obligations.PadRefusesPartialBytes := fun c _ _ h8 =>
  ⟨padBytesInput_refused (p := .zero) (c := c) h8, padBytesInput_refused (p := .x923) (c := c) h8,
    padBytesInput_refused (p := .pkcs7) (c := c) h8⟩

end Sys2Proof.Machine
end

section
/-! PROOF of O21, O23, O24 and O25. The cipher unit (spec/42_feistel.md): a Feistel network undoes itself under the reversed
subkeys, and a block operation under a key of the variant's width writes what the skeleton gives. -/
namespace Sys2Proof.Machine

/-! #### The rounds -/

theorem feistelRounds_cons {h n : Nat} (F : BitVec h → BitVec n → BitVec h) (k : BitVec n) (ks : List (BitVec n))
    (lr : BitVec h × BitVec h) :
    feistelRounds F (k :: ks) lr = feistelRounds F ks (lr.2, lr.1 ^^^ F lr.2 k) := rfl

theorem feistelRounds_append {h n : Nat} (F : BitVec h → BitVec n → BitVec h) (ks ks' : List (BitVec n))
    (lr : BitVec h × BitVec h) :
    feistelRounds F (ks ++ ks') lr = feistelRounds F ks' (feistelRounds F ks lr) :=
  List.foldl_append

/-- Rounds on swapped halves with the subkeys in reverse order lead back to the start, whatever the round function: the last
round's `⊕ F` meets itself first (R173). -/
theorem feistelRounds_reverse_swap {h n : Nat} (F : BitVec h → BitVec n → BitVec h) (ks : List (BitVec n))
    (lr : BitVec h × BitVec h) : feistelRounds F ks.reverse (feistelRounds F ks lr).swap = lr.swap := by
  induction ks generalizing lr with
  | nil => rfl
  | cons k ks ih =>
    rw [List.reverse_cons, feistelRounds_append, feistelRounds_cons F k ks, ih]
    show (lr.2, lr.1 ^^^ F lr.2 k ^^^ F lr.2 k) = lr.swap
    rw [BitVec.xor_assoc, BitVec.xor_self, BitVec.xor_zero]
    rfl

/-! #### The skeleton -/

/-- The output of the skeleton, given the halves after the last round (R171, D8). -/
theorem feistel_of_halves {h k : Nat} {p : CipherParams h k} {subs : List (BitVec p.subkeyBits)} {x : BitVec (h + h)}
    {l r : BitVec h} (hlr : feistelHalves p subs x = (l, r)) : feistel p subs x = p.ipermInv (r ++ l) := by
  rw [feistel, hlr]

/-- Run on its own output under the reversed subkeys, the skeleton ends with the halves it started from, swapped (R173). -/
theorem feistelHalves_reverse_feistel {h k : Nat} {p : CipherParams h k} (hp : p.Bijective)
    (subs : List (BitVec p.subkeyBits)) (x : BitVec (h + h)) :
    feistelHalves p subs.reverse (feistel p subs x) = ((p.iperm x).extractLsb' 0 h, (p.iperm x).extractLsb' h h) := by
  obtain ⟨-, hiperm⟩ := hp
  rw [feistelHalves, feistel, hiperm, BitVec.extractLsb'_append_eq_left, BitVec.extractLsb'_append_eq_right]
  exact feistelRounds_reverse_swap p.roundF subs _

/-- The skeleton undoes itself under the reversed subkeys (R173). -/
theorem feistel_reverse_feistel {h k : Nat} {p : CipherParams h k} (hp : p.Bijective) (subs : List (BitVec p.subkeyBits))
    (x : BitVec (h + h)) : feistel p subs.reverse (feistel p subs x) = x := by
  rw [feistel_of_halves (feistelHalves_reverse_feistel hp subs x), BitVec.extractLsb'_append_extractLsb']
  obtain ⟨hinv, -⟩ := hp
  exact hinv x

/-- The two directions of a variant use the same subkeys in opposite orders (R172). -/
theorem variantBlock_inverse {h k : Nat} {p : CipherParams h k} (hp : p.Bijective) (key : BitVec k) (x : BitVec (h + h)) :
    variantBlock p .dec key (variantBlock p .enc key x) = x ∧ variantBlock p .enc key (variantBlock p .dec key x) = x := by
  refine ⟨feistel_reverse_feistel hp (subkeys p key) x, ?_⟩
  have hrev := feistel_reverse_feistel hp (subkeys p key).reverse x
  rwa [List.reverse_reverse] at hrev

/-- Settles O21: each variant is a Feistel network, and those undo themselves. -/
theorem cipherInverse : Obligations.CipherInverse := by
  rintro S ⟨hsdes, hlucifer, hsp96⟩ c key x
  cases c with
  | sdes => exact variantBlock_inverse hsdes key x
  | lucifer => exact variantBlock_inverse hlucifer key x
  | sp96 => exact variantBlock_inverse hsp96 key x

/-! #### The block operations -/

/-- The block operation that encrypts under a variant (R93). -/
def encBlockOp (c : Cipher) (d : Direction) (m : Mode) (p : Scheme) : Instr :=
  match c with
  | .sdes => .encblkSdes d m p
  | .lucifer => .encblkLucifer d m p
  | .sp96 => .encblkSp96 d m p

/-- The block operation that decrypts under a variant (R93). -/
def decBlockOp (c : Cipher) (m : Mode) (p : Scheme) : Instr :=
  match c with
  | .sdes => .decblkSdes m p
  | .lucifer => .decblkLucifer m p
  | .sp96 => .decblkSp96 m p

theorem exec_encBlockOp (c : Cipher) (d : Direction) (m : Mode) (p : Scheme) (s : State) :
    exec (encBlockOp c d m p) s = settle s (cipherUnit c .enc s) := by
  cases c <;> rfl

theorem exec_decBlockOp (c : Cipher) (m : Mode) (p : Scheme) (s : State) :
    exec (decBlockOp c m p) s = settle s (cipherUnit c .dec s) := by
  cases c <;> rfl

/-- The cipher unit with a key of the variant's width writes its own registers and nothing else (R170). -/
theorem settle_cipherUnit {c : Cipher} {s : State} (d : Direction) (hk : s.work.keyN.toNat = keyBits c) :
    settle s (cipherUnit c d s) = .next { s with work := s.work.runCipher c d } := by
  rw [cipherUnit_eq_ok.2 ⟨hk, rfl⟩, settle_ok]

/-- An encryption under a key of the variant's width (R178, R181, R184). -/
theorem exec_encBlockOp_of_key {c : Cipher} {s : State} (d : Direction) (m : Mode) (p : Scheme)
    (hk : s.work.keyN.toNat = keyBits c) :
    exec (encBlockOp c d m p) s = .next { s with work := s.work.runCipher c .enc } :=
  (exec_encBlockOp c d m p s).trans (settle_cipherUnit .enc hk)

/-- A decryption under a key of the variant's width (R179, R182, R185). -/
theorem exec_decBlockOp_of_key {c : Cipher} {s : State} (m : Mode) (p : Scheme) (hk : s.work.keyN.toNat = keyBits c) :
    exec (decBlockOp c m p) s = .next { s with work := s.work.runCipher c .dec } :=
  (exec_decBlockOp c m p s).trans (settle_cipherUnit .dec hk)

/-! #### SDES -/

/-- `ENCBLK.SDES` uses the two subkeys in the order of the schedule (R178). -/
theorem subkeysFor_sdes_enc (key : BitVec 10) :
    subkeysFor sdesParams .enc key = [sdesKeySchedule key 0, sdesKeySchedule key 1] := rfl

/-- `DECBLK.SDES` uses them in reverse (R179). -/
theorem subkeysFor_sdes_dec (key : BitVec 10) :
    subkeysFor sdesParams .dec key = [sdesKeySchedule key 1, sdesKeySchedule key 0] := rfl

/-- The SDES unit's two rounds under the subkeys `ka` and `kb`, in the order the direction uses them (R175, R178, R179). -/
theorem runCipher_sdes {d : Direction} {w : Work} {ka kb y : BitVec 8} {r1 r2 : BitVec 4}
    (hsubs : subkeysFor sdesParams d (w.key .sdes) = [ka, kb]) (hy : y = permBits 8 (w.blockPort.setWidth 8) tableIP)
    (hr1 : r1 = y.extractLsb' 4 4 ^^^ sdesRoundF (y.extractLsb' 0 4) ka)
    (hr2 : r2 = y.extractLsb' 0 4 ^^^ sdesRoundF r1 kb) :
    w.runCipher .sdes d = { w with
      subkey := .sdes (subkeys sdesParams (w.key .sdes)), l := r1.setWidth 32, r := r2.setWidth 32
      blockPort := (permBits 8 (r2 ++ r1) tableIPInv).setWidth 64 } := by
  have hhalves : feistelHalves (h := 4) sdesParams (subkeysFor sdesParams d (w.key .sdes)) (w.block .sdes) = (r1, r2) := by
    rw [hsubs, hr2, hr1, hy]
    rfl
  have hblock : cipherBlock suite .sdes d (w.key .sdes) (w.block .sdes) = permBits 8 (r2 ++ r1) tableIPInv :=
    feistel_of_halves hhalves
  have hafter : halvesAfter .sdes d (w.key .sdes) (w.block .sdes) = (r1.setWidth 32, r2.setWidth 32) := by
    rw [halvesAfter, hhalves]
  rw [Work.runCipher, hblock, hafter]
  rfl

/-- Settles O23: the two rounds under the subkeys in the order of the schedule. -/
theorem encblkSdesUnfolded : Obligations.EncblkSdesUnfolded := by
  intro d m p s hk
  have hnext := exec_encBlockOp_of_key (c := .sdes) d m p (congrArg BitVec.toNat hk)
  rw [runCipher_sdes (subkeysFor_sdes_enc _) rfl rfl rfl] at hnext
  exact ⟨_, _, _, _, _, _, _, _, rfl, rfl, rfl, rfl, rfl, rfl, rfl, rfl, hnext⟩

/-- Settles O24: the two rounds under the subkeys in reverse order. -/
theorem decblkSdesUnfolded : Obligations.DecblkSdesUnfolded := by
  intro m p s hk
  have hnext := exec_decBlockOp_of_key (c := .sdes) m p (congrArg BitVec.toNat hk)
  rw [runCipher_sdes (subkeysFor_sdes_dec _) rfl rfl rfl] at hnext
  exact ⟨_, _, _, _, _, _, _, _, rfl, rfl, rfl, rfl, rfl, rfl, rfl, rfl, hnext⟩

/-! #### The open variants -/

/-- A Lucifer block fills the unit's port, so that no width changes (R2, R170). -/
theorem cipherBlock_lucifer_port (d : Direction) (w : Work) :
    (cipherBlock suite .lucifer d (w.key .lucifer) (w.block .lucifer)).setWidth 64 =
      feistel (h := 32) luciferParams (subkeysFor luciferParams d (w.key .lucifer)) w.blockPort :=
  (BitVec.setWidth_eq _).trans (congrArg (feistel (h := 32) luciferParams _) (BitVec.setWidth_eq _))

/-- Settles O25: the registers the unit writes, read as the skeleton's. -/
theorem openVariantBlocks : Obligations.OpenVariantBlocks := by
  refine fun d m p s => ⟨fun hk => ?_, fun hk => ?_⟩
  · have henc := exec_encBlockOp_of_key (c := .lucifer) d m p (congrArg BitVec.toNat hk)
    have hdec := exec_decBlockOp_of_key (c := .lucifer) m p (congrArg BitVec.toNat hk)
    rw [Work.runCipher, cipherBlock_lucifer_port] at henc hdec
    exact ⟨_, _, _, _, _, rfl, henc, hdec⟩
  · exact ⟨_, _, _, _, _, rfl, exec_encBlockOp_of_key (c := .sp96) d m p (congrArg BitVec.toNat hk),
      exec_decBlockOp_of_key (c := .sp96) m p (congrArg BitVec.toNat hk)⟩

end Sys2Proof.Machine
end

section
/-! PROOF of O26 to O28 and O30 to O33. The mode controller (spec/43_modes.md): one step as a run of the cipher unit and a
stored block, the modes' two directions as inverses on block sequences, and the block at an index of each mode's result. -/
namespace Sys2Proof.Machine

/-! #### One block of phase MODE -/

/-- `s` with the cipher unit's own registers taken from `w`; the frame of a run of the unit is that nothing else differs (R33,
R170). -/
def State.withCipherRegs (w : Work) (s : State) : State :=
  { s with work := { s.work with subkey := w.subkey, l := w.l, r := w.r, blockPort := w.blockPort } }

/-- With a key of the variant's width, the cipher unit writes its own registers only, the block's image at its port (R170,
R172). -/
theorem throughCipher_withCipherRegs {c : Cipher} {s : State} (hk : s.work.keyN.toNat = keyBits c) (d : Direction)
    (x : BitVec (blockBits c)) :
    ∃ w, throughCipher c d x s = .ok (s.withCipherRegs w) ∧
      (s.withCipherRegs w).work.block c = cipherBlock suite c d (s.work.key c) x := by
  obtain ⟨u, hu, hblock, hframe⟩ := throughCipher_eq_ok (d := d) (x := x) hk
  have hregs : u = s.withCipherRegs u.work := hframe
  rw [hregs] at hu hblock
  exact ⟨u.work, hu, hblock⟩

/-- What a stored block does to `OBUF` and `OBUFN` (R200). -/
theorem storeBlock_output (c : Cipher) (y : BitVec (blockBits c)) (s : State) :
    blockAt (blockBits c) (s.storeBlock c y).work.obuf s.seq.blk.toNat = y ∧
      (∀ j, j ≠ s.seq.blk.toNat →
        blockAt (blockBits c) (s.storeBlock c y).work.obuf j = blockAt (blockBits c) s.work.obuf j) ∧
      (s.storeBlock c y).work.obufN = BitVec.ofNat 32 (s.work.nblk.toNat * blockBits c) :=
  ⟨blockAt_putBlock_self _ _ _ y, fun _ hj => blockAt_putBlock_other _ _ hj y, rfl⟩

section
variable {c : Cipher} {s : State} (hk : s.work.keyN.toNat = keyBits c)
include hk

/-- A step of ECB under a key of the variant's width (R202, R205). -/
theorem modeStep_ecb_of_key (d : Direction) :
    ∃ w, modeStep .ecb d c s =
      .ok ((s.withCipherRegs w).storeBlock c (cipherBlock suite c d (s.work.key c) (s.inputBlock c))) := by
  obtain ⟨w, hrun, hblock⟩ := throughCipher_withCipherRegs hk d (s.inputBlock c)
  refine ⟨w, ?_⟩
  rw [modeStep, ecbStep, hrun, ← hblock]
  rfl

/-- A step of CBC encryption under a key and an IV of the right widths (R203). -/
theorem modeStep_cbc_enc_of_key (hi : s.work.ivN.toNat = blockBits c) {y : BitVec (blockBits c)}
    (hy : y = cipherBlock suite c .enc (s.work.key c) (s.inputBlock c ^^^ s.work.chainBlock c)) :
    ∃ w, modeStep .cbc .enc c s = .ok (((s.withCipherRegs w).storeBlock c y).setChain c y) := by
  obtain ⟨w, hrun, hblock⟩ := throughCipher_withCipherRegs hk .enc (s.inputBlock c ^^^ s.work.chainBlock c)
  refine ⟨w, withIv_eq_ok.2 ⟨beq_iff_eq.2 hi, ?_⟩⟩
  rw [hrun, hy, ← hblock]
  rfl

/-- A step of CBC decryption under a key and an IV of the right widths (R204). -/
theorem modeStep_cbc_dec_of_key (hi : s.work.ivN.toNat = blockBits c) :
    ∃ w, modeStep .cbc .dec c s =
      .ok (((s.withCipherRegs w).storeBlock c
        (cipherBlock suite c .dec (s.work.key c) (s.inputBlock c) ^^^ s.work.chainBlock c)).setChain c
          (s.inputBlock c)) := by
  obtain ⟨w, hrun, hblock⟩ := throughCipher_withCipherRegs hk .dec (s.inputBlock c)
  refine ⟨w, withIv_eq_ok.2 ⟨beq_iff_eq.2 hi, ?_⟩⟩
  rw [hrun, ← hblock]
  rfl

/-- A step of CTR in either direction, under a key and an IV of the right widths (R207, R209). -/
theorem modeStep_ctr_of_key (hi : ivWidthOk .ctr c s.work.ivN.toNat = true) (d : Direction) :
    ∃ w, modeStep .ctr d c s =
      .ok ((s.withCipherRegs w).storeBlock c
        (s.inputBlock c ^^^ cipherBlock suite c .enc (s.work.key c) (s.work.counterBlock c))).stepCounter := by
  obtain ⟨w, hrun, hblock⟩ := throughCipher_withCipherRegs hk .enc (s.work.counterBlock c)
  refine ⟨w, withIv_eq_ok.2 ⟨hi, ?_⟩⟩
  rw [hrun, ← hblock]
  rfl

end

/-- A mode operation whose step succeeds ends in the step's state. -/
theorem exec_selectMode_of_ok {k : Control} {s t : State} (h : modeStep k.mode k.dir k.cipher s = .ok t) :
    exec (selectMode k) s = .next t := by
  rw [exec_selectMode, h, settle_ok]

/-- Settles O26: both operations are the step of ECB in their direction. -/
theorem ecbBlockStep : Obligations.EcbBlockStep := by
  intro c p d i s hi hk
  obtain ⟨w, hstep⟩ := modeStep_ecb_of_key hk d
  have hnext := exec_selectMode_of_ok (k := ⟨c, .ecb, p, d⟩) hstep
  obtain ⟨hself, hother, hlen⟩ := storeBlock_output c (cipherBlock suite c d (s.work.key c) (s.inputBlock c))
    (s.withCipherRegs w)
  obtain ⟨rfl, rfl⟩ | ⟨rfl, rfl⟩ := hi
  · exact ⟨_, hnext, hself, hother, hlen, rfl⟩
  · exact ⟨_, hnext, hself, hother, hlen, rfl⟩

/-- Settles O27: each operation is the step of CBC in its direction; `CHAIN` is set after the block is stored. -/
theorem cbcBlockStep : Obligations.CbcBlockStep := by
  rintro c p s hk hiv X ch key rfl rfl rfl i Y next (⟨rfl, hY, rfl⟩ | ⟨rfl, rfl, rfl⟩)
  · obtain ⟨w, hstep⟩ := modeStep_cbc_enc_of_key hk hiv hY
    have hnext := exec_selectMode_of_ok (k := ⟨c, .cbc, p, .enc⟩) hstep
    obtain ⟨hself, hother, hlen⟩ := storeBlock_output c next (s.withCipherRegs w)
    exact ⟨_, hnext, hself, hother, hlen, rfl⟩
  · obtain ⟨w, hstep⟩ := modeStep_cbc_dec_of_key hk hiv
    have hnext := exec_selectMode_of_ok (k := ⟨c, .cbc, p, .dec⟩) hstep
    obtain ⟨hself, hother, hlen⟩ := storeBlock_output c
      (cipherBlock suite c .dec (s.work.key c) (s.inputBlock c) ^^^ s.work.chainBlock c) (s.withCipherRegs w)
    exact ⟨_, hnext, hself, hother, hlen, rfl⟩

/-- Settles O28: both operations are the one step of CTR. -/
theorem ctrBlockStep : Obligations.CtrBlockStep := by
  intro c p i s hi hk hpos hle
  have hiv : ivWidthOk .ctr c s.work.ivN.toNat = true := by simp [ivWidthOk, hpos, hle]
  have hexec : exec i s = settle s (modeStep .ctr .enc c s) := by
    obtain rfl | rfl := hi
    · exact exec_selectMode ⟨c, .ctr, p, .enc⟩ s
    · exact exec_selectMode ⟨c, .ctr, p, .dec⟩ s
  obtain ⟨w, hstep⟩ := modeStep_ctr_of_key hk hiv .enc
  rw [hexec, hstep, settle_ok]
  obtain ⟨hself, hother, hlen⟩ := storeBlock_output c
    (s.inputBlock c ^^^ cipherBlock suite c .enc (s.work.key c) (s.work.counterBlock c)) (s.withCipherRegs w)
  exact ⟨_, rfl, hself, hother, hlen, rfl⟩

/-! #### The two directions of a mode -/

/-- ECB under functions that undo each other (R202, R205). -/
theorem ecbBlocks_inverse {B : Nat} {E D : BitVec B → BitVec B} (h : ∀ x, D (E x) = x) (xs : List (BitVec B)) :
    ecbBlocks D (ecbBlocks E xs) = xs := by
  rw [ecbBlocks, ecbBlocks, List.map_map, funext h (f := D ∘ E) (g := id), List.map_id]

/-- CBC decryption undoes encryption: `D` meets `E`, and the chaining value meets itself (R203, R204). -/
theorem cbcDecBlocks_cbcEncBlocks {B : Nat} {E D : BitVec B → BitVec B} (h : ∀ x, D (E x) = x) (c : BitVec B)
    (xs : List (BitVec B)) : cbcDecBlocks D c (cbcEncBlocks E c xs) = xs := by
  induction xs generalizing c with
  | nil => rfl
  | cons x xs ih => rw [cbcEncBlocks, cbcDecBlocks, h, xor_cancel_right, ih]

/-- CBC encryption undoes decryption (R203, R204). -/
theorem cbcEncBlocks_cbcDecBlocks {B : Nat} {E D : BitVec B → BitVec B} (h : ∀ x, E (D x) = x) (c : BitVec B)
    (xs : List (BitVec B)) : cbcEncBlocks E c (cbcDecBlocks D c xs) = xs := by
  induction xs generalizing c with
  | nil => rfl
  | cons x xs ih => rw [cbcDecBlocks, cbcEncBlocks, xor_cancel_right, h, ih]

/-- CTR is its own inverse, whatever the block function (R207, R209). -/
theorem ctrBlocks_ctrBlocks {B w : Nat} (E : BitVec B → BitVec B) (c : BitVec w) (xs : List (BitVec B)) :
    ctrBlocks E c (ctrBlocks E c xs) = xs := by
  induction xs generalizing c with
  | nil => rfl
  | cons x xs ih => rw [ctrBlocks, ctrBlocks, xor_cancel_right, ih]

/-- A mode in a direction as a function on block sequences (R201). -/
def modeBlocks (S : Suite) (m : Mode) (d : Direction) (c : Cipher) (key iv : BitValue)
    (xs : List (BitVec (blockBits c))) : List (BitVec (blockBits c)) :=
  match m, d with
  | .ecb, d => ecbBlocks (cipherBlock S c d (BitVec.ofNat (keyBits c) key.val)) xs
  | .cbc, .enc => cbcEncBlocks (cipherBlock S c .enc (BitVec.ofNat (keyBits c) key.val)) (BitVec.ofNat _ iv.val) xs
  | .cbc, .dec => cbcDecBlocks (cipherBlock S c .dec (BitVec.ofNat (keyBits c) key.val)) (BitVec.ofNat _ iv.val) xs
  | .ctr, _ => ctrBlocks (cipherBlock S c .enc (BitVec.ofNat (keyBits c) key.val)) (BitVec.ofNat iv.len iv.val) xs

theorem modeValue_eq_joinBlocks (S : Suite) (m : Mode) (d : Direction) (c : Cipher) (key iv data : BitValue) :
    modeValue S m d c key iv data = joinBlocks (modeBlocks S m d c key iv (sliceBlocks (blockBits c) data)) := by
  cases m <;> cases d <;> rfl

/-- The blocks of a mode's result are those its block function gives (R200, R201). -/
theorem sliceBlocks_modeValue (S : Suite) (m : Mode) (d : Direction) (c : Cipher) (key iv data : BitValue) :
    sliceBlocks (blockBits c) (modeValue S m d c key iv data) =
      modeBlocks S m d c key iv (sliceBlocks (blockBits c) data) := by
  rw [modeValue_eq_joinBlocks, sliceBlocks_joinBlocks (blockBits_pos c)]

/-- Both directions of a mode undo each other on block sequences (R210). -/
theorem modeBlocks_inverse {S : Suite} (hS : S.Bijective) (m : Mode) (c : Cipher) (key iv : BitValue)
    (xs : List (BitVec (blockBits c))) :
    modeBlocks S m .dec c key iv (modeBlocks S m .enc c key iv xs) = xs ∧
      modeBlocks S m .enc c key iv (modeBlocks S m .dec c key iv xs) = xs := by
  obtain ⟨hdec, henc⟩ := forall_and.1 (cipherInverse S hS c (BitVec.ofNat (keyBits c) key.val))
  cases m with
  | ecb => exact ⟨ecbBlocks_inverse hdec xs, ecbBlocks_inverse henc xs⟩
  | cbc => exact ⟨cbcDecBlocks_cbcEncBlocks hdec _ xs, cbcEncBlocks_cbcDecBlocks henc _ xs⟩
  | ctr => exact ⟨ctrBlocks_ctrBlocks _ _ xs, ctrBlocks_ctrBlocks _ _ xs⟩

/-- Settles O30: slicing undoes joining, so the two directions meet as functions on block sequences. -/
theorem modesRoundTrip : Obligations.ModesRoundTrip := by
  intro S hS m c key iv data _ hvalid hwhole
  obtain ⟨hdec, henc⟩ := modeBlocks_inverse hS m c key iv (sliceBlocks (blockBits c) data)
  have hjoin := joinBlocks_sliceBlocks (blockBits_pos c) hvalid hwhole
  constructor
  · rw [modeValue_eq_joinBlocks, sliceBlocks_modeValue, hdec, hjoin]
  · rw [modeValue_eq_joinBlocks, sliceBlocks_modeValue, henc, hjoin]

/-! #### The block at an index -/

/-- Block `i` of a mode's result (R200, R201). -/
theorem blockAt_modeValue (S : Suite) (m : Mode) (d : Direction) (c : Cipher) (key iv data : BitValue) (i : Nat) :
    blockAt (blockBits c) (modeValue S m d c key iv data).val i =
      (modeBlocks S m d c key iv (sliceBlocks (blockBits c) data)).getD i 0#(blockBits c) := by
  rw [modeValue_eq_joinBlocks, blockAt_joinBlocks (blockBits_pos c)]

/-- The chaining value that CBC has at block `i` of the ciphertext `y`: the block before it, or the IV before block 0 (R203,
R204). -/
def chainBefore (B : Nat) (iv y : BitValue) (i : Nat) : BitVec B :=
  if i = 0 then BitVec.ofNat B iv.val else blockAt B y.val (i - 1)

theorem chainBefore_zero (B : Nat) (iv y : BitValue) : chainBefore B iv y 0 = BitVec.ofNat B iv.val := rfl

theorem chainBefore_succ (B : Nat) (iv y : BitValue) (i : Nat) : chainBefore B iv y (i + 1) = blockAt B y.val i := rfl

section
variable {S : Suite} {c : Cipher} {key iv data : BitValue} {i : Nat} (hi : i < data.len / blockBits c)
include hi

/-- Block `i` of ECB is the cipher's image of block `i` (R202, R205). -/
theorem blockAt_ecb (d : Direction) :
    blockAt (blockBits c) (modeValue S .ecb d c key iv data).val i =
      cipherBlock S c d (BitVec.ofNat (keyBits c) key.val) (blockAt (blockBits c) data.val i) := by
  have hlen : i < (sliceBlocks (blockBits c) data).length := by rwa [sliceBlocks_length]
  rw [blockAt_modeValue, modeBlocks, ecbBlocks, List.getD_eq_getElem _ _ (by rwa [List.length_map]), List.getElem_map,
    sliceBlocks_getElem]

/-- Block `i` of CBC encryption is `E(X[i] ⊕ CHAIN)` (R203). -/
theorem blockAt_cbc_enc :
    blockAt (blockBits c) (modeValue S .cbc .enc c key iv data).val i =
      cipherBlock S c .enc (BitVec.ofNat (keyBits c) key.val) (blockAt (blockBits c) data.val i ^^^
        chainBefore (blockBits c) iv (modeValue S .cbc .enc c key iv data) i) := by
  have hlen : i < (sliceBlocks (blockBits c) data).length := by rwa [sliceBlocks_length]
  rw [chainBefore, blockAt_modeValue, blockAt_modeValue, modeBlocks,
    List.getD_eq_getElem _ _ (by rwa [cbcEncBlocks_length]), cbcEncBlocks_getElem, sliceBlocks_getElem]

/-- Block `i` of CBC decryption is `D(X[i]) ⊕ CHAIN` (R204). -/
theorem blockAt_cbc_dec :
    blockAt (blockBits c) (modeValue S .cbc .dec c key iv data).val i =
      cipherBlock S c .dec (BitVec.ofNat (keyBits c) key.val) (blockAt (blockBits c) data.val i) ^^^
        chainBefore (blockBits c) iv data i := by
  have hlen : i < (sliceBlocks (blockBits c) data).length := by rwa [sliceBlocks_length]
  have hprev : (sliceBlocks (blockBits c) data).getD (i - 1) 0#(blockBits c) = blockAt (blockBits c) data.val (i - 1) := by
    rw [List.getD_eq_getElem _ _ (by omega), sliceBlocks_getElem]
  rw [chainBefore, blockAt_modeValue, modeBlocks, List.getD_eq_getElem _ _ (by rwa [cbcDecBlocks_length]),
    cbcDecBlocks_getElem, sliceBlocks_getElem, hprev]

/-- Block `i` of CTR, in either direction, is `X[i] ⊕ E(c_i)` with `c_i = (c0 + i) mod 2^w` (R206, R207, R209). -/
theorem blockAt_ctr (d : Direction) :
    blockAt (blockBits c) (modeValue S .ctr d c key iv data).val i =
      blockAt (blockBits c) data.val i ^^^
        cipherBlock S c .enc (BitVec.ofNat (keyBits c) key.val)
          (BitVec.ofNat (blockBits c) ((iv.val + i) % 2 ^ iv.len)) := by
  have hlen : i < (sliceBlocks (blockBits c) data).length := by rwa [sliceBlocks_length]
  have hcounter : (BitVec.ofNat iv.len iv.val + BitVec.ofNat iv.len i).setWidth (blockBits c) =
      BitVec.ofNat (blockBits c) ((iv.val + i) % 2 ^ iv.len) := by
    rw [← BitVec.ofNat_add, ← BitVec.ofNat_toNat, BitVec.toNat_ofNat]
  rw [blockAt_modeValue, modeBlocks, List.getD_eq_getElem _ _ (by rwa [ctrBlocks_length]), ctrBlocks_getElem,
    sliceBlocks_getElem, hcounter]

end

/-- Settles O31: the counter of block `i`, read modulo `2^w`. -/
theorem ctrKeystreamByIndex : Obligations.CtrKeystreamByIndex := by
  intro S d c key iv data _ _ _ i hi
  exact blockAt_ctr hi d

/-! #### Diffusion -/

/-- Under one key, equal ciphertext blocks come from equal blocks (R173). -/
theorem cipherBlock_enc_inj {S : Suite} (hS : S.Bijective) {c : Cipher} {key : BitVec (keyBits c)}
    {x x' : BitVec (blockBits c)} : cipherBlock S c .enc key x = cipherBlock S c .enc key x' ↔ x = x' :=
  (Function.LeftInverse.injective (g := cipherBlock S c .dec key) fun z => (cipherInverse S hS c key z).left).eq_iff

/-- Where two data differ in block `i` alone, CBC ciphertexts agree exactly before block `i`: from there on the chaining values
differ (R211). -/
theorem cbc_enc_block_eq_iff {S : Suite} (hS : S.Bijective) {c : Cipher} {key iv : BitValue} {n x x' i : Nat}
    (hne : blockAt (blockBits c) x i ≠ blockAt (blockBits c) x' i)
    (heq : ∀ j, j ≠ i → blockAt (blockBits c) x j = blockAt (blockBits c) x' j) (j : Nat) (hj : j < n / blockBits c) :
    blockAt (blockBits c) (modeValue S .cbc .enc c key iv ⟨n, x⟩).val j =
      blockAt (blockBits c) (modeValue S .cbc .enc c key iv ⟨n, x'⟩).val j ↔ j < i := by
  induction j with
  | zero =>
    rw [blockAt_cbc_enc (data := ⟨n, x⟩) hj, blockAt_cbc_enc (data := ⟨n, x'⟩) hj, cipherBlock_enc_inj hS,
      chainBefore_zero, chainBefore_zero, BitVec.xor_left_inj]
    by_cases h : 0 = i
    · subst h
      exact iff_of_false hne (Nat.lt_irrefl 0)
    · exact iff_of_true (heq 0 h) (Nat.pos_of_ne_zero (Ne.symm h))
  | succ j ih =>
    have hchain := ih (Nat.lt_of_succ_lt hj)
    rw [blockAt_cbc_enc (data := ⟨n, x⟩) hj, blockAt_cbc_enc (data := ⟨n, x'⟩) hj, cipherBlock_enc_inj hS,
      chainBefore_succ, chainBefore_succ]
    by_cases h : j + 1 = i
    · subst h
      rw [hchain.2 (Nat.lt_succ_self j), BitVec.xor_left_inj]
      exact iff_of_false hne (Nat.lt_irrefl _)
    · rw [heq (j + 1) h, BitVec.xor_right_inj, hchain]
      omega

/-- Settles O32: ECB and CTR treat each block alone; CBC is `cbc_enc_block_eq_iff`. -/
theorem diffusionBoundaries : Obligations.DiffusionBoundaries := by
  rintro S hS c key iv n x x' i hi hne heq Y Y' rfl rfl
  refine ⟨fun j hj => ?_, cbc_enc_block_eq_iff hS hne heq, fun j hj hji => ?_, ?_⟩
  · show blockAt _ _ j = blockAt _ _ j ↔ j ≠ i
    rw [blockAt_ecb (data := ⟨n, x⟩) hj, blockAt_ecb (data := ⟨n, x'⟩) hj, cipherBlock_enc_inj hS]
    exact ⟨fun h hji => hne (hji ▸ h), heq j⟩
  · show blockAt _ _ j = blockAt _ _ j
    rw [blockAt_ctr (data := ⟨n, x⟩) hj, blockAt_ctr (data := ⟨n, x'⟩) hj, heq j hji]
  · show blockAt _ _ i ^^^ blockAt _ _ i = _
    rw [blockAt_ctr (data := ⟨n, x⟩) hi, blockAt_ctr (data := ⟨n, x'⟩) hi, BitVec.xor_assoc, xor_xor_cancel_comm_assoc]

/-! #### A wrong IV -/

/-- Settles O33: the chaining values of the two directions cancel but at block 0, where each direction has its own IV. -/
theorem cbcWrongIv : Obligations.CbcWrongIv := by
  intro S hS c key iv iv' data _ _ i hi
  have hi' : i < (modeValue S .cbc .enc c key iv data).len / blockBits c := by
    rwa [modeValue_len, Nat.mul_div_cancel _ (blockBits_pos c)]
  obtain ⟨hdec, -⟩ := cipherInverse S hS c (BitVec.ofNat (keyBits c) key.val) (blockAt (blockBits c) data.val i ^^^
    chainBefore (blockBits c) iv (modeValue S .cbc .enc c key iv data) i)
  rw [blockAt_cbc_dec hi', blockAt_cbc_enc hi, hdec]
  cases i with
  | zero => rfl
  | succ i => rw [if_neg (Nat.succ_ne_zero i), chainBefore_succ, chainBefore_succ, xor_cancel_right]

end Sys2Proof.Machine
end

section
/-! PROOF of O39, O37, O40, O8, O35 and O36. The Pipeline (spec/44_pipeline.md R230 to R248): what validation gives, the
request as one function, the length of its response, and the decryption of a response. -/
namespace Sys2Proof.Machine

/-! #### What validation gives -/

/-- The facts that the checks of phase VALIDATE establish of the operands (R121, R233 to R236). -/
structure Operands.Passed (k : Control) (o : Operands) : Prop where
  iv_valid : o.iv.Valid
  data_valid : o.data.Valid
  key_len : o.key.len = keyBits k.cipher
  iv_len : ivWidthOk k.mode k.cipher o.iv.len = true
  data_bytes : k.dir = .enc → byteGranular k.padding = true → o.data.len % 8 = 0
  data_blocks : k.dir = .dec → o.data.len % blockBits k.cipher = 0

theorem passed_of_validate {k : Control} {q : Request} {o : Operands} (h : validate k q = .ok o) : o.Passed k := by
  obtain ⟨hdec, hwidth⟩ := validate_eq_ok.1 h
  obtain ⟨-, hiv, hdata, -⟩ := decodeOperands_spec hdec
  obtain ⟨hkeyN, hivN, henc, hdecr⟩ := widthError_eq_none.1 hwidth
  exact ⟨hiv, hdata, hkeyN, hivN, henc, hdecr⟩

/-- The data of a validated request is as long as `DATA_SIZE` says, and its words are in the queue (R121). -/
theorem data_len_of_validate {k : Control} {q : Request} {o : Operands} (h : validate k q = .ok o) :
    o.data.len = q.dataSize.toNat ∧ wordCount o.data.len ≤ q.dataq.length := by
  obtain ⟨-, -, -, -, hlen, -, hwords⟩ := decodeOperands_spec (validate_eq_ok.1 h).1
  exact ⟨hlen, hlen ▸ hwords⟩

/-- A request that passes validation is transformed (R237, R238). -/
theorem runLegal_of_validate {k : Control} {q : Request} {o : Operands} (S : Suite) (h : validate k q = .ok o) :
    runLegal S k q = transform S k o := by
  rw [runLegal, h]

/-! #### The transform -/

theorem transform_enc (S : Suite) (c : Cipher) (m : Mode) (p : Scheme) (o : Operands) :
    transform S ⟨c, m, p, .enc⟩ o = .ok (modeValue S m .enc c o.key o.iv (padValue p c o.data)) := rfl

theorem transform_dec_of_some {S : Suite} {c : Cipher} {m : Mode} {p : Scheme} {o : Operands} {out : BitValue}
    (h : unpadValue p c (modeValue S m .dec c o.key o.iv o.data) = some out) : transform S ⟨c, m, p, .dec⟩ o = .ok out := by
  simp only [transform, h]

theorem transform_dec_of_none {S : Suite} {c : Cipher} {m : Mode} {p : Scheme} {o : Operands}
    (h : unpadValue p c (modeValue S m .dec c o.key o.iv o.data) = none) :
    transform S ⟨c, m, p, .dec⟩ o = .error .paddingError := by
  simp only [transform, h]

theorem transform_dec_eq_ok {S : Suite} {c : Cipher} {m : Mode} {p : Scheme} {o : Operands} {out : BitValue} :
    transform S ⟨c, m, p, .dec⟩ o = .ok out ↔ unpadValue p c (modeValue S m .dec c o.key o.iv o.data) = some out := by
  refine ⟨fun h => ?_, transform_dec_of_some⟩
  cases hu : unpadValue p c (modeValue S m .dec c o.key o.iv o.data) with
  | none => rw [transform_dec_of_none hu] at h; cases h
  | some v => rw [transform_dec_of_some hu] at h; rw [Except.ok.inj h]

/-- A mode's result is whole blocks (R201). -/
theorem modeValue_whole (S : Suite) (m : Mode) (d : Direction) (c : Cipher) (key iv data : BitValue) :
    (modeValue S m d c key iv data).len % blockBits c = 0 := by
  rw [modeValue_len, Nat.mul_mod_left]

/-- On whole blocks a mode keeps the length (R201). -/
theorem modeValue_len_of_whole {data : BitValue} {c : Cipher} (h : data.len % blockBits c = 0) (S : Suite) (m : Mode)
    (d : Direction) (key iv : BitValue) : (modeValue S m d c key iv data).len = data.len := by
  rw [modeValue_len, Nat.div_mul_cancel (Nat.dvd_of_mod_eq_zero h)]

/-! #### Unpadding a padded BitValue -/

/-- The schemes other than Zero give back the BitValue they padded (R149). -/
theorem unpadValue_padValue {p : Scheme} (hp : p ≠ .zero) (c : Cipher) {v : BitValue} (hv : v.Valid)
    (h8 : byteGranular p = true → v.len % 8 = 0) : unpadValue p c (padValue p c v) = some v := by
  cases p with
  | zero => exact absurd rfl hp
  | x923 =>
    rw [unpadValue, padValue, bytes_ofBytes, unpadX923_padX923 (blockBytes_pos c) (blockBytes_le c), Option.map_some,
      ofBytes_bytes hv (h8 rfl)]
  | pkcs7 =>
    rw [unpadValue, padValue, bytes_ofBytes, unpadPkcs7_padPkcs7 (blockBytes_pos c) (blockBytes_le c), Option.map_some,
      ofBytes_bytes hv (h8 rfl)]
  | rfc1321 => exact unpadRfc1321_padRfc1321 (blockBits_pos c) hv

/-- Zero unpadding strips the zeros that padding appended, and those the data already ended in (R142, R152). -/
theorem unpadZero_padZero (bs : Nat) (b : List Byte) : unpadZero (padZero bs b) = unpadZero b := by
  obtain ⟨j, hsplit, hlast⟩ := unpadZero_spec b
  rw [padZero]
  generalize (bs - b.length % bs) % bs = n
  calc unpadZero (b ++ List.replicate n 0#8)
      = unpadZero (unpadZero b ++ List.replicate (j + n) 0#8) := by
        rw [List.replicate_add, ← List.append_assoc, ← hsplit]
    _ = unpadZero b := unpadZero_append_zeros hlast _

theorem unpadValue_padValue_zero (c : Cipher) (v : BitValue) :
    unpadValue .zero c (padValue .zero c v) = some (.ofBytes (unpadZero v.bytes)) := by
  rw [unpadValue, padValue, bytes_ofBytes, unpadZero_padZero]

/-- Zero unpadding loses nothing exactly where there is no zero byte at the end (R152). -/
theorem ofBytes_unpadZero_eq_iff {v : BitValue} (hv : v.Valid) (h8 : v.len % 8 = 0) :
    BitValue.ofBytes (unpadZero v.bytes) = v ↔ v.bytes.getLast? ≠ some 0#8 := by
  constructor
  · intro h
    obtain ⟨-, -, hlast⟩ := unpadZero_spec v.bytes
    have hbytes : unpadZero v.bytes = v.bytes := by rw [← bytes_ofBytes (unpadZero v.bytes), h]
    rwa [hbytes] at hlast
  · intro h
    have hbytes : unpadZero v.bytes = v.bytes := by simpa using unpadZero_append_zeros h 0
    rw [hbytes, ofBytes_bytes hv h8]

/-! #### The request that decrypts a response -/

/-- The response in the place of the data (R247). -/
def Request.withData (q : Request) (v : BitValue) : Request :=
  { q with dataSize := BitVec.ofNat 32 v.len, dataq := encodeWords v }

/-- A BitValue put in the data queue decodes to itself; the key and the IV stay as they were (R122, R232). -/
theorem decodeOperands_withData {m : Mode} {q : Request} {o : Operands} {v : BitValue} (h : decodeOperands m q = .ok o)
    (hv : v.Valid) (hlen : v.len < 2 ^ 32) : decodeOperands m (q.withData v) = .ok { o with data := v } := by
  obtain ⟨hkey, hiv, -⟩ := decodeOperands_eq_ok.1 h
  refine decodeOperands_eq_ok.2 ⟨hkey, ?_, decodeRecord_eq_ok.2 ?_⟩
  · cases m <;> exact hiv
  · rw [Request.withData, BitVec.toNat_ofNat, Nat.mod_eq_of_lt hlen, decodeWords_encodeWords hv]

/-- A validated request to encrypt, turned into the one that decrypts whole blocks in the data's place, is validated too: key and
IV have the widths both directions ask for (R233, R234, R236). -/
theorem validate_withData {c : Cipher} {m : Mode} {p : Scheme} {q : Request} {o : Operands} {v : BitValue}
    (h : validate ⟨c, m, p, .enc⟩ q = .ok o) (hv : v.Valid) (hlen : v.len < 2 ^ 32) (hwhole : v.len % blockBits c = 0) :
    validate ⟨c, m, p, .dec⟩ (q.withData v) = .ok { o with data := v } :=
  have hpassed := passed_of_validate h
  validate_eq_ok.2 ⟨decodeOperands_withData (validate_eq_ok.1 h).1 hv hlen,
    widthError_eq_none.2 ⟨hpassed.key_len, hpassed.iv_len, nofun, fun _ => hwhole⟩⟩

/-- Decrypting the response of an encryption unpads the padded data (R210, R247). -/
theorem runLegal_dec_response {S : Suite} (hS : S.Bijective) {c : Cipher} {m : Mode} {p : Scheme} {q : Request} {o : Operands}
    {out : BitValue} (hq : q.dataq.length ≤ Config.dataCapWords) (hval : validate ⟨c, m, p, .enc⟩ q = .ok o)
    (hrun : runLegal S ⟨c, m, p, .enc⟩ q = .ok out) :
    ∀ v, unpadValue p c (padValue p c o.data) = some v → runLegal S ⟨c, m, p, .dec⟩ (q.withData out) = .ok v := by
  have hpassed := passed_of_validate hval
  obtain ⟨hpadded, hwhole, -, -⟩ := padValue_spec p c hpassed.data_valid (hpassed.data_bytes rfl)
  have hlen : out.len < 2 ^ 32 := (runLegal_len_le hq hrun).trans_lt maxBits_lt
  rw [runLegal_of_validate S hval, transform_enc, Except.ok.injEq] at hrun
  subst hrun
  obtain ⟨hinverse, -⟩ := modesRoundTrip S hS m c o.key o.iv _ hpassed.iv_len hpadded hwhole
  intro v hv
  rw [runLegal_of_validate S (validate_withData hval (modeValue_valid ..) hlen (modeValue_whole ..))]
  exact transform_dec_of_some (hinverse.symm ▸ hv)

/-! #### The request as one step -/

/-- A request scheduled as one step in phase VALIDATE reaches the final state of `run`, under a reserved control word too (R231,
R245). -/
theorem requestStep_eq_finish {s : State} (hp : s.seq.phase = .validate) :
    requestStep s = .next (finishRequest s (run suite s.work.ctrll s.request)) := by
  cases hk : decodeControl s.work.ctrll with
  | error e =>
    rw [requestStep, if_pos hp, fetch, decodeWord, run, hk]
    rfl
  | ok k =>
    rw [requestStep_of_validate hp (decodeWord_of_control rfl hk), exec_selectRun, run, hk]

/-! #### The decode of the operands -/

/-- The BitValue of a record, read from the words its size takes (R121). -/
def recordValue (q : List Word) (size : BitVec 32) : BitValue :=
  ⟨size.toNat, wordsToNat (q.take (wordCount size.toNat)) % 2 ^ size.toNat⟩

theorem decodeRecord_of_le {q : List Word} {size : BitVec 32} (h : wordCount size.toNat ≤ q.length) :
    decodeRecord q size = .ok (recordValue q size) :=
  decodeRecord_eq_ok.2 (decodeWords_eq_some.2 ⟨h, rfl⟩)

/-- Outside ECB the IV is the record's (R232). -/
theorem decodeIv_of_ne {m : Mode} (hm : m ≠ .ecb) (q : Request) : decodeIv m q = decodeRecord q.ivq q.ivSize := by
  cases m with
  | ecb => exact absurd rfl hm
  | cbc | ctr => rfl

/-- With enough words in every record that its mode looks at, a request decodes (R232). -/
theorem decodeOperands_of_le {m : Mode} {q : Request} (hkey : wordCount q.keySize.toNat ≤ q.keyq.length)
    (hiv : m ≠ .ecb → wordCount q.ivSize.toNat ≤ q.ivq.length) (hdata : wordCount q.dataSize.toNat ≤ q.dataq.length) :
    decodeOperands m q = .ok ⟨recordValue q.keyq q.keySize, if m = .ecb then .empty else recordValue q.ivq q.ivSize,
      recordValue q.dataq q.dataSize⟩ := by
  refine decodeOperands_eq_ok.2 ⟨decodeRecord_of_le hkey, ?_, decodeRecord_of_le hdata⟩
  by_cases hm : m = .ecb
  · subst hm
    rfl
  · rw [decodeIv_of_ne hm, decodeRecord_of_le (hiv hm), if_neg hm]

/-- With too few words in one of those records the decode raises `MalformedInput` (R121, R232). -/
theorem decodeOperands_of_short {m : Mode} {q : Request}
    (h : q.keyq.length < wordCount q.keySize.toNat ∨ (m ≠ .ecb ∧ q.ivq.length < wordCount q.ivSize.toNat) ∨
      q.dataq.length < wordCount q.dataSize.toNat) : decodeOperands m q = .error .malformedInput := by
  cases hdec : decodeOperands m q with
  | error e => rw [decodeOperands_error hdec]
  | ok o =>
    obtain ⟨hkey, hiv, hdata⟩ := decodeOperands_eq_ok.1 hdec
    obtain hshort | ⟨hm, hshort⟩ | hshort := h
    · obtain ⟨-, -, hwords⟩ := decodeRecord_spec hkey
      exact absurd hwords (Nat.not_le.2 hshort)
    · rw [decodeIv_of_ne hm] at hiv
      obtain ⟨-, -, hwords⟩ := decodeRecord_spec hiv
      exact absurd hwords (Nat.not_le.2 hshort)
    · obtain ⟨-, -, hwords⟩ := decodeRecord_spec hdata
      exact absurd hwords (Nat.not_le.2 hshort)

/-! #### The statements -/

/-- Settles O39: the modes' round trip leaves the unpadding of the padded data, scheme by scheme. -/
theorem pipelineRoundTrip : Obligations.PipelineRoundTrip := by
  rintro S hS c m p q o out hq hval hrun q' rfl
  have hpassed := passed_of_validate hval
  have hresponse := runLegal_dec_response hS hq hval hrun
  refine ⟨fun hp => ?_, ?_⟩
  · exact hresponse o.data (unpadValue_padValue hp c hpassed.data_valid (hpassed.data_bytes rfl))
  · rintro rfl
    exact ⟨hresponse _ (unpadValue_padValue_zero c o.data),
      ofBytes_unpadZero_eq_iff hpassed.data_valid (hpassed.data_bytes rfl rfl)⟩

/-- Settles O37: both the event and the RUN operation end in `finishRequest` of `run`. -/
theorem requestFinalState : Obligations.RequestFinalState := by
  refine ⟨fun s rest hin hseq => ?_, fun k s => ?_⟩
  · have hstep : step s = .next (finishRequest { s with inbox := rest } (run suite s.work.ctrll s.request)) := by
      rw [step_of_cons hin]
      exact requestStep_eq_finish (s := { s with inbox := rest }) (congrArg Seq.phase hseq)
    refine ⟨_, hstep, ?_⟩
    cases run suite s.work.ctrll s.request with
    | ok out => exact ⟨fun out' h => Except.ok.inj h ▸ ⟨rfl, rfl, rfl, rfl⟩, nofun, rfl⟩
    | error e => exact ⟨nofun, fun e' h => Except.error.inj h ▸ ⟨rfl, rfl, rfl, rfl⟩, rfl⟩
  · refine ⟨_, exec_selectRun k s, ?_⟩
    rw [run_encodeControl]
    cases runLegal suite k s.request with
    | ok out => exact ⟨fun out' h => Except.ok.inj h ▸ rfl, nofun⟩
    | error e => exact ⟨nofun, fun e' h => Except.error.inj h ▸ rfl⟩

/-- Settles O40: the mode keeps the length of the padded data when encrypting; unpadding only shortens when decrypting. -/
theorem responseLength : Obligations.ResponseLength := by
  refine fun S c m p q out => ⟨fun hrun => ?_, fun hrun => ?_, fun d hrun hq => ?_⟩
  · obtain ⟨o, hval, htrans⟩ := runLegal_eq_ok.1 hrun
    have hpassed := passed_of_validate hval
    obtain ⟨-, hwhole, hle, hle'⟩ := padValue_spec p c hpassed.data_valid (hpassed.data_bytes rfl)
    obtain ⟨hlen, -⟩ := data_len_of_validate hval
    rw [transform_enc, Except.ok.injEq] at htrans
    rw [← hlen, ← htrans, modeValue_len_of_whole hwhole]
    exact ⟨hwhole, hle, hle'⟩
  · obtain ⟨o, hval, htrans⟩ := runLegal_eq_ok.1 hrun
    obtain ⟨hlen, -⟩ := data_len_of_validate hval
    obtain ⟨-, hle⟩ := unpadValue_spec (modeValue_whole ..) (transform_dec_eq_ok.1 htrans)
    rw [← hlen]
    exact hle.trans (modeValue_len_of_whole ((passed_of_validate hval).data_blocks rfl) ..).le
  · rw [encodeWords_length]
    exact wordCount_le_outCap (runLegal_len_le hq hrun)

/-- Settles O8: the operands decode record by record, or one of the records is too short. -/
theorem bbDecodeLoadsOrRaises : Obligations.BbDecodeLoadsOrRaises := by
  intro c m p d s
  change (_ → _ → _ → exec (selectDecode ⟨c, m, p, d⟩) s = _) ∧ (_ → exec (selectDecode ⟨c, m, p, d⟩) s = _)
  rw [exec_selectDecode]
  refine ⟨fun hkey hiv hdata => ?_, fun hshort => ?_⟩
  · rw [decodeRequest_of_ok (decodeOperands_of_le (q := s.request) hkey hiv hdata), settle_ok]
    cases m <;> simp [Work.loadOperands, recordValue, State.request, BitValue.empty]
  · rw [decodeRequest_of_error (decodeOperands_of_short (q := s.request) hshort), settle_error]

/-- Settles O35: the transform of a validated request to encrypt is the mode on the padded data. -/
theorem runEncCompletes : Obligations.RunEncCompletes := by
  rintro c m p s o hval out rfl
  change exec (selectRun ⟨c, m, p, .enc⟩) s = _
  rw [exec_selectRun, runLegal_of_validate suite hval, transform_enc]
  rfl

/-- Settles O36: a validated request to decrypt completes or raises as its data unpads or not. -/
theorem runDecCompletesOrPaddingError : Obligations.RunDecCompletesOrPaddingError := by
  intro c m p s o hval
  change (∀ out, _ → exec (selectRun ⟨c, m, p, .dec⟩) s = _) ∧ (_ → exec (selectRun ⟨c, m, p, .dec⟩) s = _)
  rw [exec_selectRun, runLegal_of_validate suite hval]
  refine ⟨fun out hsome => ?_, fun hnone => ?_⟩
  · rw [transform_dec_of_some hsome]
    rfl
  · rw [transform_dec_of_none hnone]
    rfl

end Sys2Proof.Machine
end

section
/-! PROOF of O41 and O42. The sequencer against the request as one function (spec/44_pipeline.md R245, R246): the steps of phase
VALIDATE, the registers at each block of phase MODE, and a run of busy steps through the phases. -/
namespace Sys2Proof.Machine

/-! #### Phase VALIDATE -/

/-- The lengths of decoded operands fit the size registers they are loaded into (R25, R33). -/
theorem loadOperands_lengths {m : Mode} {q : Request} {o : Operands} (h : decodeOperands m q = .ok o) (w : Work) :
    (w.loadOperands o).keyN.toNat = o.key.len ∧ (w.loadOperands o).ivN.toNat = o.iv.len ∧
      (w.loadOperands o).input = o.data := by
  obtain ⟨-, -, -, hkey, hdata, hiv, -⟩ := decodeOperands_spec h
  have hivlt : o.iv.len < 2 ^ 32 := by
    rw [hiv]
    split
    · exact Nat.two_pow_pos 32
    · exact q.ivSize.isLt
  have hkeylt : o.key.len < 2 ^ 32 := hkey ▸ q.keySize.isLt
  have hdatalt : o.data.len < 2 ^ 32 := hdata ▸ q.dataSize.isLt
  refine ⟨?_, ?_, ?_⟩
  · rw [loadOperands_keyN, BitVec.toNat_ofNat, Nat.mod_eq_of_lt hkeylt]
  · rw [loadOperands_ivN, BitVec.toNat_ofNat, Nat.mod_eq_of_lt hivlt]
  · rw [Work.input, loadOperands_ibufN, loadOperands_ibuf, BitVec.toNat_ofNat, Nat.mod_eq_of_lt hdatalt]

/-- Validation fails where an operand does not decode or a width is wrong (R232 to R236). -/
theorem validate_eq_error {k : Control} {q : Request} {e : ErrKind} :
    validate k q = .error e ↔ decodeOperands k.mode q = .error e ∨
      ∃ o, decodeOperands k.mode q = .ok o ∧ widthError k o.key.len o.iv.len o.data.len = some e := by
  unfold validate
  cases decodeOperands k.mode q with
  | error e' => simp
  | ok o => cases h : widthError k o.key.len o.iv.len o.data.len <;> simp [h]

theorem leaveValidate_of_some {k : Control} {s : State} {e : ErrKind}
    (h : widthError k s.work.keyN.toNat s.work.ivN.toNat s.work.ibufN.toNat = some e) : leaveValidate k s = raise e s := by
  rw [leaveValidate, h]

theorem leaveValidate_of_enc {k : Control} {s : State} (hd : k.dir = .enc)
    (h : widthError k s.work.keyN.toNat s.work.ivN.toNat s.work.ibufN.toNat = none) :
    leaveValidate k s = { s with seq := ⟨.pad, 0#32⟩ } := by
  rw [leaveValidate, h]
  simp only [hd]

theorem leaveValidate_of_dec {k : Control} {s : State} (hd : k.dir = .dec)
    (h : widthError k s.work.keyN.toNat s.work.ivN.toNat s.work.ibufN.toNat = none) :
    leaveValidate k s = enterMode k s := by
  rw [leaveValidate, h]
  simp only [hd]

section
variable {s : State} {k : Control} (hp : s.seq.phase = .validate) (hk : decodeControl s.work.ctrll = .ok k)
include hp hk

/-- In phase VALIDATE the sequencer decodes the operands and then checks their widths (R232 to R236). -/
theorem sequencerStep_validate :
    sequencerStep s = advanceOutcome k (settle s (decodeRequest k.mode s)) :=
  sequencerStep_of_ok (by rw [hp]; rfl) (decodeWord_of_control (select := selectDecode) rfl hk) hk

theorem sequencerStep_of_decoded {o : Operands} (h : decodeOperands k.mode s.request = .ok o) :
    sequencerStep s = .next (leaveValidate k { s with work := s.work.loadOperands o }) := by
  rw [sequencerStep_validate hp hk, decodeRequest_of_ok h, settle_ok, advanceOutcome_next,
    advance_validate (s := { s with work := s.work.loadOperands o }) hp]

/-- A failed check of phase VALIDATE takes the one step (R246, R284). -/
theorem sequencerStep_of_validate_error {e : ErrKind} (h : validate k s.request = .error e) :
    sequencerStep s = .next (raise e s) := by
  obtain hdec | ⟨o, hdec, hwidth⟩ := validate_eq_error.1 h
  · rw [sequencerStep_validate hp hk, decodeRequest_of_error hdec, settle_error, advanceOutcome_next, advance_raise]
  · obtain ⟨hkey, hiv, hdata⟩ := loadOperands_lengths hdec s.work
    have hlen : (s.work.loadOperands o).ibufN.toNat = o.data.len := congrArg BitValue.len hdata
    rw [sequencerStep_of_decoded hp hk hdec, leaveValidate_of_some (by rw [hkey, hiv, hlen]; exact hwidth)]
    rfl

end

/-- Settles O42: a reserved word is no control word, and a failed check raises within phase VALIDATE. -/
theorem failedCheckTakesOneStep : Obligations.FailedCheckTakesOneStep := by
  refine fun s hin hseq => ⟨fun hreserved => ?_, fun k e hk hval => ?_⟩
  · cases hk : decodeControl s.work.ctrll with
    | ok k => exact absurd hk (hreserved k)
    | error e => rw [step_of_nil hin, sequencerStep_of_error (r := .bbDecoder) (by rw [hseq]; rfl) hk]
  · rw [step_of_nil hin, sequencerStep_of_validate_error (by rw [hseq]) hk hval]

/-! #### Runs of busy steps -/

/-- `n` steps of the machine lead from `s` to `t`, and every state on the way but `t` is BUSY. -/
def State.Reaches (n : Nat) (s t : State) : Prop :=
  core.run n s = .next t ∧ ∀ j, j < n → ∃ u : State, core.run j s = .next u ∧ u.seq.phase.busy = true

theorem State.Reaches.refl (s : State) : s.Reaches 0 s := ⟨rfl, nofun⟩

theorem State.Reaches.single {s t : State} (hb : s.seq.phase.busy = true) (hstep : step s = .next t) : s.Reaches 1 t :=
  ⟨core_run_one core hstep, fun j hj => ⟨s, by rw [Nat.lt_one_iff.1 hj]; rfl, hb⟩⟩

theorem State.Reaches.trans {a b : Nat} {s u t : State} (hsu : s.Reaches a u) (hut : u.Reaches b t) :
    s.Reaches (a + b) t := by
  obtain ⟨hrun, hbusy⟩ := hsu
  obtain ⟨hrun', hbusy'⟩ := hut
  refine ⟨(core_run_add core b hrun).trans hrun', fun j hj => ?_⟩
  by_cases hja : j < a
  · exact hbusy j hja
  · obtain ⟨j, rfl⟩ := Nat.exists_eq_add_of_le (Nat.not_lt.1 hja)
    obtain ⟨v, hv, hvb⟩ := hbusy' j (Nat.lt_of_add_lt_add_left hj)
    exact ⟨v, (core_run_add core j hrun).trans hv, hvb⟩

/-! #### The operand and the result of the mode -/

/-- The BitValue that phase MODE works on: the padded data when encrypting, the data when decrypting (R237, R238). -/
def modeOperand (k : Control) (o : Operands) : BitValue :=
  match k.dir with
  | .enc => padValue k.padding k.cipher o.data
  | .dec => o.data

/-- The BitValue that phase MODE produces, as the one function of R201 gives it. -/
def modeResult (k : Control) (o : Operands) : BitValue :=
  modeValue suite k.mode k.dir k.cipher o.key o.iv (modeOperand k o)

theorem modeOperand_enc {k : Control} (hd : k.dir = .enc) (o : Operands) :
    modeOperand k o = padValue k.padding k.cipher o.data := by
  rw [modeOperand, hd]

theorem modeOperand_dec {k : Control} (hd : k.dir = .dec) (o : Operands) : modeOperand k o = o.data := by
  rw [modeOperand, hd]

theorem requestBlocks_eq (k : Control) (o : Operands) :
    requestBlocks k o = (modeOperand k o).len / blockBits k.cipher := by
  unfold requestBlocks modeOperand
  cases k.dir <;> rfl

theorem modeResult_len (k : Control) (o : Operands) :
    (modeResult k o).len = requestBlocks k o * blockBits k.cipher := by
  rw [modeResult, modeValue_len, requestBlocks_eq]

theorem modeResult_valid (k : Control) (o : Operands) : (modeResult k o).Valid :=
  modeValue_valid ..

/-- A validated request to encrypt responds with the mode's result (R237). -/
theorem transform_of_enc {k : Control} (hd : k.dir = .enc) (o : Operands) : transform suite k o = .ok (modeResult k o) := by
  obtain ⟨c, m, p, d⟩ := k
  subst hd
  rfl

/-- A validated request to decrypt responds with the mode's result unpadded (R238). -/
theorem transform_of_dec_some {k : Control} (hd : k.dir = .dec) {o : Operands} {v : BitValue}
    (h : unpadValue k.padding k.cipher (modeResult k o) = some v) : transform suite k o = .ok v := by
  obtain ⟨c, m, p, d⟩ := k
  subst hd
  exact transform_dec_of_some h

theorem transform_of_dec_none {k : Control} (hd : k.dir = .dec) {o : Operands}
    (h : unpadValue k.padding k.cipher (modeResult k o) = none) : transform suite k o = .error .paddingError := by
  obtain ⟨c, m, p, d⟩ := k
  subst hd
  exact transform_dec_of_none h

/-! #### A request in progress -/

/-- The registers that phase VALIDATE loads and no later phase writes: `KEYV`, `KEYN`, `IVV` and `IVN` (R232). -/
def Work.keyAndIv (w : Work) : BitVec 128 × BitVec 32 × BitVec 128 × BitVec 32 :=
  (w.keyV, w.keyN, w.ivV, w.ivN)

/-- `s` is a state of the request that was about to be validated in `s₀`, under the control word `k` and with the operands `o`:
only the working registers and `SEQ` have changed, and key and IV are loaded. -/
structure State.Serves (k : Control) (o : Operands) (s s₀ : State) : Prop where
  passed : o.Passed k
  frame : ∀ (w : Work) (q : Seq), { s with work := w, seq := q } = { s₀ with work := w, seq := q }
  inbox : s.inbox = []
  ctrll : decodeControl s.work.ctrll = .ok k
  keyAndIv : s.work.keyAndIv = (Work.zero.loadOperands o).keyAndIv

section
variable {k : Control} {o : Operands} {s₀ s : State}

theorem State.Serves.withWork (h : s.Serves k o s₀) (q : Seq) {w : Work} (hc : w.ctrll = s.work.ctrll)
    (hki : w.keyAndIv = s.work.keyAndIv) : ({ s with work := w, seq := q } : State).Serves k o s₀ :=
  ⟨h.passed, h.frame, h.inbox, hc ▸ h.ctrll, hki.trans h.keyAndIv⟩

/-- The key and IV registers one by one. -/
theorem State.Serves.registers (h : s.Serves k o s₀) :
    s.work.keyV = BitVec.ofNat 128 o.key.val ∧ s.work.keyN = BitVec.ofNat 32 o.key.len ∧
      s.work.ivV = BitVec.ofNat 128 o.iv.val ∧ s.work.ivN = BitVec.ofNat 32 o.iv.len := by
  simpa [Work.keyAndIv] using h.keyAndIv

/-- The key register has the width of the variant's key (R233). -/
theorem State.Serves.key_width (h : s.Serves k o s₀) : s.work.keyN.toNat = keyBits k.cipher := by
  obtain ⟨-, hkeyN, -, -⟩ := h.registers
  rw [hkeyN, h.passed.key_len]
  cases k.cipher <;> rfl

/-- The key at the cipher unit's port is the request's (R170). -/
theorem State.Serves.key_eq (h : s.Serves k o s₀) :
    s.work.key k.cipher = BitVec.ofNat (keyBits k.cipher) o.key.val := by
  obtain ⟨hkeyV, -, -, -⟩ := h.registers
  rw [Work.key, hkeyV]
  exact BitVec.setWidth_ofNat_of_le (by cases k.cipher <;> decide) _

/-- Outside ECB an IV of a width the mode accepts is at most a block, so its registers hold it (R203, R206). -/
theorem le_of_ivWidthOk {m : Mode} {c : Cipher} {n : Nat} (hm : m ≠ .ecb) (h : ivWidthOk m c n = true) : n ≤ 64 := by
  refine le_trans ?_ (blockBits_le c)
  cases m with
  | ecb => exact absurd rfl hm
  | cbc => exact (beq_iff_eq.1 h).le
  | ctr =>
    simp only [ivWidthOk, Bool.and_eq_true, decide_eq_true_eq] at h
    exact h.2

theorem State.Serves.ivN_toNat (h : s.Serves k o s₀) (hm : k.mode ≠ .ecb) : s.work.ivN.toNat = o.iv.len := by
  obtain ⟨-, -, -, hivN⟩ := h.registers
  have hle := le_of_ivWidthOk hm h.passed.iv_len
  rw [hivN, BitVec.toNat_ofNat, Nat.mod_eq_of_lt (by omega)]

/-- A step in a working phase runs what the phase's unit selects under the request's control word (R246). -/
theorem State.Serves.step_eq (h : s.Serves k o s₀) {r : Reader} {select : Control → Instr}
    (hr : phaseReader s.seq.phase = some r)
    (hsel : decodeWord r s.work.ctrll = (decodeControl s.work.ctrll).map select) :
    step s = advanceOutcome k (exec (select k) s) :=
  (step_of_nil h.inbox).trans (sequencerStep_of_ok hr (decodeWord_of_control hsel h.ctrll) h.ctrll)

/-! #### The blocks of phase MODE -/

/-- What the feedback registers hold before block `i`: in CBC the chaining value of `chainBefore`, in CTR the counter `c_i` of the
IV's width (R203, R204, R206). -/
def Work.Feeds (k : Control) (o : Operands) (i : Nat) (w : Work) : Prop :=
  match k.mode, k.dir with
  | .ecb, _ => True
  | .cbc, .enc => w.chainBlock k.cipher = chainBefore (blockBits k.cipher) o.iv (modeResult k o) i
  | .cbc, .dec => w.chainBlock k.cipher = chainBefore (blockBits k.cipher) o.iv (modeOperand k o) i
  | .ctr, _ => w.ctrw.toNat = o.iv.len ∧ w.counter = (o.iv.val + i) % 2 ^ o.iv.len

/-- `s` stands before block `i` of phase MODE: the blocks before it are stored, and the feedback registers are set for it. -/
structure State.AtBlock (k : Control) (o : Operands) (s s₀ : State) (i : Nat) : Prop where
  serves : s.Serves k o s₀
  lt : i < requestBlocks k o
  seq : s.seq = ⟨.mode, BitVec.ofNat 32 i⟩
  input : s.work.input = modeOperand k o
  nblk : s.work.nblk.toNat = requestBlocks k o
  obuf : s.work.obuf = (modeResult k o).val % 2 ^ (i * blockBits k.cipher)
  feeds : s.work.Feeds k o i

/-- `s` stands after the last block of phase MODE: `OBUF` holds the mode's result (R200). -/
structure State.PastMode (k : Control) (o : Operands) (s s₀ : State) : Prop where
  serves : s.Serves k o s₀
  seq : s.seq = ⟨afterMode k.dir, 0#32⟩
  output : s.work.output = modeResult k o

/-- Storing block `i` of an integer beside the blocks before it. -/
theorem putBlock_mod (B y i : Nat) :
    putBlock B (y % 2 ^ (i * B)) i (blockAt B y i) = y % 2 ^ ((i + 1) * B) := by
  have hsucc : (i + 1) * B = i * B + B := Nat.succ_mul i B
  refine Nat.eq_of_testBit_eq fun j => ?_
  rw [testBit_putBlock, getLsbD_blockAt, Nat.testBit_mod_two_pow, Nat.testBit_mod_two_pow]
  by_cases hlo : i * B ≤ j
  · by_cases hhi : j < (i + 1) * B
    · have hB : j - i * B < B := by omega
      simp [hlo, hhi, hB]
    · simp [hhi, Nat.not_lt.2 hlo]
  · have hlt : j < i * B := Nat.not_le.1 hlo
    have hhi : j < (i + 1) * B := by omega
    simp [hlo, hlt, hhi]

/-- The mode's result in `OBUF` after the last block (R200). -/
theorem modeResult_mod (k : Control) (o : Operands) :
    (modeResult k o).val % 2 ^ (requestBlocks k o * blockBits k.cipher) = (modeResult k o).val := by
  have hvalid := modeResult_valid k o
  rw [BitValue.Valid, modeResult_len] at hvalid
  exact Nat.mod_eq_of_lt hvalid

/-- `s` with the registers of the mode and cipher units, the loop's own apart, taken from `w` (R33). -/
def State.withModeRegs (w : Work) (s : State) : State :=
  { s with work := { s.work with
      chain := w.chain, ctrv := w.ctrv, l := w.l, r := w.r, subkey := w.subkey, blockPort := w.blockPort } }

/-- Block `i` of the mode's operand is the block the sequencer is at (R200). -/
theorem State.AtBlock.inputBlock_eq {i : Nat} (h : s.AtBlock k o s₀ i) :
    s.seq.blk.toNat = i ∧ s.inputBlock k.cipher = blockAt (blockBits k.cipher) (modeOperand k o).val i := by
  have hlt : i < 2 ^ 32 := h.lt.trans (h.nblk ▸ s.work.nblk.isLt)
  have hblk : s.seq.blk.toNat = i := by rw [h.seq, BitVec.toNat_ofNat, Nat.mod_eq_of_lt hlt]
  exact ⟨hblk, by rw [State.inputBlock, hblk, ← h.input]; rfl⟩

/-- A counter that its 64-bit register holds counts modulo `2^w` (R206). -/
theorem counter_stepCounter {t : State} {w n : Nat} (hw : w ≤ 64) (hctrw : t.work.ctrw.toNat = w)
    (hcounter : t.work.counter = n) : t.stepCounter.work.counter = (n + 1) % 2 ^ w := by
  have hlt : (n + 1) % 2 ^ w < 2 ^ 64 :=
    (Nat.mod_lt _ (Nat.two_pow_pos w)).trans_le (Nat.pow_le_pow_right (by decide) hw)
  rw [stepCounter_work, Work.counter, hcounter, hctrw, BitVec.toNat_ofNat, Nat.mod_eq_of_lt hlt, Nat.mod_mod]

/-- The block that a mode operation stores is that of the mode's result; besides the block it writes the registers of the mode and
cipher units only, and it leaves the feedback registers set for the next block (R202 to R209). -/
theorem State.AtBlock.modeStep {i : Nat} (h : s.AtBlock k o s₀ i) :
    ∃ u, Machine.modeStep k.mode k.dir k.cipher s = .ok u ∧
      u = (s.storeBlock k.cipher (blockAt (blockBits k.cipher) (modeResult k o).val i)).withModeRegs u.work ∧
      u.work.Feeds k o (i + 1) := by
  have hkey := h.serves.key_eq
  have hwidth := h.serves.key_width
  have hivlen := h.serves.passed.iv_len
  have hivN := h.serves.ivN_toNat
  have hfeeds := h.feeds
  obtain ⟨-, hinput⟩ := h.inputBlock_eq
  have hi : i < (modeOperand k o).len / blockBits k.cipher := requestBlocks_eq k o ▸ h.lt
  obtain ⟨c, m, p, d⟩ := k
  cases m with
  | ecb =>
    obtain ⟨w, hstep⟩ := modeStep_ecb_of_key hwidth d
    rw [hkey, hinput] at hstep
    rw [modeResult, blockAt_ecb hi]
    exact ⟨_, hstep, rfl, trivial⟩
  | cbc =>
    have hblock : s.work.ivN.toNat = blockBits c := (hivN nofun).trans (beq_iff_eq.1 hivlen)
    cases d with
    | enc =>
      have hresult := blockAt_cbc_enc (S := suite) (key := o.key) (iv := o.iv) hi
      obtain ⟨w, hstep⟩ := modeStep_cbc_enc_of_key hwidth hblock
        (y := blockAt (blockBits c) (modeResult ⟨c, .cbc, p, .enc⟩ o).val i) (by rw [hkey, hinput, hfeeds]; exact hresult)
      exact ⟨_, hstep, rfl, setWidth_block _⟩
    | dec =>
      have hresult := blockAt_cbc_dec (S := suite) (key := o.key) (iv := o.iv) hi
      obtain ⟨w, hstep⟩ := modeStep_cbc_dec_of_key hwidth hblock
      rw [hkey, hfeeds, hinput] at hstep
      rw [modeResult, hresult]
      exact ⟨_, hstep, rfl, setWidth_block _⟩
  | ctr =>
    obtain ⟨hctrw, hcounter⟩ := hfeeds
    obtain ⟨w, hstep⟩ := modeStep_ctr_of_key hwidth (by rw [hivN nofun]; exact hivlen) d
    rw [hkey, hinput, Work.counterBlock, hcounter] at hstep
    rw [modeResult, blockAt_ctr hi]
    refine ⟨_, hstep, rfl, hctrw, ?_⟩
    refine (counter_stepCounter (n := (o.iv.val + i) % 2 ^ o.iv.len) (le_of_ivWidthOk (m := .ctr) nofun hivlen)
      hctrw hcounter).trans ?_
    rw [Nat.mod_add_mod, Nat.add_assoc]

/-- `OBUF` with every block of the mode's result stored is the mode's result (R200). -/
theorem output_eq_modeResult {w : Work} (hin : w.input = modeOperand k o)
    (hlen : w.obufN = BitVec.ofNat 32 (requestBlocks k o * blockBits k.cipher))
    (hval : w.obuf = (modeResult k o).val % 2 ^ (requestBlocks k o * blockBits k.cipher)) : w.output = modeResult k o := by
  have hoperand : w.ibufN.toNat = (modeOperand k o).len := congrArg BitValue.len hin
  have hlt : requestBlocks k o * blockBits k.cipher < 2 ^ 32 := by
    rw [requestBlocks_eq, ← hoperand]
    exact (Nat.div_mul_le_self _ _).trans_lt w.ibufN.isLt
  rw [Work.output, hlen, hval, modeResult_mod, BitVec.toNat_ofNat, Nat.mod_eq_of_lt hlt, ← modeResult_len]

/-- From block `i` the sequencer goes on to the next block, or out of the phase after the last (R246). -/
theorem State.AtBlock.leaveBlock_eq {i : Nat} {u : State} (h : s.AtBlock k o s₀ i) (hseq : u.seq = s.seq)
    (hnblk : u.work.nblk = s.work.nblk) :
    leaveBlock k u = { u with
      seq := if i + 1 < requestBlocks k o then ⟨.mode, BitVec.ofNat 32 (i + 1)⟩ else ⟨afterMode k.dir, 0#32⟩ } := by
  obtain ⟨hblk, -⟩ := h.inputBlock_eq
  have hnext : s.seq.blk + 1#32 = BitVec.ofNat 32 (i + 1) := by rw [h.seq, BitVec.ofNat_add]
  rw [leaveBlock, hseq, hnblk, hblk, h.nblk, hnext]
  split <;> rfl

/-- One step of phase MODE (R246). -/
theorem State.AtBlock.step {i : Nat} (h : s.AtBlock k o s₀ i) :
    ∃ u, Machine.step s = .next u ∧ (u.AtBlock k o s₀ (i + 1) ∨ i + 1 = requestBlocks k o ∧ u.PastMode k o s₀) := by
  have hphase : s.seq.phase = .mode := by rw [h.seq]
  obtain ⟨hblk, -⟩ := h.inputBlock_eq
  obtain ⟨u, hmode, hframe, hfeeds⟩ := h.modeStep
  generalize u.work = w at hframe
  have hseq : u.seq = s.seq := by rw [hframe]; rfl
  have hnblk : u.work.nblk = s.work.nblk := by rw [hframe]; rfl
  have hstep : Machine.step s = .next (leaveBlock k u) := by
    rw [h.serves.step_eq (r := .modes) (select := selectMode) (by rw [hphase]; rfl) rfl, exec_selectMode, hmode, settle_ok,
      advanceOutcome_next, advance_mode (by rw [hseq]; exact hphase)]
  have hobuf := putBlock_mod (blockBits k.cipher) (modeResult k o).val i
  rw [← h.obuf] at hobuf
  rw [h.leaveBlock_eq hseq hnblk] at hstep
  refine ⟨_, hstep, ?_⟩
  subst hframe
  by_cases hlt : i + 1 < requestBlocks k o
  · rw [if_pos hlt]
    exact .inl
      { serves := h.serves.withWork _ rfl rfl
        lt := hlt
        seq := rfl
        input := h.input
        nblk := h.nblk
        obuf := hblk.symm ▸ hobuf
        feeds := hfeeds }
  · have hlast : i + 1 = requestBlocks k o := Nat.le_antisymm h.lt (Nat.not_lt.1 hlt)
    rw [if_neg hlt]
    refine .inr ⟨hlast, h.serves.withWork _ rfl rfl, rfl, output_eq_modeResult h.input ?_ ?_⟩
    · rw [← h.nblk]
      rfl
    · rw [← hlast, ← hobuf, ← hblk]
      rfl

/-- The steps of phase MODE from block `i` on (R246). -/
theorem State.AtBlock.reaches {i : Nat} (h : s.AtBlock k o s₀ i) :
    ∃ t, s.Reaches (requestBlocks k o - i) t ∧ t.PastMode k o s₀ := by
  induction hd : requestBlocks k o - i generalizing i s with
  | zero => exact absurd h.lt (Nat.not_lt.2 (Nat.sub_eq_zero_iff_le.1 hd))
  | succ d ih =>
    have hbusy : s.seq.phase.busy = true := by rw [h.seq]; rfl
    obtain ⟨u, hstep, hu | ⟨hlast, hu⟩⟩ := h.step
    · obtain ⟨t, hreach, ht⟩ := ih hu (by omega)
      exact ⟨t, Nat.add_comm 1 d ▸ (State.Reaches.single hbusy hstep).trans hreach, ht⟩
    · have hd0 : d = 0 := by omega
      subst hd0
      exact ⟨u, State.Reaches.single hbusy hstep, hu⟩

/-! #### The ways in and out of phase MODE -/

/-- With the operand in `IBUF`, the entry of phase MODE puts `NBLK` in its register (R33, R246). -/
theorem nblk_eq {w : Work} (h : w.input = modeOperand k o) :
    (BitVec.ofNat 32 (w.ibufN.toNat / blockBits k.cipher)).toNat = requestBlocks k o := by
  have hlen : w.ibufN.toNat = (modeOperand k o).len := congrArg BitValue.len h
  rw [BitVec.toNat_ofNat, Nat.mod_eq_of_lt ((Nat.div_le_self _ _).trans_lt w.ibufN.isLt), hlen, requestBlocks_eq]

theorem initMode_keyAndIv (k : Control) (w : Work) : (w.initMode k).keyAndIv = w.keyAndIv := by
  rw [initMode_frame]
  rfl

/-- The IV in `CHAIN` at the entry of phase MODE (R203, R204). -/
theorem chainBlock_of_iv (c : Cipher) (x : Nat) :
    ((BitVec.ofNat 128 x).setWidth 64).setWidth (blockBits c) = BitVec.ofNat (blockBits c) x := by
  rw [BitVec.setWidth_ofNat_of_le (by decide), BitVec.setWidth_ofNat_of_le (blockBits_le c)]

/-- The IV in `CTRV` at the entry of phase MODE: a width of at most 64 bits loses nothing in the 64-bit register (R206). -/
theorem counter_of_iv {n : Nat} (hn : n ≤ 64) (x : Nat) :
    ((BitVec.ofNat 128 x).setWidth 64).toNat % 2 ^ n = x % 2 ^ n := by
  rw [BitVec.setWidth_ofNat_of_le (by decide), BitVec.toNat_ofNat, Nat.mod_mod_of_dvd _ (pow_dvd_pow 2 hn)]

/-- The feedback registers are set for block 0 at the entry of phase MODE (R203, R204, R206). -/
theorem State.Serves.initMode_feeds (h : s.Serves k o s₀) {w : Work} (hV : w.ivV = s.work.ivV)
    (hN : w.ivN = s.work.ivN) : (w.initMode k).Feeds k o 0 := by
  obtain ⟨-, -, hivV, -⟩ := h.registers
  have hivN := h.ivN_toNat
  have hivlen := h.passed.iv_len
  rw [← hV] at hivV
  rw [← hN] at hivN
  obtain ⟨c, m, p, d⟩ := k
  cases m with
  | ecb => trivial
  | cbc =>
    have hchain : (w.ivV.setWidth 64).setWidth (blockBits c) = BitVec.ofNat (blockBits c) o.iv.val :=
      hivV.symm ▸ chainBlock_of_iv c o.iv.val
    cases d with
    | enc => exact hchain
    | dec => exact hchain
  | ctr =>
    have hle : o.iv.len ≤ 64 := le_of_ivWidthOk (m := .ctr) nofun hivlen
    have hctrw : (w.ivN.setWidth 7).toNat = o.iv.len := by
      rw [BitVec.toNat_setWidth, hivN nofun, Nat.mod_eq_of_lt (by omega)]
    refine ⟨hctrw, ?_⟩
    change (w.ivV.setWidth 64).toNat % 2 ^ (w.ivN.setWidth 7).toNat = _
    rw [hctrw, hivV, counter_of_iv hle, Nat.add_zero]

/-- Without a block phase MODE is skipped, `OBUF` empty (R41). -/
theorem enterMode_of_empty (hin : s.work.input = modeOperand k o) (h0 : requestBlocks k o = 0) :
    enterMode k s = { s with
      work := { s.work with nblk := 0#32, obuf := 0, obufN := 0#32 }, seq := ⟨afterMode k.dir, 0#32⟩ } := by
  have hn : BitVec.ofNat 32 (s.work.ibufN.toNat / blockBits k.cipher) = 0#32 :=
    BitVec.eq_of_toNat_eq ((nblk_eq hin).trans h0)
  simp only [enterMode, hn, if_pos]

/-- With a block phase MODE starts at block 0 (R246). -/
theorem enterMode_of_pos {n : BitVec 32} (hn : BitVec.ofNat 32 (s.work.ibufN.toNat / blockBits k.cipher) = n)
    (hpos : 0 < n.toNat) :
    enterMode k s = { s with
      work := { ({ s.work with nblk := n, obuf := 0, obufN := 0#32 } : Work).initMode k with
        subkey := scheduleKey k.cipher (s.work.key k.cipher) }
      seq := ⟨.mode, 0#32⟩ } := by
  have hne : n ≠ 0#32 := fun h => by rw [h] at hpos; exact absurd hpos (by decide)
  simp only [enterMode, hn, if_neg hne]

/-- The entry of phase MODE leads through its blocks, or past the phase where there is none (R41, R246). -/
theorem State.Serves.enterMode_reaches (h : s.Serves k o s₀) (hin : s.work.input = modeOperand k o) :
    ∃ t, (enterMode k s).Reaches (requestBlocks k o) t ∧ t.PastMode k o s₀ := by
  by_cases h0 : requestBlocks k o = 0
  · rw [enterMode_of_empty hin h0, h0]
    refine ⟨_, .refl _, h.withWork _ rfl rfl, rfl, output_eq_modeResult hin ?_ ?_⟩
    · rw [h0, Nat.zero_mul]
    · rw [h0, Nat.zero_mul, pow_zero, Nat.mod_one]
  · have hpos := Nat.pos_of_ne_zero h0
    rw [enterMode_of_pos rfl (nblk_eq hin ▸ hpos)]
    refine State.AtBlock.reaches (i := 0)
      { serves := h.withWork _ (initMode_ctrll k _) (initMode_keyAndIv k _)
        lt := hpos
        seq := rfl
        input := ?_
        nblk := ?_
        obuf := ?_
        feeds := h.initMode_feeds rfl rfl }
    · rw [← hin]
      simp [Work.input]
    · simpa using nblk_eq hin
    · simp [Nat.mod_one]

/-- Phase PAD (R237). -/
theorem State.Serves.pad_step (h : s.Serves k o s₀) (hp : s.seq.phase = .pad) (hd : k.dir = .enc)
    (hin : s.work.input = o.data) (hlen : (modeOperand k o).len < 2 ^ 32) :
    ∃ u, step s = .next (enterMode k u) ∧ u.Serves k o s₀ ∧ u.work.input = modeOperand k o := by
  have hdata : s.work.ibufN.toNat = o.data.len := congrArg BitValue.len hin
  have h8 : byteGranular k.padding = true → s.work.ibufN.toNat % 8 = 0 := hdata ▸ h.passed.data_bytes hd
  refine ⟨padInput k.padding k.cipher s, ?_, h.withWork s.seq rfl rfl, ?_⟩
  · rw [h.step_eq (r := .padding) (select := selectPadding) (by rw [hp]; rfl) rfl, exec_selectPadding_enc hd h8,
      advanceOutcome_next, advance_pad (s := padInput k.padding k.cipher s) hp]
  · rw [modeOperand_enc hd] at hlen ⊢
    rw [padInput_work, hin, setInput_input _ _ hlen]

/-- Completion and error entry keep of a request in progress what it had when it was about to be validated (R240, R284). -/
theorem State.Serves.complete_publish_eq (h : s.Serves k o s₀) (v : BitValue) :
    complete (publish v s) = complete (publish v s₀) := by
  have hframe := congrArg (fun t => complete (publish v t)) (h.frame Work.zero ⟨.done, 0#32⟩)
  exact hframe

theorem State.Serves.raise_eq (h : s.Serves k o s₀) (e : ErrKind) : raise e s = raise e s₀ := by
  have hframe := congrArg (raise e) (h.frame Work.zero ⟨.error, 0#32⟩)
  exact hframe

/-- Phase ENCODE: the response is published and the request is DONE (R240). -/
theorem State.Serves.encode_step (h : s.Serves k o s₀) (hp : s.seq.phase = .encode) :
    step s = .next (complete (publish s.work.output s₀)) := by
  rw [h.step_eq (r := .bbEncoder) (select := selectEncode) (by rw [hp]; rfl) rfl, exec_selectEncode, advanceOutcome_next,
    advance_encode (s := publish s.work.output s) hp, h.complete_publish_eq]

/-- Phase UNPAD, where the result unpads (R238). -/
theorem State.PastMode.unpad_step (h : s.PastMode k o s₀) (hd : k.dir = .dec) (hlen : (modeResult k o).len < 2 ^ 32)
    {v : BitValue} (hv : unpadValue k.padding k.cipher (modeResult k o) = some v) :
    ∃ u, step s = .next u ∧ u.Serves k o s₀ ∧ u.seq.phase = .encode ∧ u.work.output = v := by
  have hp : s.seq.phase = .unpad := by rw [h.seq, hd]; rfl
  obtain ⟨-, hle⟩ := unpadValue_spec (modeValue_whole ..) hv
  refine ⟨{ s with work := s.work.setOutput v, seq := ⟨.encode, 0#32⟩ }, ?_, h.serves.withWork _ rfl rfl, rfl,
    setOutput_output _ _ (hle.trans_lt hlen)⟩
  rw [h.serves.step_eq (r := .padding) (select := selectPadding) (by rw [hp]; rfl) rfl, exec_selectPadding_dec hd,
    unpadOutput_eq_ok.2 ⟨v, h.output.symm ▸ hv, rfl⟩, settle_ok, advanceOutcome_next,
    advance_unpad (s := { s with work := s.work.setOutput v }) hp]

/-- Phase UNPAD, where the result does not unpad (R238, R284). -/
theorem State.PastMode.unpad_step_error (h : s.PastMode k o s₀) (hd : k.dir = .dec)
    (hv : unpadValue k.padding k.cipher (modeResult k o) = none) : step s = .next (raise .paddingError s₀) := by
  have hp : s.seq.phase = .unpad := by rw [h.seq, hd]; rfl
  rw [h.serves.step_eq (r := .padding) (select := selectPadding) (by rw [hp]; rfl) rfl, exec_selectPadding_dec hd,
    unpadOutput_eq_error.2 ⟨h.output.symm ▸ hv, rfl⟩, settle_error, advanceOutcome_next, advance_raise,
    h.serves.raise_eq]

end

/-! #### The whole request -/

section
variable {s : State} {k : Control} {o : Operands}

/-- The data of a validated request within the capacity of its queue, and so the mode's operand, fits `IBUFN` (R12 f). -/
theorem modeOperand_len_lt (hq : s.QueuesFit) (h : validate k s.request = .ok o) : (modeOperand k o).len < 2 ^ 32 := by
  have hpassed := passed_of_validate h
  obtain ⟨-, hwords⟩ := data_len_of_validate h
  have hdata : o.data.len ≤ 32 * Config.dataCapWords := le_of_wordCount_le (hwords.trans hq.data)
  refine lt_of_le_of_lt ?_ maxBits_lt
  cases hd : k.dir with
  | enc =>
    obtain ⟨-, -, -, hle⟩ := padValue_spec k.padding k.cipher hpassed.data_valid (hpassed.data_bytes hd)
    exact modeOperand_enc hd o ▸ padded_le_maxBits hdata hle
  | dec => exact modeOperand_dec hd o ▸ dataBits_le_maxBits hdata

theorem modeResult_len_le (k : Control) (o : Operands) : (modeResult k o).len ≤ (modeOperand k o).len := by
  rw [modeResult_len, requestBlocks_eq]
  exact Nat.div_mul_le_self _ _

/-- Phase VALIDATE on a request that passes it (R232 to R236). -/
theorem validate_step (hin : s.inbox = []) (hp : s.seq.phase = .validate) (hk : decodeControl s.work.ctrll = .ok k)
    (hval : validate k s.request = .ok o) :
    ∃ u, step s = .next (leaveValidate k u) ∧ u.Serves k o s ∧ u.work.input = o.data ∧
      widthError k u.work.keyN.toNat u.work.ivN.toNat u.work.ibufN.toNat = none := by
  obtain ⟨hdec, hwidth⟩ := validate_eq_ok.1 hval
  obtain ⟨hkey, hiv, hdata⟩ := loadOperands_lengths hdec s.work
  have hlen : (s.work.loadOperands o).ibufN.toNat = o.data.len := congrArg BitValue.len hdata
  refine ⟨{ s with work := s.work.loadOperands o }, (step_of_nil hin).trans (sequencerStep_of_decoded hp hk hdec),
    ⟨passed_of_validate hval, fun _ _ => rfl, hin, hk, rfl⟩, hdata, ?_⟩
  rw [hkey, hiv, hlen]
  exact hwidth

/-- Encrypting, VALIDATE and PAD are the steps before phase MODE (R246). -/
theorem reaches_pastMode_of_enc (hin : s.inbox = []) (hp : s.seq.phase = .validate) (hq : s.QueuesFit)
    (hk : decodeControl s.work.ctrll = .ok k) (hval : validate k s.request = .ok o) (hd : k.dir = .enc) :
    ∃ t, s.Reaches (2 + requestBlocks k o) t ∧ t.PastMode k o s := by
  obtain ⟨u, hstep, hu, hdata, hwidth⟩ := validate_step hin hp hk hval
  rw [leaveValidate_of_enc hd hwidth] at hstep
  obtain ⟨v, hpad, hv, hoperand⟩ := (hu.withWork (w := u.work) ⟨.pad, 0#32⟩ rfl rfl).pad_step rfl hd hdata
    (modeOperand_len_lt hq hval)
  obtain ⟨t, hmode, ht⟩ := hv.enterMode_reaches hoperand
  have hvalidate := State.Reaches.single (by rw [hp]; rfl) hstep
  exact ⟨t, (hvalidate.trans (.single rfl hpad)).trans hmode, ht⟩

/-- Decrypting, VALIDATE is the one step before phase MODE (R246). -/
theorem reaches_pastMode_of_dec (hin : s.inbox = []) (hp : s.seq.phase = .validate)
    (hk : decodeControl s.work.ctrll = .ok k) (hval : validate k s.request = .ok o) (hd : k.dir = .dec) :
    ∃ t, s.Reaches (1 + requestBlocks k o) t ∧ t.PastMode k o s := by
  obtain ⟨u, hstep, hu, hdata, hwidth⟩ := validate_step hin hp hk hval
  rw [leaveValidate_of_dec hd hwidth] at hstep
  obtain ⟨t, hmode, ht⟩ := hu.enterMode_reaches (hdata.trans (modeOperand_dec hd o).symm)
  exact ⟨t, (State.Reaches.single (by rw [hp]; rfl) hstep).trans hmode, ht⟩

/-- A validated request that completes does so in `3 + NBLK` busy steps: ENCODE is the last, after PAD and MODE or after MODE and
UNPAD (R246). -/
theorem reaches_complete (hin : s.inbox = []) (hp : s.seq.phase = .validate) (hq : s.QueuesFit)
    (hk : decodeControl s.work.ctrll = .ok k) (hval : validate k s.request = .ok o) {out : BitValue}
    (hout : transform suite k o = .ok out) : s.Reaches (3 + requestBlocks k o) (complete (publish out s)) := by
  cases hd : k.dir with
  | enc =>
    rw [transform_of_enc hd, Except.ok.injEq] at hout
    obtain ⟨t, hreach, ht⟩ := reaches_pastMode_of_enc hin hp hq hk hval hd
    have hphase : t.seq.phase = .encode := by rw [ht.seq, hd]; rfl
    have hstep := ht.serves.encode_step hphase
    rw [ht.output, hout] at hstep
    have hall := hreach.trans (.single (by rw [hphase]; rfl) hstep)
    exact (by omega : 2 + requestBlocks k o + 1 = 3 + requestBlocks k o) ▸ hall
  | dec =>
    obtain ⟨t, hreach, ht⟩ := reaches_pastMode_of_dec hin hp hk hval hd
    have hphase : t.seq.phase = .unpad := by rw [ht.seq, hd]; rfl
    cases hv : unpadValue k.padding k.cipher (modeResult k o) with
    | none => rw [transform_of_dec_none hd hv] at hout; cases hout
    | some v =>
      rw [transform_of_dec_some hd hv, Except.ok.injEq] at hout
      obtain ⟨u, hunpad, hu, huphase, huout⟩ :=
        ht.unpad_step hd ((modeResult_len_le k o).trans_lt (modeOperand_len_lt hq hval)) hv
      have hstep := hu.encode_step huphase
      rw [huout, hout] at hstep
      have hall := (hreach.trans (.single (by rw [hphase]; rfl) hunpad)).trans (.single (by rw [huphase]; rfl) hstep)
      exact (by omega : 1 + requestBlocks k o + 1 + 1 = 3 + requestBlocks k o) ▸ hall

/-- A validated request that fails does so when it unpads, in `2 + NBLK` busy steps (R246, R284). -/
theorem reaches_raise (hin : s.inbox = []) (hp : s.seq.phase = .validate)
    (hk : decodeControl s.work.ctrll = .ok k) (hval : validate k s.request = .ok o) {e : ErrKind}
    (herror : transform suite k o = .error e) : s.Reaches (2 + requestBlocks k o) (raise e s) := by
  cases hd : k.dir with
  | enc => rw [transform_of_enc hd] at herror; cases herror
  | dec =>
    obtain ⟨t, hreach, ht⟩ := reaches_pastMode_of_dec hin hp hk hval hd
    have hphase : t.seq.phase = .unpad := by rw [ht.seq, hd]; rfl
    cases hv : unpadValue k.padding k.cipher (modeResult k o) with
    | some v => rw [transform_of_dec_some hd hv] at herror; cases herror
    | none =>
      rw [transform_of_dec_none hd hv, Except.error.injEq] at herror
      have hall := hreach.trans (.single (by rw [hphase]; rfl) (ht.unpad_step_error hd hv))
      rw [herror] at hall
      exact (by omega : 1 + requestBlocks k o + 1 = 2 + requestBlocks k o) ▸ hall

/-- In ERROR with no event to come nothing changes (R299). -/
theorem step_raise (hin : s.inbox = []) (e : ErrKind) : step (raise e s) = .next (raise e s) :=
  (step_of_nil (s := raise e s) hin).trans (sequencerStep_of_none rfl)

end

/-- Settles O41: the steps reach the state that the RUN operation gives, whether the request completes or fails to unpad. -/
theorem stepsRefineRequest : Obligations.StepsRefineRequest := by
  intro s k o hin hseq hq hk hval
  have hp : s.seq.phase = .validate := by rw [hseq]
  rw [exec_selectRun, runLegal_of_validate suite hval]
  refine ⟨_, rfl, ?_⟩
  cases htrans : transform suite k o with
  | ok out =>
    obtain ⟨hrun, hbusy⟩ := reaches_complete hin hp hq hk hval htrans
    exact ⟨hrun, fun j hj => hbusy j (by omega)⟩
  | error e =>
    obtain ⟨hrun, hbusy⟩ := reaches_raise hin hp hk hval htrans
    refine ⟨?_, fun j hj => ?_⟩
    · rw [show 3 + requestBlocks k o = 2 + requestBlocks k o + 1 by omega, core_run_add core 1 hrun]
      exact core_run_one core (step_raise hin e)
    · obtain hlt | ⟨-, hdone⟩ := hj
      · exact hbusy j hlt
      · cases hdone

end Sys2Proof.Machine
end

section
/-! PROOF of O54, O44, O45 and O57. The two commands (spec/45_host_port.md R266, R267), what a step does to an ended request
(R286, R299), and what no register shows (R261). -/
namespace Sys2Proof.Machine

/-! #### START and CLEAR -/

theorem exec_start_of_idle {s : State} (h : s.seq.phase = .idle) : exec .start s = .next (acceptStart s) :=
  congrArg Host.Outcome.next (if_pos h)

theorem exec_start_of_not_idle {s : State} (h : s.seq.phase ≠ .idle) : exec .start s = .next s :=
  congrArg Host.Outcome.next (if_neg h)

theorem exec_clear_of_busy {s : State} (h : s.seq.phase.busy = true) : exec .clear s = .next s :=
  congrArg Host.Outcome.next (if_pos h)

theorem exec_clear_of_not_busy {s : State} (h : s.seq.phase.busy = false) : exec .clear s = .next (clearAll s) :=
  congrArg Host.Outcome.next (if_neg (Bool.eq_false_iff.1 h))

/-- `STATUS` reads BUSY exactly in the working phases (R23). -/
theorem portRead_status_eq_one_iff (s : State) : portRead s 0x008#32 = 1#32 ↔ s.seq.phase.busy = true := by
  rw [portRead_status]
  cases s.seq.phase <;> decide

/-- Settles O44: START in IDLE is `acceptStart`, whose phase is a working one. -/
theorem startAcceptedInIdle : Obligations.StartAcceptedInIdle := fun s =>
  ⟨fun hidle => ⟨acceptStart s, exec_start_of_idle hidle, rfl, (portRead_status_eq_one_iff _).2 rfl⟩,
    exec_start_of_not_idle⟩

/-- Settles O45: the states that are not BUSY are IDLE, DONE and ERROR, and in them CLEAR is `clearAll`. -/
theorem clearRestoresReset : Obligations.ClearRestoresReset := by
  refine fun s => ⟨fun hphase => ?_, fun hstatus => ?_⟩
  · exact exec_clear_of_not_busy (not_busy_iff.2 hphase)
  · exact exec_clear_of_busy ((portRead_status_eq_one_iff s).1 hstatus)

/-! #### Secrets -/

/-- A register depends on the queues through their lengths only, and not at all on the working registers (R28, R261). -/
theorem readReg_withSecrets {s : State} {keyq ivq dataq : List Word} (hkey : s.keyq.length = keyq.length)
    (hiv : s.ivq.length = ivq.length) (hdata : s.dataq.length = dataq.length) (w : Work) (r : Reg) :
    readReg { s with keyq := keyq, ivq := ivq, dataq := dataq, work := w } r = readReg s r := by
  cases r with
  | keyWc => exact congrArg (BitVec.ofNat 32) hkey.symm
  | ivWc => exact congrArg (BitVec.ofNat 32) hiv.symm
  | dataWc => exact congrArg (BitVec.ofNat 32) hdata.symm
  | _ => rfl

/-- Settles O57, at the register of each offset. -/
theorem secretsUnreadable : Obligations.SecretsUnreadable := by
  intro s t hkey hiv hdata ht off
  rw [portRead, ht]
  exact readReg_withSecrets hkey hiv hdata t.work (regAt off)

/-! #### The end of a request -/

/-- The request has ended: the sequencer stands in ERROR or DONE (R40). -/
def Phase.Ended (p : Phase) : Prop :=
  p = .error ∨ p = .done

/-- `t` has the hardware's state of `s`: they differ in the model's own lists at most (log entry 1). -/
def State.SameHardware (s t : State) : Prop :=
  t = { s with inbox := t.inbox, replies := t.replies }

/-- The events that lead out of an ended request: RESET, and CLEAR written to `CMD` (R286, R310). -/
def Event.Clears (e : Event) : Prop :=
  e = .reset ∨ e = .write 0x004#32 4 2#32

theorem Phase.Ended.not_busy {p : Phase} (h : p.Ended) : p.busy = false :=
  not_busy_iff.2 (.inr h.symm)

theorem Phase.Ended.ne_idle {p : Phase} (h : p.Ended) : p ≠ .idle := by
  obtain rfl | rfl := h <;> decide

theorem Phase.Ended.ne_validate {p : Phase} (h : p.Ended) : p ≠ .validate := by
  obtain rfl | rfl := h <;> decide

theorem Phase.Ended.no_reader {p : Phase} (h : p.Ended) : phaseReader p = none := by
  obtain rfl | rfl := h <;> rfl

section
variable {s t : State} (h : s.seq.phase.Ended)
include h

/-- No word but CLEAR written to `CMD` has an effect on an ended request: START is ignored (R266, R268). -/
theorem commandWrite_of_ended {v : Word} (hv : v ≠ 2#32) : commandWrite v s = .next s := by
  by_cases h1 : v = 1#32
  · subst h1
    exact (commandWrite_of_ok rfl s).trans (exec_start_of_not_idle h.ne_idle)
  · exact commandWrite_of_ne h1 hv s

/-- A write keeps the hardware's state of an ended request but for CLEAR written to `CMD` (R262, R267). -/
theorem hostWrite_of_ended {off : BitVec 32} {n : Nat} {v : Word} (hstep : hostWrite off n v s = .next t) :
    t = s ∨ (t = clearAll s ∧ (Event.write off n v).Clears) := by
  unfold hostWrite at hstep
  split at hstep
  case h_1 => cases hstep
  case h_2 haccess =>
    obtain ⟨rfl, -⟩ := accessRefusal_eq_none.1 haccess
    split at hstep
    case isFalse =>
      rw [portWrite_of_not_idle h.ne_idle] at hstep
      cases hstep
      exact .inl rfl
    case isTrue hcmd =>
      by_cases hv : v = 2#32
      · subst hv
        rw [commandWrite_of_ok (i := .clear) rfl, exec_clear_of_not_busy h.not_busy] at hstep
        cases hstep
        exact .inr ⟨rfl, .inr (by rw [regAt_eq_cmd_iff.1 hcmd])⟩
      · rw [commandWrite_of_ended h hv] at hstep
        cases hstep
        exact .inl rfl

theorem sequencerStep_of_ended : sequencerStep s = .next s :=
  sequencerStep_of_none h.no_reader

/-- Every event keeps the hardware's state of an ended request or clears it (R286, R299, R310). -/
theorem handle_of_ended {e : Event} (hstep : handle e s = .next t) :
    s.SameHardware t ∨ (t = clearAll s ∧ e.Clears) := by
  cases e with
  | read off n =>
    simp only [handle, hostRead] at hstep
    split at hstep <;> cases hstep
    exact .inl rfl
  | write off n v =>
    obtain rfl | hclear := hostWrite_of_ended h hstep
    · exact .inl rfl
    · exact .inr hclear
  | reset =>
    cases hstep
    exact .inr ⟨rfl, .inl rfl⟩
  | sequencerStep =>
    rw [handle, sequencerStep_of_ended h] at hstep
    cases hstep
    exact .inl rfl
  | runRequest =>
    rw [handle, requestStep_of_not_validate h.ne_validate, sequencerStep_of_ended h] at hstep
    cases hstep
    exact .inl rfl

end

/-- Settles O54: with no event to come an ended request stays, and each event keeps it or clears it. -/
theorem onlyClearEndsARequest : Obligations.OnlyClearEndsARequest := by
  intro s t hended hstep
  cases hin : s.inbox with
  | nil =>
    rw [step_of_nil hin, sequencerStep_of_ended hended] at hstep
    cases hstep
    exact .inl rfl
  | cons e rest =>
    rw [step_of_cons hin] at hstep
    obtain hsame | ⟨rfl, hclears⟩ := handle_of_ended (s := { s with inbox := rest }) hended hstep
    · exact .inl hsame
    · exact .inr ⟨rfl, e, rest, rfl, hclears⟩

end Sys2Proof.Machine
end

section
/-! PROOF of O34, O38, O29 and O56. The errors (spec/60_exceptions.md R280 to R284): the checks of validation in their order, the
kinds of error a request raises, those a unit raises at its own boundary, and what the host reads after error entry. -/
namespace Sys2Proof.Machine

/-! #### The control word -/

/-- Under a legal control word a request is `runLegal` of its fields (R231). -/
theorem run_of_decode {w : Word} {k : Control} (h : decodeControl w = .ok k) (S : Suite) (q : Request) :
    run S w q = runLegal S k q := by
  rw [run, h]

theorem run_of_decode_error {w : Word} {e : DecodeError} (h : decodeControl w = .error e) (S : Suite) (q : Request) :
    run S w q = .error .unsupportedConfiguration := by
  rw [run, h]

/-- A reserved control word is the first check (R92, R231). -/
theorem run_of_reserved {w : Word} (h : w.extractLsb' 7 25 ≠ 0#25 ∨ w.extractLsb' 0 2 = 3#2 ∨ w.extractLsb' 2 2 = 3#2)
    (S : Suite) (q : Request) : run S w q = .error .unsupportedConfiguration := by
  cases hk : decodeControl w with
  | error e => exact run_of_decode_error hk S q
  | ok k =>
    obtain ⟨hrsvd, hcipher, hmode⟩ := (exists_decodeControl w).1 ⟨k, hk⟩
    obtain h | h | h := h
    exacts [absurd hrsvd h, absurd h hcipher, absurd h hmode]

/-! #### The width checks in their order -/

theorem byteGranular_eq_true_iff {p : Scheme} : byteGranular p = true ↔ p ≠ .rfc1321 := by
  cases p <;> decide

/-- The IV widths that a mode does not accept (R203, R206, R234). -/
theorem ivWidthOk_eq_false_iff {m : Mode} {c : Cipher} {n : Nat} :
    ivWidthOk m c n = false ↔ m = .cbc ∧ n ≠ blockBits c ∨ m = .ctr ∧ ¬ (1 ≤ n ∧ n ≤ blockBits c) := by
  cases m <;> simp [ivWidthOk]

/-- Encrypting, a byte-granular scheme wants whole bytes; decrypting, every scheme wants whole blocks (R235, R236). -/
theorem dataWidthError_eq (k : Control) (dataN : Nat) :
    dataWidthError k dataN =
      if k.dir = .enc ∧ k.padding ≠ .rfc1321 ∧ dataN % 8 ≠ 0 then some .unsupportedConfiguration
      else if k.dir = .dec ∧ dataN % blockBits k.cipher ≠ 0 then some .invalidKeyOrBlockSize
      else none := by
  unfold dataWidthError
  cases k.dir with
  | enc => simp [byteGranular_eq_true_iff]
  | dec => simp

section
variable {k : Control} {keyN ivN dataN : Nat}

theorem widthError_of_key (h : keyN ≠ keyBits k.cipher) :
    widthError k keyN ivN dataN = some .invalidKeyOrBlockSize :=
  if_pos h

theorem widthError_of_iv (hkey : keyN = keyBits k.cipher) (h : ivWidthOk k.mode k.cipher ivN = false) :
    widthError k keyN ivN dataN = some .unsupportedConfiguration := by
  rw [widthError, if_neg (not_not.2 hkey), if_pos h]

/-- The data width is looked at last (R283). -/
theorem widthError_of_key_iv (hkey : keyN = keyBits k.cipher) (hiv : ivWidthOk k.mode k.cipher ivN ≠ false) :
    widthError k keyN ivN dataN = dataWidthError k dataN := by
  rw [widthError, if_neg (not_not.2 hkey), if_neg hiv]

end

/-! #### Validation in its order -/

/-- The operands of a request, read from as many words as their sizes take; in ECB the IV is empty (R121, R232). -/
def Request.operands (m : Mode) (q : Request) : Operands :=
  ⟨recordValue q.keyq q.keySize, if m = .ecb then .empty else recordValue q.ivq q.ivSize, recordValue q.dataq q.dataSize⟩

/-- In ECB, where the IV is not looked at, its width is not looked at either: the checks may take `IV_SIZE` for it (R232,
R234). -/
theorem widthError_operands (k : Control) (q : Request) :
    widthError k (q.operands k.mode).key.len (q.operands k.mode).iv.len (q.operands k.mode).data.len =
      widthError k q.keySize.toNat q.ivSize.toNat q.dataSize.toNat := by
  obtain ⟨c, m, p, d⟩ := k
  cases m <;> rfl

/-- A record with too few words ends the request before any width is checked (R232, R283). -/
theorem runLegal_of_short {k : Control} {q : Request} (S : Suite)
    (h : q.keyq.length < wordCount q.keySize.toNat ∨ (k.mode ≠ .ecb ∧ q.ivq.length < wordCount q.ivSize.toNat) ∨
      q.dataq.length < wordCount q.dataSize.toNat) : runLegal S k q = .error .malformedInput := by
  rw [runLegal, validate_eq_error.2 (.inl (decodeOperands_of_short h))]

section
variable {k : Control} {q : Request} (hdec : decodeOperands k.mode q = .ok (q.operands k.mode))
include hdec

/-- A request whose operands decode ends in the first width error. -/
theorem runLegal_of_width_some (S : Suite) {e : ErrKind}
    (h : widthError k q.keySize.toNat q.ivSize.toNat q.dataSize.toNat = some e) : runLegal S k q = .error e := by
  rw [runLegal, validate_eq_error.2 (.inr ⟨_, hdec, (widthError_operands k q).trans h⟩)]

/-- A request whose operands decode to the right widths is transformed. -/
theorem runLegal_of_width_none (S : Suite)
    (h : widthError k q.keySize.toNat q.ivSize.toNat q.dataSize.toNat = none) :
    runLegal S k q = transform S k (q.operands k.mode) :=
  runLegal_of_validate S (validate_eq_ok.2 ⟨hdec, (widthError_operands k q).trans h⟩)

end

/-- Settles O34, check by check: the records that decode, then the widths of key, IV and data. -/
theorem validationOrder : Obligations.ValidationOrder := by
  refine fun S w q => ⟨fun hreserved => run_of_reserved hreserved S q, fun k hk => ?_⟩
  rw [run_of_decode hk]
  split
  case isTrue hshort => exact runLegal_of_short S (.inl hshort)
  case isFalse hkeyWords =>
  split
  case isTrue hshort => exact runLegal_of_short S (.inr (.inl hshort))
  case isFalse hivWords =>
  split
  case isTrue hshort => exact runLegal_of_short S (.inr (.inr hshort))
  case isFalse hdataWords =>
  have hdec : decodeOperands k.mode q = .ok (q.operands k.mode) :=
    decodeOperands_of_le (Nat.not_lt.1 hkeyWords) (fun hm => Nat.not_lt.1 fun hlt => hivWords ⟨hm, hlt⟩)
      (Nat.not_lt.1 hdataWords)
  split
  case isTrue hkey => exact runLegal_of_width_some hdec S (widthError_of_key hkey)
  case isFalse hkey =>
  split
  case isTrue hcbc =>
    exact runLegal_of_width_some hdec S (widthError_of_iv (not_not.1 hkey) (ivWidthOk_eq_false_iff.2 (.inl hcbc)))
  case isFalse hcbc =>
  split
  case isTrue hctr =>
    exact runLegal_of_width_some hdec S (widthError_of_iv (not_not.1 hkey) (ivWidthOk_eq_false_iff.2 (.inr hctr)))
  case isFalse hctr =>
  have hdata := widthError_of_key_iv (dataN := q.dataSize.toNat) (not_not.1 hkey)
    (mt ivWidthOk_eq_false_iff.1 (not_or.2 ⟨hcbc, hctr⟩))
  rw [dataWidthError_eq] at hdata
  split
  case isTrue hbytes => exact runLegal_of_width_some hdec S (hdata.trans (if_pos hbytes))
  case isFalse hbytes =>
  rw [if_neg hbytes] at hdata
  split
  case isTrue hblocks => exact runLegal_of_width_some hdec S (hdata.trans (if_pos hblocks))
  case isFalse hblocks => exact runLegal_of_width_none hdec S (hdata.trans (if_neg hblocks))

/-! #### The kinds of error of a request -/

/-- Zero unpadding accepts everything (R142). -/
theorem unpadValue_zero_ne_none (c : Cipher) (v : BitValue) : unpadValue .zero c v ≠ none :=
  Option.some_ne_none _

/-- The transform of validated operands fails in one way only: decrypting, where the data does not unpad (R237, R238). -/
theorem transform_error {S : Suite} {k : Control} {o : Operands} {e : ErrKind} (h : transform S k o = .error e) :
    e = .paddingError ∧ k.dir = .dec ∧ k.padding ≠ .zero := by
  obtain ⟨c, m, p, d⟩ := k
  cases d with
  | enc => cases h
  | dec =>
    cases hu : unpadValue p c (modeValue S m .dec c o.key o.iv o.data) with
    | some v =>
      rw [transform_dec_of_some hu] at h
      cases h
    | none =>
      rw [transform_dec_of_none hu] at h
      refine ⟨(Except.error.inj h).symm, rfl, ?_⟩
      rintro rfl
      exact unpadValue_zero_ne_none c _ hu

/-- Validation raises three kinds of error (R282). -/
theorem validate_error_kind {k : Control} {q : Request} {e : ErrKind} (h : validate k q = .error e) :
    e = .malformedInput ∨ e = .invalidKeyOrBlockSize ∨ e = .unsupportedConfiguration := by
  obtain hdec | ⟨o, -, hwidth⟩ := validate_eq_error.1 h
  · exact .inl (decodeOperands_error hdec)
  · exact .inr (widthError_kind hwidth)

/-- What a request raises: one of validation's three kinds, or `PaddingError` from unpadding (R282). -/
theorem run_error_kind {S : Suite} {w : Word} {q : Request} {e : ErrKind} (h : run S w q = .error e) :
    (e = .malformedInput ∨ e = .invalidKeyOrBlockSize ∨ e = .unsupportedConfiguration) ∨
      (e = .paddingError ∧ ∃ k, decodeControl w = .ok k ∧ k.dir = .dec ∧ k.padding ≠ .zero) := by
  cases hk : decodeControl w with
  | error e' =>
    rw [run_of_decode_error hk] at h
    exact .inl (.inr (.inr (Except.error.inj h).symm))
  | ok k =>
    rw [run_of_decode hk] at h
    cases hval : validate k q with
    | error e' =>
      rw [runLegal, hval] at h
      exact .inl (Except.error.inj h ▸ validate_error_kind hval)
    | ok o =>
      rw [runLegal_of_validate S hval] at h
      obtain ⟨he, hdir, hpadding⟩ := transform_error h
      exact .inr ⟨he, k, rfl, hdir, hpadding⟩

/-- Settles O38, kind by kind. -/
theorem requestErrorKinds : Obligations.RequestErrorKinds := by
  intro S w q e h
  obtain (rfl | rfl | rfl) | ⟨rfl, hpadding⟩ := run_error_kind h
  exacts [⟨nofun, nofun, nofun⟩, ⟨nofun, nofun, nofun⟩, ⟨nofun, nofun, nofun⟩, ⟨nofun, nofun, fun _ => hpadding⟩]

/-! #### The boundaries of the units -/

/-- A block operation under a key of another width than the variant's (R170, R281). -/
theorem exec_blockOp_of_wrong_key {c : Cipher} {s : State} (d : Direction) (m : Mode) (p : Scheme)
    (hk : s.work.keyN.toNat ≠ keyBits c) :
    exec (encBlockOp c d m p) s = .next (raise .invalidKeyOrBlockSize s) ∧
      exec (decBlockOp c m p) s = .next (raise .invalidKeyOrBlockSize s) := by
  rw [exec_encBlockOp, exec_decBlockOp, cipherUnit_eq_error.2 ⟨hk, rfl⟩, cipherUnit_eq_error.2 ⟨hk, rfl⟩, settle_error]
  exact ⟨rfl, rfl⟩

/-- A mode operation looks at the IV first: one of a width it does not accept ends it (R203, R207, R281, log entry 17). -/
theorem modeStep_of_wrong_iv {m : Mode} {c : Cipher} {s : State} (d : Direction)
    (hi : ivWidthOk m c s.work.ivN.toNat = false) : modeStep m d c s = .error .invalidIVSize := by
  have hraise : ∀ r, withIv m c s r = .error .invalidIVSize := fun r => withIv_eq_error.2 (.inl ⟨hi, rfl⟩)
  cases m with
  | ecb => cases hi
  | cbc => cases d <;> exact hraise _
  | ctr => exact hraise _

theorem exec_selectMode_of_wrong_iv {k : Control} {s : State}
    (hi : ivWidthOk k.mode k.cipher s.work.ivN.toNat = false) :
    exec (selectMode k) s = .next (raise .invalidIVSize s) := by
  rw [exec_selectMode, modeStep_of_wrong_iv k.dir hi, settle_error]

/-- Settles O29: the cipher unit's key, variant by variant, and the mode unit's IV, mode by mode. -/
theorem unitBoundaryWidths : Obligations.UnitBoundaryWidths := by
  refine ⟨fun d m p s => ⟨fun hk => ?_, fun hk => ?_, fun hk => ?_⟩, fun c p s => ⟨fun hn => ?_, fun hn => ?_⟩⟩
  · exact exec_blockOp_of_wrong_key (c := .sdes) d m p fun h => hk (BitVec.eq_of_toNat_eq h)
  · exact exec_blockOp_of_wrong_key (c := .lucifer) d m p fun h => hk (BitVec.eq_of_toNat_eq h)
  · exact exec_blockOp_of_wrong_key (c := .sp96) d m p fun h => hk (BitVec.eq_of_toNat_eq h)
  · have hiv : ivWidthOk .cbc c s.work.ivN.toNat = false := ivWidthOk_eq_false_iff.2 (.inl ⟨rfl, hn⟩)
    exact ⟨exec_selectMode_of_wrong_iv (k := ⟨c, .cbc, p, .enc⟩) hiv,
      exec_selectMode_of_wrong_iv (k := ⟨c, .cbc, p, .dec⟩) hiv⟩
  · have hiv : ivWidthOk .ctr c s.work.ivN.toNat = false := ivWidthOk_eq_false_iff.2 (.inr ⟨rfl, by omega⟩)
    exact ⟨exec_selectMode_of_wrong_iv (k := ⟨c, .ctr, p, .enc⟩) hiv,
      exec_selectMode_of_wrong_iv (k := ⟨c, .ctr, p, .dec⟩) hiv⟩

/-! #### Error entry as the host reads it -/

/-- The registers that tell how a request stands or ended (R23, R24, R26, R30): those that error entry can change. -/
def Reg.outcome : Reg → Bool
  | .status | .err | .outSize | .outWords | .out _ => true
  | .ctrl | .cmd | .keySize | .ivSize | .dataSize | .keyIn | .ivIn | .dataIn | .keyWc | .ivWc | .dataWc | .cap
  | .unmapped => false

/-- Error entry keeps what the host wrote (R284). -/
theorem readReg_raise {r : Reg} (h : r.outcome = false) (e : ErrKind) (s : State) : readReg (raise e s) r = readReg s r := by
  cases r with
  | status | err | outSize | outWords | out => cases h
  | _ => rfl

/-- Below the OUT window four offsets hold a register of the outcome (R61). -/
theorem outcome_of_low {off : BitVec 32} (hlow : off.toNat < 0x1000)
    (hoff : off ∉ [0x008#32, 0x00C#32, 0x01C#32, 0x02C#32]) : (regAt off).outcome = false := by
  simp only [List.mem_cons, List.not_mem_nil, or_false, not_or] at hoff
  obtain ⟨hstatus, herr, hsize, hwords⟩ := hoff
  unfold regAt
  split
  case h_3 h => exact absurd (BitVec.eq_of_toNat_eq h) hstatus
  case h_4 h => exact absurd (BitVec.eq_of_toNat_eq h) herr
  case h_8 h => exact absurd (BitVec.eq_of_toNat_eq h) hsize
  case h_12 h => exact absurd (BitVec.eq_of_toNat_eq h) hwords
  case h_17 => rw [if_neg fun hwindow => Nat.not_le.2 hlow hwindow.1]; rfl
  all_goals rfl

/-- Settles O56: in ERROR the response registers read 0 and `ERR` the code, the registers the host wrote read as before, and the
kinds of a request have the codes 1 to 4. -/
theorem raiseAsTheHostSeesIt : Obligations.RaiseAsTheHostSeesIt := by
  refine ⟨fun e s => ?_, rfl, rfl, rfl, rfl, rfl, rfl, fun S w q e h => ?_, fun s hphase => ?_⟩
  · obtain ⟨-, -, hresponse, herr, -⟩ := responseRegisters (raise e s)
    obtain ⟨hsize, hwords, hwindow⟩ := hresponse nofun
    exact ⟨rfl, portRead_status _, herr rfl, hsize, hwords, hwindow,
      fun off hlow hoff => readReg_raise (outcome_of_low hlow hoff) e s⟩
  · obtain (rfl | rfl | rfl) | ⟨rfl, -⟩ := run_error_kind h <;> decide
  · obtain ⟨-, -, -, -, herr⟩ := responseRegisters s
    exact herr hphase

end Sys2Proof.Machine
end

section
/-! PROOF of O46. The RESET event (spec/70_reset_and_hazards.md R310). -/
namespace Sys2Proof.Machine

/-- RESET does what CLEAR does outside BUSY, but in whatever phase (R267, R310). -/
theorem handle_reset (s : State) : handle .reset s = .next (clearAll s) := rfl

/-- Settles O46: the step takes RESET from the inbox, and `clearAll` keeps of the state only the model's own lists
(log entry 1). -/
theorem resetEventRestoresReset : Obligations.ResetEventRestoresReset := by
  intro s rest hin
  calc step s
    _ = handle .reset { s with inbox := rest } := step_of_cons hin
    _ = .next (clearAll { s with inbox := rest }) := handle_reset _
    _ = .next { State.reset with inbox := rest, replies := s.replies } := rfl

end Sys2Proof.Machine
end
